-- ==== Sys2Proof/Word.lean ====
section
/-! DEFINITION. The word types of the block: an action or response word is 32 bits (spec R90, R100), a datum is one
byte (R3, R70), a line number is the 4-bit LINE field (R92). -/

namespace Sys2Proof

/-- An action word or a response word: 32 bits, bit 0 least significant (R16, R90). -/
abbrev Word := BitVec 32

/-- A data unit: one unsigned byte (R3, R70). -/
abbrev Byte := BitVec 8

/-- The LINE field, a line number 0..15 (R92). -/
abbrev Line := BitVec 4

end Sys2Proof
end

