-- ==== Sys2Proof/Syntax.lean ====
section
/-! DEFINITION. The steps of the block as syntax: one constructor of `Instr` per row of spec/opcode_table.json, the
three ports (R99), the two ring buffers of a channel (R94) and the names of the opcodes (R93). -/

namespace Sys2Proof

/-- The port an action word arrives on (R99). -/
inductive Port where
  | command  -- the foreground, driven by the host
  | leaf     -- test access to the ring buffers
  | event    -- the interrupt controller and the UART
deriving DecidableEq, Repr

/-- The ring buffer an FB or FQ word selects (R94). -/
inductive Buf where
  | rx
  | tx
deriving DecidableEq, Repr

/-- The thirteen opcodes of R93, by name. -/
inductive Op where
  | configure
  | readAvailable
  | write
  | drain
  | rbIsEmpty
  | rbIsFull
  | rbPushP
  | rbPopP
  | rbPushU
  | rbPopU
  | evIrq
  | evRx
  | evTxDone
deriving DecidableEq, Repr

/-- One step of the block, decoded (R93). A length that counts data bytes (WRITE and the pushes, R95) is the length of
`data`; a length that bounds a result (READ_AVAILABLE and the pops) is the field itself, `max`. -/
inductive Instr where
  /-- CONFIGURE line, tx_pin, rx_pin (R172). -/
  | configure (line : Line) (txPin rxPin : Byte)
  /-- READ_AVAILABLE line, max (R176). -/
  | readAvailable (line : Line) (max : BitVec 16)
  /-- WRITE line, [data] (R180). -/
  | write (line : Line) (data : List Byte)
  /-- DRAIN line (R186). -/
  | drain (line : Line)
  /-- RB_IS_EMPTY line, buf (R150). -/
  | rbIsEmpty (line : Line) (buf : Buf)
  /-- RB_IS_FULL line, buf (R152). -/
  | rbIsFull (line : Line) (buf : Buf)
  /-- RB_PUSH_P line, buf, [data] (R136). -/
  | rbPushP (line : Line) (buf : Buf) (data : List Byte)
  /-- RB_POP_P line, buf, max (R142). -/
  | rbPopP (line : Line) (buf : Buf) (max : BitVec 16)
  /-- RB_PUSH_U line, buf, [data] (R137). -/
  | rbPushU (line : Line) (buf : Buf) (data : List Byte)
  /-- RB_POP_U line, buf, max (R143). -/
  | rbPopU (line : Line) (buf : Buf) (max : BitVec 16)
  /-- EV_IRQ line (R210). -/
  | evIrq (line : Line)
  /-- EV_RX line, data, err (R220). -/
  | evRx (line : Line) (err : Bool) (data : Byte)
  /-- EV_TX_DONE line (R222). -/
  | evTxDone (line : Line)
deriving DecidableEq, Repr

end Sys2Proof
end

