-- ==== Sys2Proof/WellFormed.lean ====
section
/-! DEFINITION. What a step must satisfy to have an encoding: the number of data bytes of WRITE, RB_PUSH_P and RB_PUSH_U
fits the 16-bit LEN field (R95). Every other operand has the width of its field already. -/

namespace Sys2Proof

/-- A data list that the LEN field can count: 0..65535 bytes (R95). -/
def lenFits (data : List Byte) : Bool := decide (data.length < 65536)

/-- The step has an encoding (R95, R98). -/
def Instr.wellFormed : Instr → Bool
  | .configure _ _ _ => true
  | .readAvailable _ _ => true
  | .write _ data => lenFits data
  | .drain _ => true
  | .rbIsEmpty _ _ => true
  | .rbIsFull _ _ => true
  | .rbPushP _ _ data => lenFits data
  | .rbPopP _ _ _ => true
  | .rbPushU _ _ data => lenFits data
  | .rbPopU _ _ _ => true
  | .evIrq _ => true
  | .evRx _ _ _ => true
  | .evTxDone _ => true

end Sys2Proof
end

