-- ==== Sys2Proof/Decode.lean ====
section
/-! DEFINITION. The encoding of steps (30_encoding): the opcode map, the match and mask values, the decoder of R102 over
the bytes of one trace entry, and the encoder written from the same tables. -/

namespace Sys2Proof

/-- The step of an instruction, by opcode name. -/
def Instr.op : Instr → Op
  | .configure _ _ _ => .configure
  | .readAvailable _ _ => .readAvailable
  | .write _ _ => .write
  | .drain _ => .drain
  | .rbIsEmpty _ _ => .rbIsEmpty
  | .rbIsFull _ _ => .rbIsFull
  | .rbPushP _ _ _ => .rbPushP
  | .rbPopP _ _ _ => .rbPopP
  | .rbPushU _ _ _ => .rbPushU
  | .rbPopU _ _ _ => .rbPopU
  | .evIrq _ => .evIrq
  | .evRx _ _ _ => .evRx
  | .evTxDone _ => .evTxDone

/-- The LINE operand every step carries (R92). -/
def Instr.line : Instr → Line
  | .configure l _ _ => l
  | .readAvailable l _ => l
  | .write l _ => l
  | .drain l => l
  | .rbIsEmpty l _ => l
  | .rbIsFull l _ => l
  | .rbPushP l _ _ => l
  | .rbPopP l _ _ => l
  | .rbPushU l _ _ => l
  | .rbPopU l _ _ => l
  | .evIrq l => l
  | .evRx l _ _ => l
  | .evTxDone l => l

/-- The data bytes that follow the word (R98): those of WRITE and the pushes, none for any other step. -/
def Instr.dataBytes : Instr → List Byte
  | .write _ data => data
  | .rbPushP _ _ data => data
  | .rbPushU _ _ data => data
  | .configure _ _ _ => []
  | .readAvailable _ _ => []
  | .drain _ => []
  | .rbIsEmpty _ _ => []
  | .rbIsFull _ _ => []
  | .rbPopP _ _ _ => []
  | .rbPopU _ _ _ => []
  | .evIrq _ => []
  | .evRx _ _ _ => []
  | .evTxDone _ => []

/-- The OP value of each opcode (R93). -/
def Op.code : Op → BitVec 4
  | .configure => 0x1
  | .readAvailable => 0x2
  | .write => 0x3
  | .drain => 0x4
  | .rbIsEmpty => 0x6
  | .rbIsFull => 0x7
  | .rbPushP => 0x8
  | .rbPopP => 0x9
  | .rbPushU => 0xA
  | .rbPopU => 0xB
  | .evIrq => 0xC
  | .evRx => 0xD
  | .evTxDone => 0xE

/-- The opcodes in the order of R93. -/
def Op.all : List Op :=
  [.configure, .readAvailable, .write, .drain, .rbIsEmpty, .rbIsFull, .rbPushP, .rbPopP, .rbPushU, .rbPopU, .evIrq,
    .evRx, .evTxDone]

/-- The opcode an OP value names; none for the reserved values 0x0, 0x5 and 0xF (R93, R101). -/
def Op.ofCode (c : BitVec 4) : Option Op := Op.all.find? (fun o => o.code == c)

/-- The port that accepts an opcode (R93, R99). -/
def Op.port : Op → Port
  | .configure => .command
  | .readAvailable => .command
  | .write => .command
  | .drain => .command
  | .rbIsEmpty => .leaf
  | .rbIsFull => .leaf
  | .rbPushP => .leaf
  | .rbPopP => .leaf
  | .rbPushU => .leaf
  | .rbPopU => .leaf
  | .evIrq => .event
  | .evRx => .event
  | .evTxDone => .event

/-- The mnemonic of R93, as spec/opcode_table.json spells it. -/
def Op.mnemonic : Op → String
  | .configure => "CONFIGURE"
  | .readAvailable => "READ_AVAILABLE"
  | .write => "WRITE"
  | .drain => "DRAIN"
  | .rbIsEmpty => "RB_IS_EMPTY"
  | .rbIsFull => "RB_IS_FULL"
  | .rbPushP => "RB_PUSH_P"
  | .rbPopP => "RB_POP_P"
  | .rbPushU => "RB_PUSH_U"
  | .rbPopU => "RB_POP_U"
  | .evIrq => "EV_IRQ"
  | .evRx => "EV_RX"
  | .evTxDone => "EV_TX_DONE"

/-- The MATCH column of R103. -/
def Op.matchWord : Op → Word
  | .configure => 0x10000000
  | .readAvailable => 0x20000000
  | .write => 0x30000000
  | .drain => 0x40000000
  | .rbIsEmpty => 0x60000000
  | .rbIsFull => 0x70000000
  | .rbPushP => 0x80000000
  | .rbPopP => 0x90000000
  | .rbPushU => 0xA0000000
  | .rbPopU => 0xB0000000
  | .evIrq => 0xC0000000
  | .evRx => 0xD0000000
  | .evTxDone => 0xE0000000

/-- The MASK column of R103: OP and every reserved bit. -/
def Op.mask : Op → Word
  | .configure => 0xF0FF0000
  | .readAvailable => 0xF0FF0000
  | .write => 0xF0FF0000
  | .drain => 0xF0FFFFFF
  | .rbIsEmpty => 0xF0FEFFFF
  | .rbIsFull => 0xF0FEFFFF
  | .rbPushP => 0xF0FE0000
  | .rbPopP => 0xF0FE0000
  | .rbPushU => 0xF0FE0000
  | .rbPopU => 0xF0FE0000
  | .evIrq => 0xF0FFFFFF
  | .evRx => 0xF0FFFE00
  | .evTxDone => 0xF0FFFFFF

/-- The BUF bit of a buffer: 0 = rx, 1 = tx (R94). -/
def Buf.bit : Buf → BitVec 1
  | .rx => 0
  | .tx => 1

/-- The buffer a BUF bit selects (R94). -/
def Buf.ofBit (b : BitVec 1) : Buf := if b = 1#1 then .tx else .rx

/-! ### Fields of the action word (R90 to R97) -/

/-- OP = w[31:28] (R91). -/
def opField (w : Word) : BitVec 4 := w.extractLsb' 28 4
/-- LINE = w[27:24] (R92). -/
def lineField (w : Word) : Line := w.extractLsb' 24 4
/-- The bits [23:17], reserved in every format (R90). -/
def reservedField (w : Word) : BitVec 7 := w.extractLsb' 17 7
/-- BUF = w[16] (R94). -/
def bufField (w : Word) : BitVec 1 := w.extractLsb' 16 1
/-- LEN = w[15:0] (R95). -/
def lenField (w : Word) : BitVec 16 := w.extractLsb' 0 16
/-- TX_PIN = w[15:8] (R96). -/
def txPinField (w : Word) : Byte := w.extractLsb' 8 8
/-- RX_PIN = w[7:0] (R96). -/
def rxPinField (w : Word) : Byte := w.extractLsb' 0 8
/-- ERR = w[8] (R97). -/
def errField (w : Word) : BitVec 1 := w.extractLsb' 8 1
/-- The bits [16:9], reserved in format FR (R90, R97). -/
def frReservedField (w : Word) : BitVec 8 := w.extractLsb' 9 8
/-- DATA = w[7:0] (R97). -/
def dataField (w : Word) : Byte := w.extractLsb' 0 8

/-! ### The decoder (R101, R102) -/

/-- Why a word is illegal (R101). All three raise the same fault. -/
inductive Illegal where
  | reservedOp    -- OP is 0x0, 0x5 or 0xF
  | wrongPort     -- OP is not accepted on the port it arrived on
  | reservedBits  -- a reserved bit of the format is not zero
deriving DecidableEq, Repr

/-- What the decoder reads from the bytes of a trace entry: a step and the bytes after it; an illegal word; or bytes that
are no whole step (log 7). -/
inductive Decoded where
  | ok (i : Instr) (rest : List Byte)
  | illegal (why : Illegal) (w : Word)
  | truncatedWord  -- fewer than the four bytes of a word
  | missingData    -- fewer data bytes than LEN
deriving DecidableEq, Repr

/-- Take the LEN data bytes that belong to the word (R98). -/
def withData (w : Word) (data : List Byte) (mk : List Byte → Instr) : Decoded :=
  if data.length < (lenField w).toNat then .missingData
  else .ok (mk (data.take (lenField w).toNat)) (data.drop (lenField w).toNat)

/-- The "requires" lines of R102: the format's own reserved bits are zero, or the word is illegal. -/
def requiring (zero : Bool) (w : Word) (d : Decoded) : Decoded :=
  if zero then d else .illegal .reservedBits w

/-- Read the operands of a word whose OP is `o`, by format, checking the bits the format reserves in [16:0] (R102). -/
def decodeOperands (o : Op) (w : Word) (data : List Byte) : Decoded :=
  let l := lineField w
  let b := Buf.ofBit (bufField w)
  let n := lenField w
  match o with
  | .configure => requiring (bufField w == 0) w (.ok (.configure l (txPinField w) (rxPinField w)) data)
  | .readAvailable => requiring (bufField w == 0) w (.ok (.readAvailable l n) data)
  | .write => requiring (bufField w == 0) w (withData w data (.write l))
  | .drain => requiring (bufField w == 0 && n == 0) w (.ok (.drain l) data)
  | .rbIsEmpty => requiring (n == 0) w (.ok (.rbIsEmpty l b) data)
  | .rbIsFull => requiring (n == 0) w (.ok (.rbIsFull l b) data)
  | .rbPushP => withData w data (.rbPushP l b)
  | .rbPopP => .ok (.rbPopP l b n) data
  | .rbPushU => withData w data (.rbPushU l b)
  | .rbPopU => .ok (.rbPopU l b n) data
  | .evIrq => requiring (bufField w == 0 && n == 0) w (.ok (.evIrq l) data)
  | .evRx => requiring (frReservedField w == 0) w (.ok (.evRx l (errField w == 1) (dataField w)) data)
  | .evTxDone => requiring (bufField w == 0 && n == 0) w (.ok (.evTxDone l) data)

/-- The decoder of R102 on a word and the bytes after it: reserved OP, then port, then reserved bits. -/
def decodeWord (port : Port) (w : Word) (data : List Byte) : Decoded :=
  match Op.ofCode (opField w) with
  | none => .illegal .reservedOp w
  | some o =>
    if o.port = port then
      if reservedField w = 0 then decodeOperands o w data
      else .illegal .reservedBits w
    else .illegal .wrongPort w

/-- Four bytes of a trace as a word, the least significant byte first (R70). -/
def wordOfBytes (b0 b1 b2 b3 : Byte) : Word := b3 ++ b2 ++ b1 ++ b0

/-- A word as the four bytes of a trace, the least significant byte first (R70). -/
def bytesOfWord (w : Word) : List Byte :=
  [w.extractLsb' 0 8, w.extractLsb' 8 8, w.extractLsb' 16 8, w.extractLsb' 24 8]

/-- Decode the bytes of one step that arrived on a port; total on any bytes (R102). -/
def decode (port : Port) (bytes : List Byte) : Decoded :=
  match bytes with
  | b0 :: b1 :: b2 :: b3 :: data => decodeWord port (wordOfBytes b0 b1 b2 b3) data
  | _ => .truncatedWord

/-! ### The encoder (R90, R98) -/

/-- The length field of a data list (R95). -/
def lenOf (data : List Byte) : BitVec 16 := BitVec.ofNat 16 data.length

/-- OP, LINE and the 24 bits below them. -/
def headed (o : Op) (l : Line) (low : BitVec 24) : Word := o.code ++ l ++ low

/-- Format FC: seven zeros, zero, TX_PIN, RX_PIN. -/
def lowFC (txPin rxPin : Byte) : BitVec 24 := 0#8 ++ txPin ++ rxPin
/-- Format FL: seven zeros, zero, LEN. -/
def lowFL (n : BitVec 16) : BitVec 24 := 0#8 ++ n
/-- Format FN: all zero. -/
def lowFN : BitVec 24 := 0#24
/-- Format FB: seven zeros, BUF, LEN. -/
def lowFB (b : Buf) (n : BitVec 16) : BitVec 24 := 0#7 ++ b.bit ++ n
/-- Format FQ: seven zeros, BUF, zeros. -/
def lowFQ (b : Buf) : BitVec 24 := 0#7 ++ b.bit ++ 0#16
/-- Format FR: fifteen zeros, ERR, DATA. -/
def lowFR (err : Bool) (d : Byte) : BitVec 24 := 0#15 ++ BitVec.ofBool err ++ d

/-- The 24 low bits of a step's action word, by its format (R90, R93). -/
def Instr.lowBits : Instr → BitVec 24
  | .configure _ t r => lowFC t r
  | .readAvailable _ n => lowFL n
  | .write _ data => lowFL (lenOf data)
  | .drain _ => lowFN
  | .rbIsEmpty _ b => lowFQ b
  | .rbIsFull _ b => lowFQ b
  | .rbPushP _ b data => lowFB b (lenOf data)
  | .rbPopP _ b n => lowFB b n
  | .rbPushU _ b data => lowFB b (lenOf data)
  | .rbPopU _ b n => lowFB b n
  | .evIrq _ => lowFN
  | .evRx _ e d => lowFR e d
  | .evTxDone _ => lowFN

/-- The action word of a step (R90). -/
def Instr.word (i : Instr) : Word := headed i.op i.line i.lowBits

/-- The bytes of a step in a trace: its word, then its data bytes (R70, R98). -/
def encode (i : Instr) : List Byte := bytesOfWord i.word ++ i.dataBytes

/-! ### Pseudo-instructions and assembly (R105, R106) -/

/-- SEND line, [bytes]: WRITE then DRAIN (R106). -/
def pseudoSend (line : Line) (data : List Byte) : List Instr := [.write line data, .drain line]

/-- RECV line, max: READ_AVAILABLE (R106). -/
def pseudoRecv (line : Line) (max : BitVec 16) : List Instr := [.readAvailable line max]

/-- `rx` or `tx` (R105). -/
def Buf.asm : Buf → String
  | .rx => "rx"
  | .tx => "tx"

/-- A byte list `[b0, b1, ...]`, in decimal (R105). -/
def asmBytes (data : List Byte) : String :=
  "[" ++ ", ".intercalate (data.map (fun b => toString b.toNat)) ++ "]"

/-- The operand list of a step after its line number (R105). -/
def Instr.asmOperands : Instr → List String
  | .configure _ t r => [toString t.toNat, toString r.toNat]
  | .readAvailable _ n => [toString n.toNat]
  | .write _ data => [asmBytes data]
  | .drain _ => []
  | .rbIsEmpty _ b => [b.asm]
  | .rbIsFull _ b => [b.asm]
  | .rbPushP _ b data => [b.asm, asmBytes data]
  | .rbPopP _ b n => [b.asm, toString n.toNat]
  | .rbPushU _ b data => [b.asm, asmBytes data]
  | .rbPopU _ b n => [b.asm, toString n.toNat]
  | .evIrq _ => []
  | .evRx _ e d => if e then [toString d.toNat, "err"] else [toString d.toNat]
  | .evTxDone _ => []

/-- The assembly line of a step (R105), numbers in decimal. -/
def Instr.asm (i : Instr) : String :=
  i.op.mnemonic ++ " " ++ ", ".intercalate (toString i.line.toNat :: i.asmOperands)

/-! ### One table word as the host gives it -/

/-- The port a table word is given on: the one its OP belongs to (R93); the command port for a reserved OP (log 13). -/
def tablePort (w : Word) : Port :=
  match Op.ofCode (opField w) with
  | some o => o.port
  | none => .command

/-- How many data bytes follow the word (R98). -/
def dataCount (w : Word) : Nat :=
  match Op.ofCode (opField w) with
  | some .write => (lenField w).toNat
  | some .rbPushP => (lenField w).toNat
  | some .rbPushU => (lenField w).toNat
  | _ => 0

/-- The low `nbits` bits of a table word; every bit above them is 0. -/
def tableWord (nbits w : Nat) : Word := BitVec.ofNat 32 (w % 2 ^ nbits)

/-- The bytes of a table word as a trace stores them, its data bytes all zero. -/
def tableBytes (nbits w : Nat) : List Byte :=
  bytesOfWord (tableWord nbits w) ++ List.replicate (dataCount (tableWord nbits w)) 0

/-- The instruction the decoder reads from a table word. -/
def decodeTableWord (nbits w : Nat) : Option Instr :=
  match decode (tablePort (tableWord nbits w)) (tableBytes nbits w) with
  | .ok i _ => some i
  | _ => none

end Sys2Proof
end

