-- ==== Sys2Proof/Config.lean ====
section
/-! DEFINITION. The implementation parameters of 00_scope section 4 (R10 to R15). Every one is OPEN in the spec, "the
model takes it as an argument": they ride in `State`, no step writes them, and a claim over all states is a claim
over all their values (log 1). -/

namespace Sys2Proof.Config

/-- Whether the two contexts of a channel share a clock domain (R14). No rule reads it. -/
inductive Clocking where
  | sync
  | async
deriving DecidableEq, Repr

/-- CAP_RX(c) and CAP_TX(c) of one line, in bytes (R11). -/
structure Caps where
  rx : Nat
  tx : Nat
deriving DecidableEq, Repr

/-- The parameters that are not per line. `rxErrMask` (R15) is the UART's: which receive-status bits mark a byte
malformed, as a number of no stated width; the block sees only the ERR bit, so no step reads it. -/
structure Build where
  autoDrain   : Bool
  uartRxDepth : Nat
  clocking    : Clocking
  rxErrMask   : Nat
deriving DecidableEq, Repr

/-- All parameters of a build: NUM_LINES is the number of entries of `lines` (R10). -/
structure Params where
  lines : List Caps
  build : Build
deriving DecidableEq, Repr

/-- NUM_LINES (R10). -/
def Params.numLines (p : Params) : Nat := p.lines.length

/-- The capacities the spec admits: 1..65535 each (R11). -/
abbrev Caps.Admitted (k : Caps) : Prop := (1 ≤ k.rx ∧ k.rx ≤ 65535) ∧ (1 ≤ k.tx ∧ k.tx ≤ 65535)

/-- The builds the spec admits: 1 to 16 lines (R10), capacities of R11, a UART that holds at least one byte (R13). -/
abbrev Params.Admitted (p : Params) : Prop :=
  (1 ≤ p.lines.length ∧ p.lines.length ≤ 16) ∧ (∀ k ∈ p.lines, k.Admitted) ∧ 1 ≤ p.build.uartRxDepth

/-- The build `State.reset` is of: the values spec/95_test_vectors.md uses "unless a vector says otherwise", AUTO_DRAIN
at its default (R12). DESIGN CHOICE (log 2), unsafe for a claim that rests on `State.reset` alone. -/
def defaultParams : Params where
  lines := [⟨4, 4⟩, ⟨4, 4⟩]
  build := { autoDrain := false, uartRxDepth := 4, clocking := .async, rxErrMask := 0 }

end Sys2Proof.Config
end

