-- ==== Sys2Proof/Machine/State.lean ====
section
/-! DEFINITION. The state of the block (10_state, S0 to S18), as plain data; the reasons a step can stop; the state at
power-up (70_reset_and_hazards R290). -/

namespace Sys2Proof.Machine

open Sys2Proof.Config (Caps Build Params)

/-- The faults of 60_exceptions R251, by name. Their codes are `FaultKind.code`. -/
inductive FaultKind where
  | configError
  | reconfigure
  | notConfigured
  | illegalCommand
  | roleViolation
  | txOverrun
deriving DecidableEq, Repr

/-- The record `raise Fault(kind, line, info)` leaves (R22, R250): the kind stands for its 4-bit code. -/
structure FaultRecord where
  kind : FaultKind
  line : Line
  info : BitVec 16
deriving DecidableEq, Repr

/-- The storage slots of a ring buffer (R60): (slot, byte) pairs, slots strictly rising; a slot that is not listed holds
no value (R35, D29; log 4). -/
abbrev Memory := List Host.Cell

/-- One ring buffer (R24). Its capacity N is the build's (`Caps`). -/
structure RingBuffer where
  store : Memory
  head  : Nat
  tail  : Nat
  count : Nat
deriving DecidableEq, Repr

/-- A received byte the handler has not read yet, and its ERR bit (R41). -/
structure RxEntry where
  data : Byte
  err  : Bool
deriving DecidableEq, Repr

/-- The fields of a channel that hold no value until CONFIGURE writes them (R35, R290): S2, S3 and S7 to S17. -/
structure Regs where
  txPin      : Byte          -- S2
  rxPin      : Byte          -- S3
  rx         : RingBuffer    -- S7 to S10
  tx         : RingBuffer    -- S11 to S14
  rxHw       : List RxEntry  -- S15, oldest first
  txBusy     : Bool          -- S16
  txDonePend : Bool          -- S17
deriving DecidableEq, Repr

/-- One channel (R23). `regs` is `none` on a line that is not configured: the spec's own "holds no value" (R290, log 3).
So S1, `configured`, is `regs.isSome`. `caps` is the build's and no step writes it (R11). -/
structure Channel where
  caps    : Caps
  rxIe    : Bool         -- S4
  txArmed : Bool         -- S5
  lineEn  : Bool         -- S6
  lineOut : List Byte    -- S18, oldest first
  regs    : Option Regs
deriving DecidableEq, Repr

/-- `ch[c].configured` (S1, R29). -/
def Channel.configured (c : Channel) : Bool := c.regs.isSome

/-- A configured channel with its register values at hand: what the body of a step works on. `chan.regs` is not read. -/
structure Live where
  chan : Channel
  regs : Regs
deriving DecidableEq, Repr

/-- The transmit states of a configured channel (R38). -/
inductive TxState where
  | idle
  | armedBusy
  | armedReady
deriving DecidableEq, Repr

/-- A response: the word of R100 and the data bytes after it. -/
structure Response where
  word : Word
  data : List Byte
deriving DecidableEq, Repr

/-- One entry of the trace: the bytes of one step and the port they arrive on (R98, R99). -/
structure Arrival where
  port  : Port
  bytes : List Byte
deriving DecidableEq, Repr

/-- The state of the block, with the build's parameters (log 1), the words the agents will give next (log 6) and the
responses given so far (log 9). `ch` has one record per line, so NUM_LINES is its length (R10, R23). -/
structure State where
  build     : Build
  ch        : List Channel
  fault     : Option FaultRecord  -- S0
  pending   : List Arrival
  responses : List Response
deriving DecidableEq, Repr

/-- Why the machine stops. -/
inductive Fault where
  /-- Raised by every step from a faulted block: "no step of any agent is enabled" (R22, R250). The spec's own stuck state;
  safe. -/
  | halted (r : FaultRecord)
  /-- Raised by a pop that would read a storage slot nothing has written (READ_AVAILABLE, RB_POP_P, RB_POP_U, DRAIN, WRITE
  with AUTO_DRAIN, EV_IRQ). The slot holds no value (R35, D29); unreachable under the ring invariant (R141); safe. -/
  | slotUnwritten
deriving DecidableEq, Repr

/-- Why there is no step to take. -/
inductive Refusal where
  /-- Raised by exec's arm for an instruction without a meaning; safe. -/
  | notModelled (mnemonic : String)
  /-- Raised by step when the agents give no further word (log 6); safe. -/
  | noActionPending
  /-- Raised by step on a trace entry of fewer than four bytes, which is no action word (R90, log 7); safe. -/
  | truncatedWord
  /-- Raised by step on a trace entry with fewer data bytes than its LEN (R98, log 7); safe. -/
  | missingData
  /-- Raised by step on a trace entry with bytes beyond the step's encoding (R98, log 7); safe. -/
  | trailingBytes
deriving DecidableEq, Repr

/-- The outcome of a step of this machine. -/
abbrev Outcome := Host.Outcome State Fault Refusal

/-- What the body of a step does: it completes, it raises a fault of R251 (the step's LINE is added by the step), or it
stops. -/
inductive Res (α : Type) where
  | done (a : α)
  | raised (k : FaultKind) (info : BitVec 16)
  | stuck (f : Fault)
deriving DecidableEq, Repr

/-- A channel at power-up (R290). -/
def Channel.powerUp (k : Caps) : Channel where
  caps := k
  rxIe := false
  txArmed := false
  lineEn := false
  lineOut := []
  regs := none

/-- The block at power-up, for a build (R290): no fault, every line unconfigured, nothing pending. -/
def State.powerUp (p : Params) : State where
  build := p.build
  ch := p.lines.map Channel.powerUp
  fault := none
  pending := []
  responses := []

/-- The block at power-up for the default build (log 2). The block has no reset input: power-up is its reset (R291). -/
def State.reset : State := State.powerUp Config.defaultParams

/-- NUM_LINES (R10). -/
def State.numLines (s : State) : Nat := s.ch.length

end Sys2Proof.Machine
end

