-- ==== Sys2Proof/Machine/Ops.lean ====
section
/-! DEFINITION. The shared operations: storage slots (R60), push and pop (R134, R140), the UART interface (R42, R43), the
interrupt-line suspension (R62), raising a fault (R250), responding (R100), and running a body on one configured channel. -/

namespace Sys2Proof.Machine

open Sys2Proof

/-! ### Results of a body -/

/-- Do `f` after a body that completed. -/
def Res.bind {α β : Type} (x : Res α) (f : α → Res β) : Res β :=
  match x with
  | .done a => f a
  | .raised k info => .raised k info
  | .stuck e => .stuck e

/-! ### Storage (R60) -/

/-- `MemRead(rb, i, 1)`: the byte in slot i; none where nothing has been written (log 4). -/
def Memory.read : Memory → Nat → Option Byte
  | [], _ => none
  | (a, b) :: m, i => if a = i then some b else Memory.read m i

/-- `MemWrite(rb, i, 1, v)`, keeping the slots strictly rising. -/
def Memory.write : Memory → Nat → Byte → Memory
  | [], i, v => [(i, v)]
  | (a, b) :: m, i, v =>
    if i < a then (i, v) :: (a, b) :: m
    else if i = a then (i, v) :: m
    else (a, b) :: Memory.write m i v

/-- The canonical form of storage: slots strictly rising. -/
def Memory.wf : Memory → Bool
  | [] => true
  | [_] => true
  | x :: y :: m => decide (x.1 < y.1) && Memory.wf (y :: m)

/-- The bytes of k slots from index `start` on, each index taken mod N; none if one of them holds no value. -/
def readSlots (m : Memory) (N start : Nat) : Nat → Option (List Byte)
  | 0 => some []
  | k + 1 =>
    match m.read (start % N), readSlots m N (start + 1) k with
    | some b, some bs => some (b :: bs)
    | _, _ => none

/-- Write bytes to the slots from index `start` on, each index taken mod N. -/
def writeSlots (m : Memory) (N start : Nat) : List Byte → Memory
  | [] => m
  | b :: bs => writeSlots (m.write (start % N) b) N (start + 1) bs

/-! ### Ring buffers -/

/-- A ring buffer as CONFIGURE leaves it: empty, its slots without value (R172, R35). -/
def RingBuffer.fresh : RingBuffer where
  store := []
  head := 0
  tail := 0
  count := 0

/-- `contents(rb)`, oldest first (R26); none if a slot of it holds no value, which the ring invariant excludes. -/
def RingBuffer.contents (N : Nat) (rb : RingBuffer) : Option (List Byte) := readSlots rb.store N rb.tail rb.count

/-- `rb_push(rb, data)`: the count accepted and the buffer after (R134). -/
def rbPush (N : Nat) (rb : RingBuffer) (data : List Byte) : Nat × RingBuffer :=
  let k := min data.length (N - rb.count)
  (k, { rb with
    store := writeSlots rb.store N rb.head (data.take k)
    head := (rb.head + k) % N
    count := rb.count + k })

/-- What a pop answers: the count, the bytes and the buffer after. -/
structure Popped where
  k   : Nat
  out : List Byte
  rb  : RingBuffer
deriving DecidableEq, Repr

/-- `rb_pop(rb, max)` (R140); stuck if it would read a slot that holds no value (log 4). -/
def rbPop (N : Nat) (rb : RingBuffer) (max : Nat) : Res Popped :=
  let k := min max rb.count
  match readSlots rb.store N rb.tail k with
  | some out => .done { k := k, out := out, rb := { rb with tail := (rb.tail + k) % N, count := rb.count - k } }
  | none => .stuck .slotUnwritten

/-! ### The UART interface -/

/-- `hw_read(c)`: the oldest received byte, removed (R42); none where its precondition fails. -/
def hwRead (r : Regs) : Option (RxEntry × Regs) :=
  match r.rxHw with
  | [] => none
  | e :: es => some (e, { r with rxHw := es })

/-- `hw_write(c, v)`: TX_OVERRUN while the transmitter is busy, else the byte goes out and the transmitter is busy (R43). -/
def hwWrite (l : Live) (v : Byte) : Res Live :=
  if l.regs.txBusy then .raised .txOverrun (v.setWidth 16)
  else .done { chan := { l.chan with lineOut := l.chan.lineOut ++ [v] }, regs := { l.regs with txBusy := true } }

/-! ### Suspension of the channel's interrupt line (R62) -/

/-- `suspend(c)`: the saved enable, and the channel with its line disabled. -/
def suspend (l : Live) : Bool × Live := (l.chan.lineEn, { l with chan := { l.chan with lineEn := false } })

/-- `restore(c, saved)`: the saved enable is written back. -/
def restore (saved : Bool) (l : Live) : Live := { l with chan := { l.chan with lineEn := saved } }

/-- A protected body: suspend, the operation, restore (R62). -/
def suspended {α : Type} (l : Live) (body : Live → Res (Live × α)) : Res (Live × α) :=
  (body (suspend l).2).bind fun x => .done (restore (suspend l).1 x.1, x.2)

/-! ### State updates -/

/-- The code of a fault kind (R251). -/
def FaultKind.code : FaultKind → BitVec 4
  | .configError => 1
  | .reconfigure => 2
  | .notConfigured => 3
  | .illegalCommand => 4
  | .roleViolation => 5
  | .txOverrun => 6

/-- TAKING A FAULT, `raise Fault(kind, line, info)`: the state before the step with the record (R250). Nothing returns from
it: the record is never cleared. -/
def State.raiseFault (s : State) (k : FaultKind) (line : Line) (info : BitVec 16) : State :=
  { s with fault := some { kind := k, line := line, info := info } }

/-- Put a channel's record back. -/
def State.setChannel (s : State) (line : Line) (c : Channel) : State := { s with ch := s.ch.set line.toNat c }

/-- Emit a response, if the step has one (R100). -/
def State.respond (s : State) (r : Option Response) : State := { s with responses := s.responses ++ r.toList }

/-- `respond(op, line, value, data)`: the word and the data of R100. -/
def mkResponse (o : Op) (line : Line) (value : Nat) (data : List Byte) : Response where
  word := o.code ++ line ++ 0#8 ++ BitVec.ofNat 16 value
  data := data

/-- The configured channel a LINE names, if there is one: LINE < NUM_LINES and `configured` (R130, R170). -/
def State.live (s : State) (line : Line) : Option Live :=
  match s.ch[line.toNat]? with
  | none => none
  | some c => c.regs.map fun r => { chan := c, regs := r }

/-- The channel record of a configured channel. -/
def Live.toChannel (l : Live) : Channel := { l.chan with regs := some l.regs }

/-! ### Running a step -/

/-- A faulted block enables no step (R22, R250). -/
def whenRunning (s : State) (o : Outcome) : Outcome :=
  match s.fault with
  | some r => .fault (.halted r)
  | none => o

/-- The outcome of a step whose body ran on the channel of `line`: its channel and response, or the state before the step
with the fault record (R250). -/
def commit (s : State) (line : Line) (x : Res (Live × Option Response)) : Outcome :=
  match x with
  | .done (l, r) => .next ((s.setChannel line l.toChannel).respond r)
  | .raised k info => .next (s.raiseFault k line info)
  | .stuck f => .fault f

/-- Run `body` on the channel of `line`; `absent` is the outcome where the line is out of range or not configured. -/
def onLine (s : State) (line : Line) (absent : State) (body : Live → Res (Live × Option Response)) : Outcome :=
  whenRunning s <|
    match s.live line with
    | none => .next absent
    | some l => commit s line (body l)

/-- A step of the command or leaf port: NOT_CONFIGURED with the OP as info where there is no channel (R130, R170). -/
def commandOn (s : State) (o : Op) (line : Line) (body : Live → Res (Live × Option Response)) : Outcome :=
  onLine s line (s.raiseFault .notConfigured line (o.code.setWidth 16)) body

/-- An event: no effect where there is no channel, and no response (R210, R220, R222, R100). -/
def eventOn (s : State) (line : Line) (body : Live → Res Live) : Outcome :=
  onLine s line s fun l => (body l).bind fun l' => .done (l', none)

end Sys2Proof.Machine
end

