-- ==== Sys2Proof/Machine/Operands.lean ====
section
/-! DEFINITION. The operand forms of the leaf port: which buffer BUF selects and its capacity (R130), and which buffer each
micro-operation may use (R131). -/

namespace Sys2Proof.Machine

open Sys2Proof

/-- The ring buffer BUF selects (R130). -/
def Regs.ring (r : Regs) : Buf → RingBuffer
  | .rx => r.rx
  | .tx => r.tx

/-- Write back the ring buffer BUF selects. -/
def Regs.setRing (r : Regs) (b : Buf) (rb : RingBuffer) : Regs :=
  match b with
  | .rx => { r with rx := rb }
  | .tx => { r with tx := rb }

/-- N of the ring buffer BUF selects: CAP_RX(line) or CAP_TX(line) (R130). -/
def Channel.capacity (c : Channel) : Buf → Nat
  | .rx => c.caps.rx
  | .tx => c.caps.tx

/-- A configured channel with one ring buffer replaced. -/
def Live.setRing (l : Live) (b : Buf) (rb : RingBuffer) : Live := { l with regs := l.regs.setRing b rb }

/-- `role_ok(op, buf)` (R131). The check is made for the leaf micro-operations only. -/
def roleOk : Op → Buf → Bool
  | .rbPushP, b => b == .tx
  | .rbPopP, b => b == .rx
  | .rbPushU, b => b == .rx
  | .rbPopU, b => b == .tx
  | _, _ => true

/-- The info of ROLE_VIOLATION: (OP << 4) or BUF (R130, R251). -/
def roleInfo (o : Op) (b : Buf) : BitVec 16 := (o.code.setWidth 16 <<< 4) ||| b.bit.setWidth 16

/-- A leaf micro-operation: the checks of R130 in their order, then its body. -/
def leafOn (s : State) (o : Op) (line : Line) (b : Buf) (body : Live → Res (Live × Option Response)) : Outcome :=
  commandOn s o line fun l => if roleOk o b then body l else .raised .roleViolation (roleInfo o b)

end Sys2Proof.Machine
end

