-- ==== Sys2Proof/Machine/Flags.lean ====
section
/-! DEFINITION. The flags computed from the state and not stored: empty, full and free of a ring buffer (R28), the UART
status (R44), the interrupt request (R36) and the transmit state (R38). -/

namespace Sys2Proof.Machine

open Sys2Proof

/-- `empty(rb)` (R28). -/
def RingBuffer.isEmpty (rb : RingBuffer) : Bool := rb.count == 0

/-- `full(rb)` for capacity N (R28). -/
def RingBuffer.isFull (N : Nat) (rb : RingBuffer) : Bool := rb.count == N

/-- `free(rb)` for capacity N (R28). -/
def RingBuffer.free (N : Nat) (rb : RingBuffer) : Nat := N - rb.count

/-- "Data ready" (R44). -/
def Regs.dataReady (r : Regs) : Bool := !r.rxHw.isEmpty

/-- "Transmit ready" (R44). -/
def Regs.transmitReady (r : Regs) : Bool := !r.txBusy

/-- The receive-ready interrupt condition, enabled and pending (R36, R210). -/
def Live.rxCond (l : Live) : Bool := l.chan.rxIe && l.regs.dataReady

/-- The transmit-ready interrupt condition, the masked status (R36, R211). -/
def Live.txCond (l : Live) : Bool := l.chan.txArmed && l.regs.txDonePend

/-- `irq_req(c)` of a configured channel (R36). -/
def Live.irqReq (l : Live) : Bool := l.chan.lineEn && (l.rxCond || l.txCond)

/-- `irq_req(c)` (R36): false on a line that is out of range or not configured. -/
def State.irqReq (s : State) (line : Line) : Bool := (s.live line).any Live.irqReq

/-- The transmit state of R38, where the three flags are those of one. -/
def Live.txState (l : Live) : Option TxState :=
  match l.chan.txArmed, l.regs.txBusy, l.regs.txDonePend with
  | false, false, false => some .idle
  | true, true, false => some .armedBusy
  | true, false, true => some .armedReady
  | _, _, _ => none

/-- The transmit state of a line, where the line is configured. -/
def State.txState (s : State) (line : Line) : Option TxState := (s.live line).bind Live.txState

end Sys2Proof.Machine
end

