-- ==== Sys2Proof/Machine/RingOps.lean ====
section
/-! DEFINITION. The leaf micro-operations of 40_ring_buffer: the two queries, and push and pop in their protected and
unprotected variants. -/

namespace Sys2Proof.Machine

open Sys2Proof

/-- A push on the selected buffer with its response (R134, R136, R137). -/
def pushBody (o : Op) (line : Line) (b : Buf) (data : List Byte) (l : Live) : Res (Live × Option Response) :=
  let p := rbPush (l.chan.capacity b) (l.regs.ring b) data
  .done (l.setRing b p.2, some (mkResponse o line p.1 []))

/-- A pop on the selected buffer with its response (R140, R142, R143, R176). -/
def popBody (o : Op) (line : Line) (b : Buf) (max : Nat) (l : Live) : Res (Live × Option Response) :=
  (rbPop (l.chan.capacity b) (l.regs.ring b) max).bind fun p =>
    .done (l.setRing b p.rb, some (mkResponse o line p.k p.out))

/-- The value of a truth (R100). -/
def flagValue (f : Bool) : Nat := if f then 1 else 0

/-- RB_IS_EMPTY (R150). -/
def execRbIsEmpty (line : Line) (b : Buf) (s : State) : Outcome :=
  leafOn s .rbIsEmpty line b fun l =>
    .done (l, some (mkResponse .rbIsEmpty line (flagValue (l.regs.ring b).isEmpty) []))

/-- RB_IS_FULL (R152). -/
def execRbIsFull (line : Line) (b : Buf) (s : State) : Outcome :=
  leafOn s .rbIsFull line b fun l =>
    .done (l, some (mkResponse .rbIsFull line (flagValue ((l.regs.ring b).isFull (l.chan.capacity b))) []))

/-- RB_PUSH_P: protected push, foreground producer (R136). -/
def execRbPushP (line : Line) (b : Buf) (data : List Byte) (s : State) : Outcome :=
  leafOn s .rbPushP line b fun l => suspended l (pushBody .rbPushP line b data)

/-- RB_POP_P: protected pop, foreground consumer (R142). -/
def execRbPopP (line : Line) (b : Buf) (max : BitVec 16) (s : State) : Outcome :=
  leafOn s .rbPopP line b fun l => suspended l (popBody .rbPopP line b max.toNat)

/-- RB_PUSH_U: unprotected push, handler producer (R137). -/
def execRbPushU (line : Line) (b : Buf) (data : List Byte) (s : State) : Outcome :=
  leafOn s .rbPushU line b fun l => pushBody .rbPushU line b data l

/-- RB_POP_U: unprotected pop, handler consumer (R143). -/
def execRbPopU (line : Line) (b : Buf) (max : BitVec 16) (s : State) : Outcome :=
  leafOn s .rbPopU line b fun l => popBody .rbPopU line b max.toNat l

end Sys2Proof.Machine
end

