-- ==== Sys2Proof/Machine/Commands.lean ====
section
/-! DEFINITION. The four channel commands of 41_channel_commands: CONFIGURE, READ_AVAILABLE, WRITE, DRAIN. -/

namespace Sys2Proof.Machine

open Sys2Proof

/-- A channel as CONFIGURE leaves it (R172, R293): both buffers empty, the receive interrupt enabled, the transmit
interrupt disarmed, the line enabled, the UART empty and idle; `line_out` and the storage slots are not touched (no slot
holds a value yet). -/
def Channel.afterConfigure (c : Channel) (txPin rxPin : Byte) : Channel :=
  { c with
    rxIe := true
    txArmed := false
    lineEn := true
    regs := some
      { txPin := txPin, rxPin := rxPin, rx := RingBuffer.fresh, tx := RingBuffer.fresh, rxHw := [], txBusy := false,
        txDonePend := false } }

/-- CONFIGURE (R172): CONFIG_ERROR where LINE >= NUM_LINES (R173), RECONFIGURE where the line is configured (R174). -/
def execConfigure (line : Line) (txPin rxPin : Byte) (s : State) : Outcome :=
  whenRunning s <|
    match s.ch[line.toNat]? with
    | none => .next (s.raiseFault .configError line 0)
    | some c =>
      if c.configured then .next (s.raiseFault .reconfigure line 0)
      else .next ((s.setChannel line (c.afterConfigure txPin rxPin)).respond
        (some (mkResponse .configure line line.toNat [])))

/-- READ_AVAILABLE: a protected pop of the receive buffer (R176). -/
def execReadAvailable (line : Line) (max : BitVec 16) (s : State) : Outcome :=
  commandOn s .readAvailable line fun l => suspended l (popBody .readAvailable line .rx max.toNat)

/-- `drain_body(line)`: when IDLE with bytes queued, pop one byte, write it to the UART and arm; otherwise nothing
(R186). A pop of one byte from a non-empty buffer answers one byte, so the empty answer does not arise (log 10). -/
def drainBody (l : Live) : Res Live :=
  if !l.chan.txArmed && !l.regs.tx.isEmpty then
    (rbPop l.chan.caps.tx l.regs.tx 1).bind fun p =>
      match p.out with
      | [] => .done l
      | v :: _ =>
        (hwWrite (l.setRing .tx p.rb) v).bind fun l' => .done { l' with chan := { l'.chan with txArmed := true } }
  else .done l

/-- The body of WRITE inside the suspension: push, and with AUTO_DRAIN the drain body (R180, R183). -/
def writeBody (autoDrain : Bool) (line : Line) (data : List Byte) (l : Live) : Res (Live × Option Response) :=
  (pushBody .write line .tx data l).bind fun x =>
    if autoDrain then (drainBody x.1).bind fun l' => .done (l', x.2) else .done x

/-- WRITE: a protected push to the transmit buffer (R180). -/
def execWrite (line : Line) (data : List Byte) (s : State) : Outcome :=
  commandOn s .write line fun l => suspended l (writeBody s.build.autoDrain line data)

/-- The body of DRAIN inside the suspension: the drain body, and the response VALUE 0 (R186, D33). -/
def drainStep (line : Line) (l : Live) : Res (Live × Option Response) :=
  (drainBody l).bind fun l' => .done (l', some (mkResponse .drain line 0 []))

/-- DRAIN: start transmission if it is stopped (R186). -/
def execDrain (line : Line) (s : State) : Outcome :=
  commandOn s .drain line fun l => suspended l (drainStep line)

end Sys2Proof.Machine
end

