-- ==== Sys2Proof/Machine/Events.lean ====
section
/-! DEFINITION. The event port of 42_interrupt_events: one handler invocation (EV_IRQ) and the two UART events. -/

namespace Sys2Proof.Machine

open Sys2Proof

/-- `rx_branch(c)`: read one byte from the UART; a malformed byte is discarded (R213), a good one is pushed and dropped
where the buffer is full (R212). With nothing to read, `hw_read`'s precondition fails and nothing happens (log 10). -/
def rxBranch (l : Live) : Live :=
  match hwRead l.regs with
  | none => l
  | some (e, r) =>
    if e.err then { l with regs := r }
    else { l with regs := { r with rx := (rbPush l.chan.caps.rx r.rx [e.data]).2 } }

/-- `tx_branch(c)`: the event is serviced; the next byte goes out, or the channel disarms (R214). -/
def txBranch (l : Live) : Res Live :=
  (rbPop l.chan.caps.tx l.regs.tx 1).bind fun p =>
    let l1 : Live := { l with regs := { l.regs with txDonePend := false, tx := p.rb } }
    match p.out with
    | [] => .done { l1 with chan := { l1.chan with txArmed := false } }
    | v :: _ => hwWrite l1 v

/-- The handler on the status sampled at entry: receive first, then transmit (R210, R211). -/
def handler (l : Live) : Res Live :=
  let l1 := if l.rxCond then rxBranch l else l
  if l.txCond then txBranch l1 else .done l1

/-- EV_IRQ: one invocation of the handler when the interrupt is requested; otherwise a no-op (R210, D30). -/
def execEvIrq (line : Line) (s : State) : Outcome :=
  eventOn s line fun l => if l.irqReq then handler l else .done l

/-- EV_RX: the UART receives a byte; it is lost where the UART is full (R220). -/
def execEvRx (line : Line) (err : Bool) (data : Byte) (s : State) : Outcome :=
  eventOn s line fun l =>
    if l.regs.rxHw.length < s.build.uartRxDepth then
      .done { l with regs := { l.regs with rxHw := l.regs.rxHw ++ [{ data := data, err := err }] } }
    else .done l

/-- EV_TX_DONE: the byte in flight is out and the transmit-ready event is latched; no effect when none is in flight
(R222). -/
def execEvTxDone (line : Line) (s : State) : Outcome :=
  eventOn s line fun l =>
    if l.regs.txBusy then .done { l with regs := { l.regs with txBusy := false, txDonePend := true } }
    else .done l

end Sys2Proof.Machine
end

