-- ==== Sys2Proof/Machine/Dispatch.lean ====
section
/-! DEFINITION. The dispatch of a decoded step to its meaning: one arm per constructor of `Instr`. -/

namespace Sys2Proof.Machine

open Sys2Proof

def exec (i : Instr) (s : State) : Host.Outcome State Fault Refusal :=
  match i with
  | .configure line txPin rxPin => Sys2Proof.Machine.execConfigure line txPin rxPin s
  | .readAvailable line max => Sys2Proof.Machine.execReadAvailable line max s
  | .write line data => Sys2Proof.Machine.execWrite line data s
  | .drain line => Sys2Proof.Machine.execDrain line s
  | .rbIsEmpty line buf => Sys2Proof.Machine.execRbIsEmpty line buf s
  | .rbIsFull line buf => Sys2Proof.Machine.execRbIsFull line buf s
  | .rbPushP line buf data => Sys2Proof.Machine.execRbPushP line buf data s
  | .rbPopP line buf max => Sys2Proof.Machine.execRbPopP line buf max s
  | .rbPushU line buf data => Sys2Proof.Machine.execRbPushU line buf data s
  | .rbPopU line buf max => Sys2Proof.Machine.execRbPopU line buf max s
  | .evIrq line => Sys2Proof.Machine.execEvIrq line s
  | .evRx line err data => Sys2Proof.Machine.execEvRx line err data s
  | .evTxDone line => Sys2Proof.Machine.execEvTxDone line s

end Sys2Proof.Machine
end

