-- ==== Sys2Proof/Machine/Fetch.lean ====
section
/-! DEFINITION. Taking the next step's bytes from the trace and decoding them (R21, R90, R98 to R102). -/

namespace Sys2Proof.Machine

open Sys2Proof

/-- What the next trace entry asks for: a step to run from a state, or an outcome already known. -/
inductive Fetched where
  | run (i : Instr) (s : State)
  | known (o : Outcome)

/-- The outcome of an arrival's bytes, from the state with that arrival taken off the trace: a step to run; the fault of
R101 for an illegal word; a refusal for bytes that are no whole step (log 7). -/
def fetchArrival (a : Arrival) (s : State) : Fetched :=
  match decode a.port a.bytes with
  | .ok i [] => .run i s
  | .ok _ (_ :: _) => .known (.refused .trailingBytes)
  | .illegal _ w => .known (.next (s.raiseFault .illegalCommand (lineField w) (lenField w)))
  | .truncatedWord => .known (.refused .truncatedWord)
  | .missingData => .known (.refused .missingData)

/-- The next step: none from a faulted block (R22), none when no agent gives a word (log 6), else the first pending
arrival's, which leaves the trace. -/
def fetch (s : State) : Fetched :=
  match s.fault with
  | some r => .known (.fault (.halted r))
  | none =>
    match s.pending with
    | [] => .known (.refused .noActionPending)
    | a :: rest => fetchArrival a { s with pending := rest }

/-- The state with an arrival in the place of the next one. -/
def State.withNext (s : State) (a : Arrival) : State := { s with pending := a :: s.pending.tail }

/-- A table word as an arrival: its bytes, on the port of its OP. -/
def tableArrival (nbits w : Nat) : Arrival where
  port := tablePort (tableWord nbits w)
  bytes := tableBytes nbits w

end Sys2Proof.Machine
end

