-- ==== Sys2Proof/Machine/Step.lean ====
section
/-! DEFINITION. One step of the block: the next pending action word, decoded and run. -/

namespace Sys2Proof.Machine

open Sys2Proof

/-- One step. -/
def step (s : State) : Host.Outcome State Fault Refusal :=
  match fetch s with
  | .run i s' => exec i s'
  | .known o => o

/-- The state with a table word in the place of the next trace entry. -/
def State.withFetchWord (s : State) (nbits w : Nat) : State := s.withNext (tableArrival nbits w)

end Sys2Proof.Machine
end

