-- ==== Sys2Proof/Safety.lean ====
section
/-! DEFINITION. The terms claims are stated in: the invariants of 10_state (R25, R33, R38, R39), runs of steps, the bytes a
run accepts and returns (20_memory R66 to R68), and the fairness assumption of R224. -/

namespace Sys2Proof.Machine

open Sys2Proof
open Sys2Proof.Config (Build)

/-! ### Invariants -/

/-- The ring buffer invariant for capacity N (R25), with the storage in canonical form, inside its N slots (R60), and every
slot of the contents written (R141). -/
structure RingBuffer.Ok (N : Nat) (rb : RingBuffer) : Prop where
  capacity : 1 ≤ N
  count_le : rb.count ≤ N
  head_lt : rb.head < N
  tail_lt : rb.tail < N
  head_eq : rb.head = (rb.tail + rb.count) % N
  store_wf : rb.store.wf = true
  store_lt : ∀ x ∈ rb.store, x.1 < N
  written : (rb.contents N).isSome = true

/-- A configured channel between steps: both ring buffers (R25), one of the three transmit states (R38), the UART's receive
depth (R39), the receive interrupt enabled for good (R31, R232) and the line enabled (R33). -/
structure Live.Ok (b : Build) (l : Live) : Prop where
  rx : l.regs.rx.Ok l.chan.caps.rx
  tx : l.regs.tx.Ok l.chan.caps.tx
  txState : l.txState.isSome = true
  rxHw_le : l.regs.rxHw.length ≤ b.uartRxDepth
  rxIe : l.chan.rxIe = true
  lineEn : l.chan.lineEn = true

/-- A line that is not configured is as at power-up (R290). -/
structure Channel.Untouched (c : Channel) : Prop where
  rxIe : c.rxIe = false
  txArmed : c.txArmed = false
  lineEn : c.lineEn = false
  lineOut : c.lineOut = []

/-- A channel between steps. -/
structure Channel.Ok (b : Build) (c : Channel) : Prop where
  caps : c.caps.Admitted
  untouched : c.regs = none → c.Untouched
  live : ∀ r, c.regs = some r → Live.Ok b { chan := c, regs := r }

/-- The invariant of the block: an admitted build (R10, R11, R13) and every channel as it must be between steps. -/
structure State.Inv (s : State) : Prop where
  lines : 1 ≤ s.numLines ∧ s.numLines ≤ 16
  depth : 1 ≤ s.build.uartRxDepth
  channels : ∀ c ∈ s.ch, Channel.Ok s.build c

/-! ### Reading a line -/

/-- The receive buffer's contents on a line (R26). -/
def State.rxContents (s : State) (line : Line) : Option (List Byte) :=
  (s.live line).bind fun l => l.regs.rx.contents l.chan.caps.rx

/-- The transmit buffer's contents on a line (R26). -/
def State.txContents (s : State) (line : Line) : Option (List Byte) :=
  (s.live line).bind fun l => l.regs.tx.contents l.chan.caps.tx

/-- A pop of at most `max` bytes returns the count `v` and the bytes `data`: those of the first v slots from the tail on, so
the oldest of the contents, in order (R26, R140). -/
def RingBuffer.Returns (N : Nat) (rb : RingBuffer) (max v : Nat) (data : List Byte) : Prop :=
  v = min max rb.count ∧ data.length = v ∧ ∀ i < v, rb.store.read ((rb.tail + i) % N) = data[i]?

/-- `line_out` on a line (R40); empty on a line the build does not have. -/
def State.lineOut (s : State) (line : Line) : List Byte :=
  match s.ch[line.toNat]? with
  | none => []
  | some c => c.lineOut

/-- The data bytes the UART of a line holds, oldest first (R40). -/
def State.rxHwData (s : State) (line : Line) : List Byte :=
  match s.live line with
  | none => []
  | some l => l.regs.rxHw.map RxEntry.data

/-! ### Words -/

/-- The reserved bits of an opcode's format: the bits of its mask below OP (R90, R103). -/
def reservedMask (o : Op) : Word := o.mask &&& 0x0FFFFFFF

/-- The three conditions of R101 that make a word illegal on a port. -/
def IllegalWord (port : Port) (w : Word) : Prop :=
  (opField w = 0x0 ∨ opField w = 0x5 ∨ opField w = 0xF) ∨
    (∃ o : Op, o.code = opField w ∧ o.port ≠ port) ∨
    (∃ o : Op, o.code = opField w ∧ w &&& reservedMask o ≠ 0)

/-! ### The transmit state machine -/

/-- The transitions of the table of R230: the transmit state of a configured line after a step, from its state, the bytes it
has queued and the bytes the step queues. A row the table does not have leaves the state. -/
def txNext (autoDrain : Bool) (line : Line) (queued accepted : Nat) (st : TxState) (i : Instr) : TxState :=
  match st, i with
  | .idle, .drain ln => if ln = line ∧ 0 < queued then .armedBusy else .idle
  | .idle, .write ln _ => if ln = line ∧ autoDrain = true ∧ 0 < queued + accepted then .armedBusy else .idle
  | .idle, _ => .idle
  | .armedBusy, .evTxDone ln => if ln = line then .armedReady else .armedBusy
  | .armedBusy, _ => .armedBusy
  | .armedReady, .evIrq ln => if ln = line then (if 0 < queued then .armedBusy else .idle) else .armedReady
  | .armedReady, _ => .armedReady

/-! ### What no step reads -/

/-- The state with other values of the two parameters no rule of the block reads (R14, R15). -/
def State.withUnread (s : State) (k : Config.Clocking) (mask : Nat) : State :=
  { s with build := { s.build with clocking := k, rxErrMask := mask } }

/-- A channel with other pins recorded, where it is configured (R30). -/
def Channel.withPins (c : Channel) (a b : Byte) : Channel :=
  { c with regs := c.regs.map fun r => { r with txPin := a, rxPin := b } }

/-- The state with other pins recorded on a line, where it is configured (R30). -/
def State.withPins (s : State) (line : Line) (a b : Byte) : State :=
  { s with ch := s.ch.modify line.toNat fun c => c.withPins a b }

/-- The outcome with its next state, where it has one, changed by `f`. -/
def mapNext (f : State → State) : Outcome → Outcome
  | .next s => .next (f s)
  | .fault e => .fault e
  | .refused e => .refused e

/-! ### Runs -/

/-- Run a list of steps in order, stopping at the first fault of the machine or refusal (R65). A step that raises a fault of
R251 answers the faulted state; the next step of the list then halts. -/
def execAll : List Instr → State → Outcome
  | [], s => .next s
  | i :: is, s =>
    match exec i s with
    | .next s' => execAll is s'
    | .fault f => .fault f
    | .refused r => .refused r

/-- The outcome's next state, where it has one. -/
def next? : Outcome → Option State
  | .next s => some s
  | _ => none

/-- The bytes a step adds to a line's transmit buffer: the first of its data bytes that fit, for a WRITE or an RB_PUSH_P on
the transmit buffer of that line (R134, R180). -/
def txAccepted (line : Line) (i : Instr) (s : State) : List Byte :=
  match s.live line with
  | none => []
  | some l =>
    let free := l.regs.tx.free l.chan.caps.tx
    match i with
    | .write ln data => if ln = line then data.take free else []
    | .rbPushP ln .tx data => if ln = line then data.take free else []
    | _ => []

/-- The bytes a list of steps adds to a line's transmit buffer, in step order. -/
def txAcceptedAll (line : Line) : List Instr → State → List Byte
  | [], _ => []
  | i :: is, s =>
    txAccepted line i s ++
      (match exec i s with
        | .next s' => txAcceptedAll line is s'
        | _ => [])

/-- The bytes a step takes out of a line's receive buffer for the host: those a READ_AVAILABLE or an RB_POP_P on the receive
buffer of that line returns (R140, R176). -/
def rxReturned (line : Line) (i : Instr) (s : State) : List Byte :=
  match s.rxContents line with
  | none => []
  | some cs =>
    match i with
    | .readAvailable ln max => if ln = line then cs.take max.toNat else []
    | .rbPopP ln .rx max => if ln = line then cs.take max.toNat else []
    | _ => []

/-- The bytes a list of steps takes out of a line's receive buffer for the host, in step order. -/
def rxReturnedAll (line : Line) : List Instr → State → List Byte
  | [], _ => []
  | i :: is, s =>
    rxReturned line i s ++
      (match exec i s with
        | .next s' => rxReturnedAll line is s'
        | _ => [])

/-- The data bytes of a line's EV_RX events in a list of steps, in order. -/
def evRxData (line : Line) : List Instr → List Byte
  | [] => []
  | .evRx ln _ d :: is => if ln = line then d :: evRxData line is else evRxData line is
  | _ :: is => evRxData line is

/-- The step is a leaf pop of that line's transmit buffer: a test access that takes bytes without sending them (R143). -/
def isTxLeafPop (line : Line) : Instr → Bool
  | .rbPopU ln _ _ => ln == line
  | _ => false

/-- The step is a leaf push of that line's receive buffer: a test access that adds bytes the UART never gave (R137). -/
def isRxLeafPush (line : Line) : Instr → Bool
  | .rbPushU ln _ _ => ln == line
  | _ => false

/-! ### Pushes and pops on one buffer -/

/-- One operation on a ring buffer. -/
inductive RingOp where
  | push (data : List Byte)
  | pop (max : Nat)
deriving DecidableEq, Repr

/-- What a sequence of ring operations did: the bytes accepted, the bytes popped, and the buffer after. -/
structure RingRun where
  accepted : List Byte
  popped   : List Byte
  rb       : RingBuffer
deriving DecidableEq, Repr

/-- Run operations on a buffer, collecting what its pushes accepted and what its pops returned (R153). -/
def ringRun (N : Nat) : List RingOp → RingRun → Res RingRun
  | [], x => .done x
  | .push data :: os, x =>
    let p := rbPush N x.rb data
    ringRun N os { x with accepted := x.accepted ++ data.take p.1, rb := p.2 }
  | .pop max :: os, x =>
    (rbPop N x.rb max).bind fun p => ringRun N os { x with popped := x.popped ++ p.out, rb := p.rb }

/-! ### Endless runs and fairness (R224) -/

/-- An endless run: every step of it answers the next state. -/
structure Run where
  steps  : Nat → Instr
  states : Nat → State
  next   : ∀ n, exec (steps n) (states n) = .next (states (n + 1))

/-- Fairness of a line (R224 (a) and (b)): a handler step occurs while its request stays, and the transmitter finishes while
it stays busy. -/
structure Run.Fair (r : Run) (line : Line) : Prop where
  irq : ∀ n, (∀ m, n ≤ m → (r.states m).irqReq line = true) → ∃ m, n ≤ m ∧ r.steps m = .evIrq line
  txDone : ∀ n, (∀ m, n ≤ m → (((r.states m).live line).any fun l => l.regs.txBusy) = true) →
    ∃ m, n ≤ m ∧ r.steps m = .evTxDone line

end Sys2Proof.Machine
end

