-- ==== Sys2Proof/Certificates/Slice0/Obligations.lean ====
section
/-! DEFINITION. The statements for the provers, from the numbered rules of spec/: encodings, the step, reset, ring buffer laws,
each instruction's result and frame, faults, the transmit state machine, isolation of lines, the invariant, runs and
fairness. -/

open Sys2Proof Sys2Proof.Machine

/-! ### Encoding -/

/-- The five words of R107, as the bytes of a trace (R70), and what each decodes to on its port. -/
def Obligations.SpecExampleWords : Prop :=
  (encode (.configure 0 4 5) = [0x05, 0x04, 0x00, 0x10] ∧
    decode .command [0x05, 0x04, 0x00, 0x10] = .ok (.configure 0 4 5) []) ∧
  (encode (.write 0 [0x90, 0x40, 0x7F]) = [0x03, 0x00, 0x00, 0x30, 0x90, 0x40, 0x7F] ∧
    decode .command [0x03, 0x00, 0x00, 0x30, 0x90, 0x40, 0x7F] = .ok (.write 0 [0x90, 0x40, 0x7F]) []) ∧
  (encode (.drain 0) = [0x00, 0x00, 0x00, 0x40] ∧
    decode .command [0x00, 0x00, 0x00, 0x40] = .ok (.drain 0) []) ∧
  (encode (.evRx 1 true 0x22) = [0x22, 0x01, 0x00, 0xD1] ∧
    decode .event [0x22, 0x01, 0x00, 0xD1] = .ok (.evRx 1 true 0x22) []) ∧
  (encode (.rbPopU 0 .tx 1) = [0x01, 0x00, 0x01, 0xB0] ∧
    decode .leaf [0x01, 0x00, 0x01, 0xB0] = .ok (.rbPopU 0 .tx 1) [])

/-- Decoding the bytes of a well-formed step, on its port and whatever follows them, gives the step back (R90 to R98, R102). -/
def Obligations.DecodeOfEncode : Prop :=
  ∀ i : Instr, i.wellFormed = true → ∀ rest : List Byte, decode i.op.port (encode i ++ rest) = .ok i rest

/-- Bytes that decode to a step are that step's encoding, the step is well-formed and the port is its own: each encoding has
one meaning (R99, R102, R103). -/
def Obligations.EncodeOfDecode : Prop :=
  ∀ (port : Port) (bytes : List Byte) (i : Instr) (rest : List Byte), decode port bytes = .ok i rest →
    bytes = encode i ++ rest ∧ i.wellFormed = true ∧ i.op.port = port

/-- A word with its data bytes at hand decodes to an opcode's step exactly when its bits under the opcode's mask are the
opcode's match, and no word matches two opcodes (R103). -/
def Obligations.MatchMaskRecognisesOpcode : Prop :=
  (∀ (o : Op) (w : Word) (data : List Byte), (lenField w).toNat ≤ data.length →
    ((∃ i rest, decode o.port (bytesOfWord w ++ data) = .ok i rest ∧ i.op = o) ↔ w &&& o.mask = o.matchWord)) ∧
  (∀ (o o' : Op) (w : Word), w &&& o.mask = o.matchWord → w &&& o'.mask = o'.matchWord → o = o')

/-- The decoder calls a word illegal exactly under the conditions of R101, whatever bytes follow it. -/
def Obligations.IllegalWordsAreThoseOfR101 : Prop :=
  ∀ (port : Port) (w : Word) (data : List Byte),
    (∃ why, decode port (bytesOfWord w ++ data) = .illegal why w) ↔ IllegalWord port w

/-! ### The step -/

/-- An illegal word does not execute: the step raises ILLEGAL_COMMAND with the word's LINE and w[15:0]; of the rest of the
state only the trace has moved on (R101). -/
def Obligations.IllegalWordFaults : Prop :=
  ∀ (s : State) (a : Arrival) (rest : List Arrival) (w : Word) (data : List Byte), s.fault = none →
    s.pending = a :: rest → a.bytes = bytesOfWord w ++ data → IllegalWord a.port w →
    step s = .next { s with
      pending := rest
      fault := some { kind := .illegalCommand, line := lineField w, info := lenField w } }

/-- When the bytes of the next arrival are a whole step, that step runs, from the state with the arrival taken off the
trace; nothing else is done around it (R21, R65). -/
def Obligations.StepRunsTheDecodedInstruction : Prop :=
  ∀ (s : State) (a : Arrival) (rest : List Arrival) (i : Instr), s.fault = none → s.pending = a :: rest →
    decode a.port a.bytes = .ok i [] → step s = exec i { s with pending := rest }

/-- A table word placed by `withFetchWord` is the instruction the next step runs. The model's own interface (log 6, 13). -/
def Obligations.PlacedTableWordRunsNext : Prop :=
  ∀ (s : State) (nbits w : Nat) (i : Instr), s.fault = none → decodeTableWord nbits w = some i →
    step (s.withFetchWord nbits w) = exec i { s with pending := s.pending.tail }

/-- The model's choice (log 6, 7): with no arrival, or one whose bytes are no whole step, there is no step to take. -/
def Obligations.StepWithoutAWholeWordIsRefused : Prop :=
  ∀ s : State, s.fault = none →
    (s.pending = [] → step s = .refused .noActionPending) ∧
    (∀ (a : Arrival) (rest : List Arrival), s.pending = a :: rest →
      (a.bytes.length < 4 → step s = .refused .truncatedWord) ∧
      (decode a.port a.bytes = .missingData → step s = .refused .missingData) ∧
      (∀ (i : Instr) (b : Byte) (bs : List Byte), decode a.port a.bytes = .ok i (b :: bs) →
        step s = .refused .trailingBytes))

/-! ### Power-up -/

/-- The power-up state of any build: no fault, every channel's stored flags false, nothing on the wire, and no value in any
field that CONFIGURE is to write (R290). -/
def Obligations.PowerUpState : Prop :=
  ∀ p : Config.Params, (State.powerUp p).fault = none ∧ (State.powerUp p).numLines = p.numLines ∧
    ∀ c ∈ (State.powerUp p).ch, c.configured = false ∧ c.rxIe = false ∧ c.txArmed = false ∧ c.lineEn = false ∧
      c.lineOut = [] ∧ c.regs = none

/-- The invariant holds at power-up of every admitted build, and at `State.reset`, whose build is the model's choice
(log 2). -/
def Obligations.InvHoldsAtPowerUp : Prop :=
  (∀ p : Config.Params, p.Admitted → (State.powerUp p).Inv) ∧ State.reset.Inv

/-- Every step keeps the invariant: ring buffers, storage form, transmit state, receive depth, line enable, build (R25, R33,
R38, R39). -/
def Obligations.EveryStepKeepsInv : Prop :=
  ∀ s t : State, s.Inv → step s = .next t → t.Inv

/-! ### Faults -/

/-- A fault leaves the state before the step with the record, no response; and from a faulted block no step is enabled, so
nothing clears it (R22, R250). -/
def Obligations.FaultDiscardsStepAndSticks : Prop :=
  (∀ (i : Instr) (s t : State) (r : FaultRecord), exec i s = .next t → t.fault = some r →
    t = { s with fault := some r } ∧ r.line = i.line) ∧
  (∀ (s : State) (r : FaultRecord), s.fault = some r →
    (∀ i, exec i s = .fault (.halted r)) ∧ step s = .fault (.halted r))

/-- The codes of R251, and for every instruction that takes a fault the row of R251 it is: who raises it, on what condition,
with what line and info. For TX_OVERRUN the info is the byte the step tried to write: the oldest of the transmit buffer, for
a WRITE the oldest after its push. -/
def Obligations.FaultsAreThoseOfTheTable : Prop :=
  (FaultKind.configError.code = 1 ∧ FaultKind.reconfigure.code = 2 ∧ FaultKind.notConfigured.code = 3 ∧
    FaultKind.illegalCommand.code = 4 ∧ FaultKind.roleViolation.code = 5 ∧ FaultKind.txOverrun.code = 6) ∧
  ∀ (i : Instr) (s t : State) (r : FaultRecord), exec i s = .next t → t.fault = some r → r.line = i.line ∧ (
    (r.kind = .configError ∧ i.op = .configure ∧ s.numLines ≤ i.line.toNat ∧ r.info = 0) ∨
    (r.kind = .reconfigure ∧ i.op = .configure ∧ (s.live i.line).isSome = true ∧ r.info = 0) ∨
    (r.kind = .notConfigured ∧ i.op ≠ .configure ∧ i.op.port ≠ .event ∧ s.live i.line = none ∧
      r.info = i.op.code.setWidth 16) ∨
    (r.kind = .roleViolation ∧ (s.live i.line).isSome = true ∧
      ((∃ data, i = .rbPushP i.line .rx data ∧ r.info = 0x0080) ∨
        (∃ max, i = .rbPopP i.line .tx max ∧ r.info = 0x0091) ∨
        (∃ data, i = .rbPushU i.line .tx data ∧ r.info = 0x00A1) ∨
        (∃ max, i = .rbPopU i.line .rx max ∧ r.info = 0x00B0))) ∨
    (r.kind = .txOverrun ∧ ∃ l tx v, s.live i.line = some l ∧ l.regs.txBusy = true ∧ 0 < tx.count ∧
      tx.store.read (tx.tail % l.chan.caps.tx) = some v ∧ r.info = v.setWidth 16 ∧
      ((i = .drain i.line ∧ l.chan.txArmed = false ∧ tx = l.regs.tx) ∨
        (∃ data, i = .write i.line data ∧ s.build.autoDrain = true ∧ l.chan.txArmed = false ∧
          tx = (rbPush l.chan.caps.tx l.regs.tx data).2) ∨
        (i = .evIrq i.line ∧ l.irqReq = true ∧ l.txCond = true ∧ tx = l.regs.tx))))

/-- A command or leaf micro-operation on a line that is out of range or not configured faults with its OP as info,
whatever its other operands (R130, R170, R253). -/
def Obligations.UnconfiguredLineFaults : Prop :=
  ∀ (i : Instr) (s : State), i.op ≠ .configure → i.op.port ≠ .event → s.fault = none → s.live i.line = none →
    exec i s = .next { s with fault := some ⟨.notConfigured, i.line, i.op.code.setWidth 16⟩ }

/-- An event on a line that is out of range or not configured has no effect (R210, R220, R222). -/
def Obligations.EventOnUnconfiguredLineHasNoEffect : Prop :=
  ∀ (i : Instr) (s : State), i.op.port = .event → s.fault = none → s.live i.line = none → exec i s = .next s

/-- A micro-operation that would give a buffer a second producer or a second consumer faults and changes nothing
(R131, R251). -/
def Obligations.WrongRoleFaults : Prop :=
  ∀ (s : State) (line : Line) (l : Live), s.fault = none → s.live line = some l →
    (∀ data, exec (.rbPushP line .rx data) s = .next { s with fault := some ⟨.roleViolation, line, 0x0080⟩ }) ∧
    (∀ max, exec (.rbPopP line .tx max) s = .next { s with fault := some ⟨.roleViolation, line, 0x0091⟩ }) ∧
    (∀ data, exec (.rbPushU line .tx data) s = .next { s with fault := some ⟨.roleViolation, line, 0x00A1⟩ }) ∧
    (∀ max, exec (.rbPopU line .rx max) s = .next { s with fault := some ⟨.roleViolation, line, 0x00B0⟩ })

/-- Writing the UART while it is busy raises TX_OVERRUN with the byte: in DRAIN and in the handler the oldest queued byte, in
WRITE with AUTO_DRAIN the oldest of the buffer after the push, which is the first data byte where the buffer was empty. The
step's other writes, a received byte among them, are discarded (R43, R250, R251). -/
def Obligations.BusyTransmitterOverruns : Prop :=
  ∀ (s : State) (line : Line) (l : Live) (cs vs : List Byte) (v : Byte), s.fault = none → s.live line = some l →
    l.regs.txBusy = true → l.regs.tx.contents l.chan.caps.tx = some cs →
    (l.chan.txArmed = false → cs = v :: vs →
      exec (.drain line) s = .next { s with fault := some ⟨.txOverrun, line, v.setWidth 16⟩ }) ∧
    (l.chan.txArmed = false → s.build.autoDrain = true → l.regs.tx.Ok l.chan.caps.tx →
      ∀ data, cs ++ data.take (l.chan.caps.tx - cs.length) = v :: vs →
        exec (.write line data) s = .next { s with fault := some ⟨.txOverrun, line, v.setWidth 16⟩ }) ∧
    (l.irqReq = true → l.txCond = true → cs = v :: vs →
      exec (.evIrq line) s = .next { s with fault := some ⟨.txOverrun, line, v.setWidth 16⟩ })

/-- Under the invariant every instruction of a running block answers a next state, and the only faults it can take are the
two of CONFIGURE, NOT_CONFIGURED and ROLE_VIOLATION: TX_OVERRUN and an unwritten slot are unreachable (R43, R141, R157). -/
def Obligations.NoStepStopsUnderInv : Prop :=
  ∀ (i : Instr) (s : State), s.Inv → s.fault = none → ∃ t, exec i s = .next t ∧
    ∀ r, t.fault = some r →
      r.kind = .configError ∨ r.kind = .reconfigure ∨ r.kind = .notConfigured ∨ r.kind = .roleViolation

/-- The handler's paths are total: on any line of a block that meets the invariant EV_IRQ completes without a fault
(R302). -/
def Obligations.HandlerNeverFails : Prop :=
  ∀ (s : State) (line : Line), s.Inv → s.fault = none → ∃ t, exec (.evIrq line) s = .next t ∧ t.fault = none

/-! ### Ring buffers -/

/-- `rb_push`: the first bytes that fit go to the slots from head on and are appended to the contents; head and count move,
tail stays, the invariant is kept (R134, R25). -/
def Obligations.PushAppendsWhatFits : Prop :=
  ∀ (N : Nat) (rb : RingBuffer) (cs data : List Byte), rb.Ok N → rb.contents N = some cs →
    (rbPush N rb data).1 = min data.length (N - rb.count) ∧
    (rbPush N rb data).2.contents N = some (cs ++ data.take (min data.length (N - rb.count))) ∧
    (rbPush N rb data).2.head = (rb.head + min data.length (N - rb.count)) % N ∧
    (rbPush N rb data).2.count = rb.count + min data.length (N - rb.count) ∧
    (rbPush N rb data).2.tail = rb.tail ∧
    (∀ i < min data.length (N - rb.count), (rbPush N rb data).2.store.read ((rb.head + i) % N) = data[i]?) ∧
    (rbPush N rb data).2.Ok N

/-- The slots a push writes are the k slots from head on, none of them inside the old contents; each then holds its byte and
every other slot is as before (R138). -/
def Obligations.PushNeverOverwritesUnread : Prop :=
  ∀ (N : Nat) (rb : RingBuffer) (data : List Byte), rb.Ok N →
    (∀ i < (rbPush N rb data).1, ∀ j < rb.count, (rb.head + i) % N ≠ (rb.tail + j) % N) ∧
    (∀ i < (rbPush N rb data).1, (rbPush N rb data).2.store.read ((rb.head + i) % N) = data[i]?) ∧
    (∀ a : Nat, (∀ i < (rbPush N rb data).1, a ≠ (rb.head + i) % N) →
      (rbPush N rb data).2.store.read a = rb.store.read a)

/-- `rb_pop`: the oldest bytes come out in order, tail and count move, head and every slot stay, the invariant is kept
(R140). -/
def Obligations.PopTakesTheOldest : Prop :=
  ∀ (N : Nat) (rb : RingBuffer) (cs : List Byte) (max : Nat), rb.contents N = some cs →
    ∃ rb', rbPop N rb max = .done ⟨min max rb.count, cs.take max, rb'⟩ ∧
      rb' = { rb with tail := (rb.tail + min max rb.count) % N, count := rb.count - min max rb.count } ∧
      rb'.contents N = some (cs.drop max) ∧ (rb.Ok N → rb'.Ok N)

/-- The model's choice (log 4): a pop that would read a slot nothing has written stops. -/
def Obligations.PopOfUnwrittenSlotStops : Prop :=
  ∀ (N : Nat) (rb : RingBuffer) (max : Nat),
    (∃ i < min max rb.count, rb.store.read ((rb.tail + i) % N) = none) ↔ rbPop N rb max = .stuck .slotUnwritten

/-- No loss under capacity: at most N bytes pushed to an empty buffer come back whole and in order, to a pop of N bytes and to
a pop of just their number (R154). -/
def Obligations.PushThenPopRoundTrip : Prop :=
  ∀ (N : Nat) (rb : RingBuffer) (b : List Byte) (max : Nat), rb.Ok N → rb.count = 0 → b.length ≤ N →
    (max = N ∨ max = b.length) →
    ∃ rb', rbPop N (rbPush N rb b).2 max = .done ⟨b.length, b, rb'⟩ ∧ rb'.count = 0 ∧ (rbPush N rb b).1 = b.length

/-- N + k bytes pushed to an empty buffer: N are accepted, the buffer is full, the others are not stored. A pop of an empty
buffer returns 0 and leaves the state unchanged (R155). -/
def Obligations.OverflowTruncatesAndEmptyPopsAreIdle : Prop :=
  (∀ (N : Nat) (rb : RingBuffer) (data : List Byte), rb.Ok N → rb.count = 0 → N < data.length →
    (rbPush N rb data).1 = N ∧ (rbPush N rb data).2.isFull N = true ∧
      (rbPush N rb data).2.contents N = some (data.take N)) ∧
  (∀ (N : Nat) (rb : RingBuffer) (max : Nat), rb.Ok N → rb.count = 0 → rbPop N rb max = .done ⟨0, [], rb⟩)

/-- FIFO order: over any sequence of pushes and pops on a buffer, which all complete, the bytes popped followed by the bytes
still held are the bytes held at first followed by the bytes accepted (R66, R153). -/
def Obligations.RingBufferIsFifo : Prop :=
  ∀ (N : Nat) (rb : RingBuffer) (cs : List Byte) (ops : List RingOp), rb.Ok N → rb.contents N = some cs →
    ∃ x cs', ringRun N ops ⟨[], [], rb⟩ = .done x ∧ x.rb.Ok N ∧ x.rb.contents N = some cs' ∧
      x.popped ++ cs' = cs ++ x.accepted

/-! ### Commands -/

/-- CONFIGURE: the line's record as R172 leaves it and the handle; CONFIG_ERROR where the build has no such line (R173);
RECONFIGURE where the line is configured (R174). Nothing else changes. -/
def Obligations.ConfigureSetsUpALineOnce : Prop :=
  ∀ (s : State) (line : Line) (txPin rxPin : Byte), s.fault = none →
    (∀ c, s.ch[line.toNat]? = some c → c.regs = none →
      exec (.configure line txPin rxPin) s =
        .next ((s.setChannel line
          { caps := c.caps, rxIe := true, txArmed := false, lineEn := true, lineOut := c.lineOut
            regs := some
              { txPin := txPin, rxPin := rxPin, rx := ⟨[], 0, 0, 0⟩, tx := ⟨[], 0, 0, 0⟩, rxHw := []
                txBusy := false, txDonePend := false } }).respond
          (some (mkResponse .configure line line.toNat [])))) ∧
    (s.numLines ≤ line.toNat →
      exec (.configure line txPin rxPin) s = .next { s with fault := some ⟨.configError, line, 0⟩ }) ∧
    (∀ l, s.live line = some l →
      exec (.configure line txPin rxPin) s = .next { s with fault := some ⟨.reconfigure, line, 0⟩ })

/-- READ_AVAILABLE returns the oldest received bytes, up to `max`, and takes them out of the receive buffer; its tail and
count move and nothing else of the block changes but the response. On a line that is out of range or not configured it
faults with NOT_CONFIGURED (R176, R177). -/
def Obligations.ReadAvailableReturnsTheOldest : Prop :=
  ∀ (s : State) (line : Line) (max : BitVec 16), s.fault = none →
    (∀ (l : Live) (cs : List Byte), s.live line = some l → l.regs.rx.contents l.chan.caps.rx = some cs →
      ∃ rx', exec (.readAvailable line max) s =
          .next ((s.setChannel line { l.chan with regs := some { l.regs with rx := rx' } }).respond
            (some (mkResponse .readAvailable line (min max.toNat cs.length) (cs.take max.toNat)))) ∧
        rx' = { l.regs.rx with
          tail := (l.regs.rx.tail + min max.toNat cs.length) % l.chan.caps.rx
          count := cs.length - min max.toNat cs.length } ∧
        rx'.contents l.chan.caps.rx = some (cs.drop max.toNat)) ∧
    (s.live line = none →
      exec (.readAvailable line max) s = .next { s with fault := some ⟨.notConfigured, line, 0x2⟩ })

/-- WRITE with AUTO_DRAIN = false queues the first bytes that fit and answers their count; it writes the slots from head on
and no others, moves head and count, and nothing else of the block changes but the response: the channel does not arm and
nothing is sent (R180). -/
def Obligations.WriteQueuesWhatFits : Prop :=
  ∀ (s : State) (line : Line) (l : Live) (cs data : List Byte), s.fault = none → s.build.autoDrain = false →
    s.live line = some l → l.regs.tx.Ok l.chan.caps.tx → l.regs.tx.contents l.chan.caps.tx = some cs →
    ∃ tx' k, k = min data.length (l.chan.caps.tx - cs.length) ∧
      exec (.write line data) s =
        .next ((s.setChannel line { l.chan with regs := some { l.regs with tx := tx' } }).respond
          (some (mkResponse .write line k []))) ∧
      tx'.contents l.chan.caps.tx = some (cs ++ data.take k) ∧ tx'.tail = l.regs.tx.tail ∧
      tx'.head = (l.regs.tx.head + k) % l.chan.caps.tx ∧ tx'.count = l.regs.tx.count + k ∧
      ∀ a : Nat, (∀ i < k, a ≠ (l.regs.tx.head + i) % l.chan.caps.tx) → tx'.store.read a = l.regs.tx.store.read a

/-- WRITE with AUTO_DRAIN = true completes, and leaves the channels as the WRITE of AUTO_DRAIN = false followed at once by
DRAIN leaves them, with the same response to the WRITE (R183, R106). -/
def Obligations.AutoDrainWriteIsWriteThenDrain : Prop :=
  ∀ (s : State) (line : Line) (l : Live) (data : List Byte), s.fault = none → s.build.autoDrain = true →
    s.live line = some l → l.Ok s.build →
    ∃ t u v, exec (.write line data) s = .next t ∧ t.fault = none ∧
      exec (.write line data) { s with build := { s.build with autoDrain := false } } = .next u ∧
      execAll (pseudoSend line data) { s with build := { s.build with autoDrain := false } } = .next v ∧
      v.ch = t.ch ∧ v.fault = none ∧ t.responses = u.responses ∧ t.pending = s.pending ∧ t.build = s.build

/-- DRAIN of an IDLE line with bytes queued sends the oldest at once and arms: the byte goes to `line_out`, the transmitter
is busy, the transmit buffer's tail and count move; nothing else of the block changes but the response (R186). -/
def Obligations.DrainKicksOneByte : Prop :=
  ∀ (s : State) (line : Line) (l : Live) (v : Byte) (vs : List Byte), s.fault = none → s.live line = some l →
    l.chan.txArmed = false → l.regs.txBusy = false → l.regs.tx.contents l.chan.caps.tx = some (v :: vs) →
    ∃ tx', exec (.drain line) s =
        .next ((s.setChannel line
          { l.chan with
            txArmed := true
            lineOut := l.chan.lineOut ++ [v]
            regs := some { l.regs with tx := tx', txBusy := true } }).respond
          (some (mkResponse .drain line 0 []))) ∧
      tx' = { l.regs.tx with
        tail := (l.regs.tx.tail + 1) % l.chan.caps.tx
        count := vs.length } ∧
      tx'.contents l.chan.caps.tx = some vs

/-- DRAIN of a line that is armed, or whose transmit buffer is empty, changes nothing but the response (R186). -/
def Obligations.DrainOtherwiseDoesNothing : Prop :=
  ∀ (s : State) (line : Line) (l : Live), s.fault = none → s.live line = some l →
    (l.chan.txArmed = true ∨ l.regs.tx.count = 0) →
    exec (.drain line) s = .next (s.respond (some (mkResponse .drain line 0 [])))

/-! ### Leaf micro-operations -/

/-- RB_PUSH_P on the transmit buffer and RB_PUSH_U on the receive buffer append the first bytes that fit and answer their
count; they write the slots from head on and no others, move head and count, and nothing else of the block changes but the
response (R134, R136, R137, R133). -/
def Obligations.LeafPushAppendsWhatFits : Prop :=
  ∀ (s : State) (line : Line) (l : Live) (cs data : List Byte), s.fault = none → s.live line = some l →
    (l.regs.tx.Ok l.chan.caps.tx → l.regs.tx.contents l.chan.caps.tx = some cs →
      ∃ tx' k, k = min data.length (l.chan.caps.tx - cs.length) ∧
        exec (.rbPushP line .tx data) s =
          .next ((s.setChannel line { l.chan with regs := some { l.regs with tx := tx' } }).respond
            (some (mkResponse .rbPushP line k []))) ∧
        tx'.contents l.chan.caps.tx = some (cs ++ data.take k) ∧ tx'.tail = l.regs.tx.tail ∧
        tx'.head = (l.regs.tx.head + k) % l.chan.caps.tx ∧ tx'.count = l.regs.tx.count + k ∧
        ∀ a : Nat, (∀ i < k, a ≠ (l.regs.tx.head + i) % l.chan.caps.tx) →
          tx'.store.read a = l.regs.tx.store.read a) ∧
    (l.regs.rx.Ok l.chan.caps.rx → l.regs.rx.contents l.chan.caps.rx = some cs →
      ∃ rx' k, k = min data.length (l.chan.caps.rx - cs.length) ∧
        exec (.rbPushU line .rx data) s =
          .next ((s.setChannel line { l.chan with regs := some { l.regs with rx := rx' } }).respond
            (some (mkResponse .rbPushU line k []))) ∧
        rx'.contents l.chan.caps.rx = some (cs ++ data.take k) ∧ rx'.tail = l.regs.rx.tail ∧
        rx'.head = (l.regs.rx.head + k) % l.chan.caps.rx ∧ rx'.count = l.regs.rx.count + k ∧
        ∀ a : Nat, (∀ i < k, a ≠ (l.regs.rx.head + i) % l.chan.caps.rx) →
          rx'.store.read a = l.regs.rx.store.read a)

/-- RB_POP_P on the receive buffer and RB_POP_U on the transmit buffer return the oldest bytes, up to `max`, and take them
out; tail and count move, and nothing else of the block changes but the response: RB_POP_U sends nothing and leaves
`tx_armed` (R140, R142, R143, R133). -/
def Obligations.LeafPopTakesTheOldest : Prop :=
  ∀ (s : State) (line : Line) (l : Live) (cs : List Byte) (max : BitVec 16), s.fault = none →
    s.live line = some l →
    (l.regs.rx.contents l.chan.caps.rx = some cs →
      ∃ rx', exec (.rbPopP line .rx max) s =
          .next ((s.setChannel line { l.chan with regs := some { l.regs with rx := rx' } }).respond
            (some (mkResponse .rbPopP line (min max.toNat cs.length) (cs.take max.toNat)))) ∧
        rx' = { l.regs.rx with
          tail := (l.regs.rx.tail + min max.toNat cs.length) % l.chan.caps.rx
          count := cs.length - min max.toNat cs.length } ∧
        rx'.contents l.chan.caps.rx = some (cs.drop max.toNat)) ∧
    (l.regs.tx.contents l.chan.caps.tx = some cs →
      ∃ tx', exec (.rbPopU line .tx max) s =
          .next ((s.setChannel line { l.chan with regs := some { l.regs with tx := tx' } }).respond
            (some (mkResponse .rbPopU line (min max.toNat cs.length) (cs.take max.toNat)))) ∧
        tx' = { l.regs.tx with
          tail := (l.regs.tx.tail + min max.toNat cs.length) % l.chan.caps.tx
          count := cs.length - min max.toNat cs.length } ∧
        tx'.contents l.chan.caps.tx = some (cs.drop max.toNat))

/-- RB_IS_EMPTY answers 1 when the selected buffer's count is 0 and 0 otherwise; RB_IS_FULL answers 1 when it is the
capacity; neither changes anything but the response; both fault with NOT_CONFIGURED where there is no such line
(R150, R152). -/
def Obligations.QueriesAnswerAndChangeNothing : Prop :=
  ∀ (s : State) (line : Line) (b : Buf), s.fault = none →
    (∀ l, s.live line = some l →
      exec (.rbIsEmpty line b) s = .next (s.respond (some
        (mkResponse .rbIsEmpty line (if (l.regs.ring b).count = 0 then 1 else 0) []))) ∧
      exec (.rbIsFull line b) s = .next (s.respond (some
        (mkResponse .rbIsFull line (if (l.regs.ring b).count = l.chan.capacity b then 1 else 0) [])))) ∧
    (s.live line = none →
      exec (.rbIsEmpty line b) s = .next { s with fault := some ⟨.notConfigured, line, 0x6⟩ } ∧
      exec (.rbIsFull line b) s = .next { s with fault := some ⟨.notConfigured, line, 0x7⟩ })

/-- Every step of the command or leaf port that completes gives one response, its word with OP, LINE, zero and VALUE in their
fields and VALUE and the data as R100 lists them per step: the handle; the count of bytes returned and those bytes, the
oldest of the buffer; the count of bytes accepted; 0; the truth of the query. An event gives none, and a step that faults
gives none. -/
def Obligations.OneResponsePerCommand : Prop :=
  ∀ (i : Instr) (s t : State), exec i s = .next t →
    (t.fault ≠ none → t.responses = s.responses) ∧
    (t.fault = none → i.op.port = .event → t.responses = s.responses) ∧
    (t.fault = none → i.op.port ≠ .event →
      ∃ (r : Response) (v : Nat), t.responses = s.responses ++ [r] ∧ opField r.word = i.op.code ∧
        lineField r.word = i.line ∧ r.word.extractLsb' 16 8 = 0 ∧ lenField r.word = BitVec.ofNat 16 v ∧
        match i with
        | .configure line _ _ => v = line.toNat ∧ r.data = []
        | .readAvailable line max =>
          ∃ l, s.live line = some l ∧ l.regs.rx.Returns l.chan.caps.rx max.toNat v r.data
        | .write line data =>
          ∃ l, s.live line = some l ∧ v = min data.length (l.chan.caps.tx - l.regs.tx.count) ∧ r.data = []
        | .drain _ => v = 0 ∧ r.data = []
        | .rbIsEmpty line b =>
          ∃ l, s.live line = some l ∧ v = (if (l.regs.ring b).count = 0 then 1 else 0) ∧ r.data = []
        | .rbIsFull line b =>
          ∃ l, s.live line = some l ∧ v = (if (l.regs.ring b).count = l.chan.capacity b then 1 else 0) ∧ r.data = []
        | .rbPushP line b data =>
          ∃ l, s.live line = some l ∧ b = .tx ∧ v = min data.length (l.chan.caps.tx - l.regs.tx.count) ∧ r.data = []
        | .rbPopP line b max =>
          ∃ l, s.live line = some l ∧ b = .rx ∧ l.regs.rx.Returns l.chan.caps.rx max.toNat v r.data
        | .rbPushU line b data =>
          ∃ l, s.live line = some l ∧ b = .rx ∧ v = min data.length (l.chan.caps.rx - l.regs.rx.count) ∧ r.data = []
        | .rbPopU line b max =>
          ∃ l, s.live line = some l ∧ b = .tx ∧ l.regs.tx.Returns l.chan.caps.tx max.toNat v r.data
        | .evIrq _ => False
        | .evRx _ _ _ => False
        | .evTxDone _ => False)

/-! ### The handler and the UART events -/

/-- A requested handler with received bytes waiting reads the oldest from the UART; a malformed one is discarded, a good one
is appended to the receive buffer, whose head and count move, or dropped where that is full; without a transmit condition nothing else of the block
changes, and never a response or another line (R210, R212, R213, R215). -/
def Obligations.HandlerReceivesOneByte : Prop :=
  ∀ (s : State) (line : Line) (l : Live) (e : RxEntry) (es : List RxEntry) (cs : List Byte), s.fault = none →
    s.live line = some l → l.Ok s.build → l.irqReq = true → l.regs.rxHw = e :: es →
    l.regs.rx.contents l.chan.caps.rx = some cs →
    ∃ l' : Live, exec (.evIrq line) s = .next (s.setChannel line l'.toChannel) ∧ l'.regs.rxHw = es ∧
      l'.regs.rx.contents l.chan.caps.rx =
        some (if e.err = true then cs else if cs.length < l.chan.caps.rx then cs ++ [e.data] else cs) ∧
      l'.regs.rx.tail = l.regs.rx.tail ∧ ((e.err = true ∨ cs.length = l.chan.caps.rx) → l'.regs.rx = l.regs.rx) ∧
      (e.err = false → cs.length < l.chan.caps.rx →
        l'.regs.rx.head = (l.regs.rx.head + 1) % l.chan.caps.rx ∧ l'.regs.rx.count = l.regs.rx.count + 1 ∧
          l'.regs.rx.store.read l.regs.rx.head = some e.data) ∧
      (∀ a : Nat, a ≠ l.regs.rx.head → l'.regs.rx.store.read a = l.regs.rx.store.read a) ∧
      l'.regs.txPin = l.regs.txPin ∧ l'.regs.rxPin = l.regs.rxPin ∧ l'.chan.caps = l.chan.caps ∧
      l'.chan.rxIe = l.chan.rxIe ∧ l'.chan.lineEn = l.chan.lineEn ∧
      (l.txCond = false → l'.regs.tx = l.regs.tx ∧ l'.regs.txBusy = l.regs.txBusy ∧
        l'.regs.txDonePend = l.regs.txDonePend ∧ l'.chan.txArmed = l.chan.txArmed ∧
        l'.chan.lineOut = l.chan.lineOut)

/-- A requested handler with the transmit-ready event pending on an armed line services it: the oldest queued byte goes out,
or, with none queued, the line disarms; without received bytes waiting nothing else of the block changes, and never a
response or another line (R210, R211, R214, R215). -/
def Obligations.HandlerTransmitsOneByteOrDisarms : Prop :=
  ∀ (s : State) (line : Line) (l : Live) (cs : List Byte), s.fault = none → s.live line = some l → l.Ok s.build →
    l.irqReq = true → l.txCond = true → l.regs.tx.contents l.chan.caps.tx = some cs →
    ∃ l' : Live, exec (.evIrq line) s = .next (s.setChannel line l'.toChannel) ∧ l'.regs.txDonePend = false ∧
      l'.regs.tx.contents l.chan.caps.tx = some (cs.drop 1) ∧ l'.regs.tx.head = l.regs.tx.head ∧
      l'.regs.tx.store = l.regs.tx.store ∧
      l'.regs.tx.tail = (l.regs.tx.tail + min 1 cs.length) % l.chan.caps.tx ∧
      (∀ v vs, cs = v :: vs → l'.regs.txBusy = true ∧ l'.chan.txArmed = true ∧
        l'.chan.lineOut = l.chan.lineOut ++ [v]) ∧
      (cs = [] → l'.regs.txBusy = false ∧ l'.chan.txArmed = false ∧ l'.chan.lineOut = l.chan.lineOut) ∧
      l'.regs.txPin = l.regs.txPin ∧ l'.regs.rxPin = l.regs.rxPin ∧ l'.chan.caps = l.chan.caps ∧
      l'.chan.rxIe = l.chan.rxIe ∧ l'.chan.lineEn = l.chan.lineEn ∧
      (l.regs.rxHw = [] → l'.regs.rx = l.regs.rx ∧ l'.regs.rxHw = [])

/-- With two or more received bytes waiting, the handler takes exactly one, and the interrupt stays requested (R215). -/
def Obligations.BytesLeftKeepTheRequest : Prop :=
  ∀ (s : State) (line : Line) (l : Live) (e e' : RxEntry) (es : List RxEntry), s.Inv → s.fault = none →
    s.live line = some l → l.regs.rxHw = e :: e' :: es →
    ∃ t l', exec (.evIrq line) s = .next t ∧ t.live line = some l' ∧ l'.regs.rxHw = e' :: es ∧
      l'.regs.rx.count ≤ l.regs.rx.count + 1 ∧ t.irqReq line = true

/-- The interrupt request of a line: configured, its interrupt line enabled, and a receive-ready or transmit-ready condition
enabled and pending (R36). -/
def Obligations.InterruptRequestRule : Prop :=
  ∀ (s : State) (line : Line), s.irqReq line = true ↔
    ∃ l, s.live line = some l ∧ l.chan.lineEn = true ∧
      ((l.chan.rxIe = true ∧ l.regs.rxHw ≠ []) ∨ (l.chan.txArmed = true ∧ l.regs.txDonePend = true))

/-- A handler entry with nothing requested is a no-op (R210). -/
def Obligations.UnrequestedHandlerIsANoOp : Prop :=
  ∀ (s : State) (line : Line), s.fault = none → s.irqReq line = false → exec (.evIrq line) s = .next s

/-- EV_RX appends the byte and its ERR bit to what the UART holds, whatever the line enable; where the UART is full, or the
line is not configured or not there, it has no effect (R220). -/
def Obligations.ReceiveEventQueuesInTheUart : Prop :=
  ∀ (s : State) (line : Line) (err : Bool) (d : Byte), s.fault = none →
    (∀ l, s.live line = some l → l.regs.rxHw.length < s.build.uartRxDepth →
      exec (.evRx line err d) s =
        .next (s.setChannel line { l.chan with regs := some { l.regs with rxHw := l.regs.rxHw ++ [⟨d, err⟩] } })) ∧
    (∀ l, s.live line = some l → s.build.uartRxDepth ≤ l.regs.rxHw.length → exec (.evRx line err d) s = .next s) ∧
    (s.live line = none → exec (.evRx line err d) s = .next s)

/-- EV_TX_DONE ends the byte in flight and latches the transmit-ready event, whatever the line enable; with none in flight,
or a line that is not configured or not there, it has no effect (R222). -/
def Obligations.TransmitDoneLatchesTheEvent : Prop :=
  ∀ (s : State) (line : Line), s.fault = none →
    (∀ l, s.live line = some l → l.regs.txBusy = true →
      exec (.evTxDone line) s =
        .next (s.setChannel line { l.chan with regs := some { l.regs with txBusy := false, txDonePend := true } })) ∧
    (∀ l, s.live line = some l → l.regs.txBusy = false → exec (.evTxDone line) s = .next s) ∧
    (s.live line = none → exec (.evTxDone line) s = .next s)

/-- The transmit state machine: every instruction takes a configured line from its transmit state to the one the table of
R230 gives, and CONFIGURE takes a line to IDLE with nothing queued. -/
def Obligations.TransmitStateMachine : Prop :=
  (∀ (i : Instr) (s t : State) (line : Line) (l : Live) (st : TxState), s.Inv → exec i s = .next t →
    t.fault = none → s.live line = some l → l.txState = some st →
    t.txState line = some
      (txNext s.build.autoDrain line l.regs.tx.count (txAccepted line i s).length st i)) ∧
  (∀ (s t : State) (line : Line) (a b : Byte), exec (.configure line a b) s = .next t → t.fault = none →
    t.txState line = some .idle ∧ t.txContents line = some [])

/-! ### Whole-machine rules -/

/-- No step but CONFIGURE changes any line's interrupt enable, no step at all another line's; and on a line whose enable is
off the handler does nothing (R62, R63). -/
def Obligations.LineEnablesAreRestored : Prop :=
  (∀ (i : Instr) (s t : State) (k : Nat), exec i s = .next t → (i.op ≠ .configure ∨ k ≠ i.line.toNat) →
    (t.ch[k]?).map (fun c => c.lineEn) = (s.ch[k]?).map (fun c => c.lineEn)) ∧
  (∀ (s : State) (line : Line) (l : Live), s.fault = none → s.live line = some l → l.chan.lineEn = false →
    exec (.evIrq line) s = .next s)

/-- A step of one channel writes no field of another, and reads none: two blocks of one build that agree on its own channel
do the same there, take the same fault and give the same response (R23). -/
def Obligations.ChannelsAreIsolated : Prop :=
  (∀ (i : Instr) (s t : State), exec i s = .next t → t.numLines = s.numLines ∧ t.pending = s.pending ∧
    ∀ k : Nat, k ≠ i.line.toNat → t.ch[k]? = s.ch[k]?) ∧
  (∀ (i : Instr) (s t s' : State), s'.build = s.build → s'.fault = s.fault →
    s'.ch[i.line.toNat]? = s.ch[i.line.toNat]? → exec i s = .next t →
    ∃ t' rs, exec i s' = .next t' ∧ t'.ch[i.line.toNat]? = t.ch[i.line.toNat]? ∧ t'.fault = t.fault ∧
      t.responses = s.responses ++ rs ∧ t'.responses = s'.responses ++ rs)

/-- Two steps of different lines, run in either order, leave every channel the same: their relative order has no effect on
any channel's state (R64, R69). -/
def Obligations.StepsOfDifferentLinesCommute : Prop :=
  ∀ (i j : Instr) (s t u : State), i.line ≠ j.line → exec i s = .next t → t.fault = none → exec j t = .next u →
    u.fault = none →
    ∃ t' u', exec j s = .next t' ∧ t'.fault = none ∧ exec i t' = .next u' ∧ u'.fault = none ∧ u'.ch = u.ch ∧
      u'.build = u.build ∧ u'.responses.Perm u.responses

/-- No step changes a parameter of the build: the capacities are fixed, buffers are never resized (R10, R11, R294). -/
def Obligations.ParametersNeverChange : Prop :=
  ∀ (i : Instr) (s t : State), exec i s = .next t →
    t.build = s.build ∧ t.ch.map (fun c => c.caps) = s.ch.map (fun c => c.caps)

/-- No step reads CLOCKING, RX_ERR_MASK or the pins a line has recorded: with other values of them every instruction has the
same outcome, carrying those values (R14, R15, R30). CONFIGURE, which writes the pins, is left out of the pins' clause. -/
def Obligations.UnreadParametersDoNotMatter : Prop :=
  (∀ (i : Instr) (s : State) (k : Config.Clocking) (mask : Nat),
    exec i (s.withUnread k mask) = mapNext (fun t => t.withUnread k mask) (exec i s)) ∧
  (∀ (i : Instr) (s : State) (line : Line) (a b : Byte), i.op ≠ .configure →
    exec i (s.withPins line a b) = mapNext (fun t => t.withPins line a b) (exec i s))

/-- With AUTO_DRAIN = false a disarmed line is armed by DRAIN alone (R12, R32, R230). -/
def Obligations.OnlyDrainArms : Prop :=
  ∀ (i : Instr) (s t : State) (k : Nat) (c c' : Channel), s.build.autoDrain = false → exec i s = .next t →
    s.ch[k]? = some c → t.ch[k]? = some c' → c.txArmed = false → c'.txArmed = true →
    ∃ line : Line, i = .drain line ∧ line.toNat = k

/-- A step adds at most one byte to what a line has sent and takes none away; it adds one only as a DRAIN, a WRITE with
AUTO_DRAIN or a handler step of that line (R72, R18, R43). -/
def Obligations.AtMostOneByteSentPerStep : Prop :=
  ∀ (i : Instr) (s t : State) (line : Line), exec i s = .next t →
    t.lineOut line = s.lineOut line ∨
      (∃ b, t.lineOut line = s.lineOut line ++ [b]) ∧ i.line = line ∧
        (i.op = .drain ∨ i.op = .evIrq ∨ i.op = .write ∧ s.build.autoDrain = true)

/-- A channel, once configured, stays configured, and its receive interrupt stays enabled once it is (R291, R31, R232). -/
def Obligations.ConfiguredForTheRestOfTheRun : Prop :=
  ∀ (i : Instr) (s t : State) (k : Nat) (c : Channel), exec i s = .next t → s.ch[k]? = some c → c.configured = true →
    ∃ c', t.ch[k]? = some c' ∧ c'.configured = true ∧ c'.rxIe = c.rxIe

/-! ### Runs -/

/-- Transmit order: over any run of steps without a leaf pop of the line's transmit buffer, what the line has sent followed by
what it still holds is what it had sent, what it held and what it accepted, in that order; so `line_out` grows by a prefix of
the accepted bytes (R66, R67). -/
def Obligations.TransmitOrderIsExact : Prop :=
  ∀ (is : List Instr) (s t : State) (line : Line) (cs : List Byte), s.Inv → s.txContents line = some cs →
    (∀ i ∈ is, isTxLeafPop line i = false) → execAll is s = .next t → t.fault = none →
    ∃ cs', t.txContents line = some cs' ∧
      t.lineOut line ++ cs' = s.lineOut line ++ cs ++ txAcceptedAll line is s

/-- Receive order: over any run of steps without a leaf push of the line's receive buffer, the bytes returned to the host, the
bytes still in the receive buffer and the bytes still in the UART are, in that order, a subsequence of those held at first
and the data of the line's EV_RX events: bytes are dropped, never duplicated, changed or reordered (R66, R68). -/
def Obligations.ReceiveOrderIsExact : Prop :=
  ∀ (is : List Instr) (s t : State) (line : Line) (cs : List Byte), s.Inv → s.rxContents line = some cs →
    (∀ i ∈ is, isRxLeafPush line i = false) → execAll is s = .next t → t.fault = none →
    ∃ cs', t.rxContents line = some cs' ∧
      (rxReturnedAll line is s ++ cs' ++ t.rxHwData line).Sublist (cs ++ s.rxHwData line ++ evRxData line is)

/-- The source's drain example for any line and any queued bytes: from IDLE, DRAIN and then one transmitter completion and
handler entry per byte send every queued byte in order and end in IDLE with nothing queued (R186, R214, R222, W1). -/
def Obligations.DrainThenInterruptsSendEverything : Prop :=
  ∀ (s : State) (line : Line) (cs : List Byte), s.Inv → s.fault = none → s.txState line = some .idle →
    s.txContents line = some cs → cs ≠ [] →
    ∃ t, execAll (.drain line :: (List.replicate cs.length [Instr.evTxDone line, .evIrq line]).flatten) s = .next t ∧
      t.fault = none ∧ t.txState line = some .idle ∧ t.txContents line = some [] ∧
      t.lineOut line = s.lineOut line ++ cs

/-- Without DRAIN an IDLE line sends nothing: with AUTO_DRAIN = false, whatever steps run, the line stays IDLE and nothing
more goes out until a DRAIN of it (R187, R188, R296). -/
def Obligations.IdleLineWithoutDrainSendsNothing : Prop :=
  ∀ (is : List Instr) (s t : State) (line : Line), s.Inv → s.build.autoDrain = false →
    s.txState line = some .idle → (∀ i ∈ is, i ≠ .drain line) → execAll is s = .next t →
    t.txState line = some .idle ∧ t.lineOut line = s.lineOut line

/-- Under the fairness of R224, an armed line of an endless run without leaf pops of its transmit buffer sends everything it
has queued: from a point on, `line_out` begins with what was sent and what was queued then. -/
def Obligations.FairArmedLineSendsItsQueue : Prop :=
  ∀ (r : Run) (line : Line) (n : Nat) (l : Live) (cs : List Byte), r.Fair line → (r.states n).Inv →
    (∀ m, isTxLeafPop line (r.steps m) = false) → (r.states n).live line = some l → l.chan.txArmed = true →
    l.regs.tx.contents l.chan.caps.tx = some cs →
    ∃ m, n ≤ m ∧ (l.chan.lineOut ++ cs) <+: (r.states m).lineOut line
end

