-- ==== Sys2Proof/Laws/Decode.lean ====
section
/-! SUPPORT. The fields of an encoded word, the byte order of a trace, and the opcode map read both ways. -/

namespace Sys2Proof

/-- The four bytes of a word, put together again. -/
@[simp] theorem wordOfBytes_bytesOfWord (w : Word) :
    wordOfBytes (w.extractLsb' 0 8) (w.extractLsb' 8 8) (w.extractLsb' 16 8) (w.extractLsb' 24 8) = w := by
  apply BitVec.eq_of_getLsbD_eq
  intro i hi
  simp only [wordOfBytes, BitVec.getLsbD_append, BitVec.getLsbD_extractLsb']
  grind

/-- Four bytes are the bytes of the word they make. -/
theorem bytesOfWord_wordOfBytes (b0 b1 b2 b3 : Byte) : bytesOfWord (wordOfBytes b0 b1 b2 b3) = [b0, b1, b2, b3] := by
  simp only [bytesOfWord, wordOfBytes, List.cons.injEq, and_true]
  refine ⟨?_, ?_, ?_, ?_⟩ <;>
  · apply BitVec.eq_of_getLsbD_eq
    intro i hi
    simp only [BitVec.getLsbD_append, BitVec.getLsbD_extractLsb']
    grind

/-- Decoding a word's bytes and what follows is decoding the word. -/
@[simp] theorem decode_bytesOfWord (port : Port) (w : Word) (data : List Byte) :
    decode port (bytesOfWord w ++ data) = decodeWord port w data := by
  simp [decode, bytesOfWord]

/-! ### The fields of each step -/

/-- The LINE of each step. -/
@[simp] theorem Instr.line_of :
    (∀ l a b, (Instr.configure l a b).line = l) ∧
    (∀ l n, (Instr.readAvailable l n).line = l) ∧
    (∀ l data, (Instr.write l data).line = l) ∧
    (∀ l, (Instr.drain l).line = l) ∧
    (∀ l b, (Instr.rbIsEmpty l b).line = l) ∧
    (∀ l b, (Instr.rbIsFull l b).line = l) ∧
    (∀ l b data, (Instr.rbPushP l b data).line = l) ∧
    (∀ l b n, (Instr.rbPopP l b n).line = l) ∧
    (∀ l b data, (Instr.rbPushU l b data).line = l) ∧
    (∀ l b n, (Instr.rbPopU l b n).line = l) ∧
    (∀ l, (Instr.evIrq l).line = l) ∧
    (∀ l e d, (Instr.evRx l e d).line = l) ∧
    (∀ l, (Instr.evTxDone l).line = l) := by
  refine ⟨?_, ?_, ?_, ?_, ?_, ?_, ?_, ?_, ?_, ?_, ?_, ?_, ?_⟩ <;> intros <;> rfl

/-- The opcode of each step. -/
@[simp] theorem Instr.op_of :
    (∀ l a b, (Instr.configure l a b).op = .configure) ∧
    (∀ l n, (Instr.readAvailable l n).op = .readAvailable) ∧
    (∀ l data, (Instr.write l data).op = .write) ∧
    (∀ l, (Instr.drain l).op = .drain) ∧
    (∀ l b, (Instr.rbIsEmpty l b).op = .rbIsEmpty) ∧
    (∀ l b, (Instr.rbIsFull l b).op = .rbIsFull) ∧
    (∀ l b data, (Instr.rbPushP l b data).op = .rbPushP) ∧
    (∀ l b n, (Instr.rbPopP l b n).op = .rbPopP) ∧
    (∀ l b data, (Instr.rbPushU l b data).op = .rbPushU) ∧
    (∀ l b n, (Instr.rbPopU l b n).op = .rbPopU) ∧
    (∀ l, (Instr.evIrq l).op = .evIrq) ∧
    (∀ l e d, (Instr.evRx l e d).op = .evRx) ∧
    (∀ l, (Instr.evTxDone l).op = .evTxDone) := by
  refine ⟨?_, ?_, ?_, ?_, ?_, ?_, ?_, ?_, ?_, ?_, ?_, ?_, ?_⟩ <;> intros <;> rfl

/-- The port of each opcode. -/
@[simp] theorem Op.port_of :
    Op.port .configure = .command ∧
    Op.port .readAvailable = .command ∧
    Op.port .write = .command ∧
    Op.port .drain = .command ∧
    Op.port .rbIsEmpty = .leaf ∧
    Op.port .rbIsFull = .leaf ∧
    Op.port .rbPushP = .leaf ∧
    Op.port .rbPopP = .leaf ∧
    Op.port .rbPushU = .leaf ∧
    Op.port .rbPopU = .leaf ∧
    Op.port .evIrq = .event ∧
    Op.port .evRx = .event ∧
    Op.port .evTxDone = .event := by
  decide

/-! ### The opcode map -/

@[simp] theorem Op.ofCode_code (o : Op) : Op.ofCode o.code = some o := by cases o <;> decide

/-- An OP value names an opcode exactly when it is the opcode's code. -/
theorem Op.ofCode_eq_some {c : BitVec 4} {o : Op} : Op.ofCode c = some o ↔ o.code = c := by
  constructor
  · intro h
    have := List.find?_some h
    simpa using this
  · rintro rfl; exact Op.ofCode_code o

/-- The OP values that name no opcode are the three reserved ones (R101). -/
theorem Op.ofCode_eq_none {c : BitVec 4} : Op.ofCode c = none ↔ c = 0x0 ∨ c = 0x5 ∨ c = 0xF := by
  revert c; decide

theorem Op.code_injective {o o' : Op} (h : o.code = o'.code) : o = o' := by
  have := Op.ofCode_code o
  rw [h, Op.ofCode_code, Option.some.injEq] at this
  exact this.symm

@[simp] theorem Buf.ofBit_bit (b : Buf) : Buf.ofBit b.bit = b := by cases b <;> decide

theorem Buf.bit_ofBit (x : BitVec 1) : (Buf.ofBit x).bit = x := by revert x; decide

/-! ### The fields of a word with a head -/

@[simp] theorem opField_headed (o : Op) (l : Line) (low : BitVec 24) : opField (headed o l low) = o.code := by
  apply BitVec.eq_of_getLsbD_eq
  intro i hi
  simp only [opField, headed, BitVec.getLsbD_append, BitVec.getLsbD_extractLsb']
  grind

@[simp] theorem lineField_headed (o : Op) (l : Line) (low : BitVec 24) : lineField (headed o l low) = l := by
  apply BitVec.eq_of_getLsbD_eq
  intro i hi
  simp only [lineField, headed, BitVec.getLsbD_append, BitVec.getLsbD_extractLsb']
  grind

/-- A field inside the 24 low bits of a word with a head is that field of the low bits. -/
theorem extract_headed (o : Op) (l : Line) (low : BitVec 24) {start len : Nat} (h : start + len ≤ 24) :
    (headed o l low).extractLsb' start len = low.extractLsb' start len := by
  apply BitVec.eq_of_getLsbD_eq
  intro i hi
  simp only [headed, BitVec.getLsbD_append, BitVec.getLsbD_extractLsb']
  grind

/-- A word is its OP, its LINE and its 24 low bits. -/
theorem word_eq_headed {w : Word} {o : Op} (h : o.code = opField w) :
    w = headed o (lineField w) (w.extractLsb' 0 24) := by
  apply BitVec.eq_of_getLsbD_eq
  intro i hi
  simp only [headed, h, opField, lineField, BitVec.getLsbD_append, BitVec.getLsbD_extractLsb']
  grind

/-! ### The fields of each format's 24 low bits -/

/-- Format FC: reserved bits zero, bit 16 zero, the two pins. -/
@[simp] theorem lowFC_fields (t r : Byte) :
    (lowFC t r).extractLsb' 17 7 = 0 ∧ (lowFC t r).extractLsb' 16 1 = 0 ∧ (lowFC t r).extractLsb' 8 8 = t ∧
      (lowFC t r).extractLsb' 0 8 = r := by
  refine ⟨?_, ?_, ?_, ?_⟩ <;>
  · apply BitVec.eq_of_getLsbD_eq
    intro i hi
    simp only [lowFC, BitVec.getLsbD_append, BitVec.getLsbD_extractLsb', BitVec.getLsbD_zero]
    grind

/-- Format FL: reserved bits zero, bit 16 zero, the length. -/
@[simp] theorem lowFL_fields (n : BitVec 16) :
    (lowFL n).extractLsb' 17 7 = 0 ∧ (lowFL n).extractLsb' 16 1 = 0 ∧ (lowFL n).extractLsb' 0 16 = n := by
  refine ⟨?_, ?_, ?_⟩ <;>
  · apply BitVec.eq_of_getLsbD_eq
    intro i hi
    simp only [lowFL, BitVec.getLsbD_append, BitVec.getLsbD_extractLsb', BitVec.getLsbD_zero]
    grind

/-- Format FN: every field zero. -/
@[simp] theorem lowFN_fields :
    lowFN.extractLsb' 17 7 = 0 ∧ lowFN.extractLsb' 16 1 = 0 ∧ lowFN.extractLsb' 0 16 = 0 := by
  decide

/-- Format FB: reserved bits zero, the buffer, the length. -/
@[simp] theorem lowFB_fields (b : Buf) (n : BitVec 16) :
    (lowFB b n).extractLsb' 17 7 = 0 ∧ (lowFB b n).extractLsb' 16 1 = b.bit ∧ (lowFB b n).extractLsb' 0 16 = n := by
  refine ⟨?_, ?_, ?_⟩ <;>
  · apply BitVec.eq_of_getLsbD_eq
    intro i hi
    simp only [lowFB, BitVec.getLsbD_append, BitVec.getLsbD_extractLsb', BitVec.getLsbD_zero]
    grind

/-- Format FQ: reserved bits zero, the buffer, no length. -/
@[simp] theorem lowFQ_fields (b : Buf) :
    (lowFQ b).extractLsb' 17 7 = 0 ∧ (lowFQ b).extractLsb' 16 1 = b.bit ∧ (lowFQ b).extractLsb' 0 16 = 0 := by
  cases b <;> decide

/-- Format FR: reserved bits zero, bits 16 to 9 zero, ERR, DATA. -/
@[simp] theorem lowFR_fields (e : Bool) (d : Byte) :
    (lowFR e d).extractLsb' 17 7 = 0 ∧ (lowFR e d).extractLsb' 9 8 = 0 ∧
      (lowFR e d).extractLsb' 8 1 = BitVec.ofBool e ∧ (lowFR e d).extractLsb' 0 8 = d := by
  refine ⟨?_, ?_, ?_, ?_⟩ <;>
  · apply BitVec.eq_of_getLsbD_eq
    intro i hi
    simp only [lowFR, BitVec.getLsbD_append, BitVec.getLsbD_extractLsb', BitVec.getLsbD_zero, BitVec.getLsbD_ofBool]
    grind

/-- The length field of a data list that fits it counts the list (R95). -/
theorem lenOf_toNat {data : List Byte} (h : lenFits data = true) : (lenOf data).toNat = data.length := by
  simp only [lenFits, decide_eq_true_eq] at h
  simp only [lenOf, BitVec.toNat_ofNat]
  omega

end Sys2Proof
end

