-- ==== Sys2Proof/Laws/Memory.lean ====
section
/-! SUPPORT. The laws of storage slots: a read after a write, and the canonical form. -/

namespace Sys2Proof.Machine

open Sys2Proof

@[simp] theorem Memory.read_nil (i : Nat) : Memory.read [] i = none := rfl

theorem Memory.read_cons (a : Nat) (b : Byte) (m : Memory) (i : Nat) :
    Memory.read ((a, b) :: m) i = if a = i then some b else Memory.read m i := rfl

/-- A read after a write to the same slot gives the byte written. -/
@[simp] theorem Memory.read_write_self (m : Memory) (i : Nat) (v : Byte) : (m.write i v).read i = some v := by
  induction m with
  | nil => simp [Memory.write, Memory.read]
  | cons x m ih =>
    obtain ⟨a, b⟩ := x
    simp only [Memory.write]
    split
    · simp [Memory.read]
    · split
      · simp [Memory.read]
      · next h => rw [Memory.read_cons, if_neg (fun e => h e.symm), ih]

/-- A write leaves every other slot alone. -/
theorem Memory.read_write_of_ne (m : Memory) {i j : Nat} (v : Byte) (h : j ≠ i) : (m.write i v).read j = m.read j := by
  induction m with
  | nil => simp [Memory.write, Memory.read, h.symm]
  | cons x m ih =>
    obtain ⟨a, b⟩ := x
    simp only [Memory.write]
    split
    · simp [Memory.read, h.symm]
    · split
      · next h' => subst h'; simp [Memory.read, h.symm]
      · simp [Memory.read, ih]

/-- Every listed slot after a write is the one written or one listed before. -/
theorem Memory.mem_write {m : Memory} {i : Nat} {v : Byte} {x : Host.Cell} (h : x ∈ m.write i v) :
    x = (i, v) ∨ x ∈ m := by
  induction m with
  | nil => simpa [Memory.write] using h
  | cons y m ih =>
    obtain ⟨a, b⟩ := y
    simp only [Memory.write] at h
    split at h
    · simpa using h
    · split at h
      · rcases List.mem_cons.mp h with h | h
        · exact .inl h
        · exact .inr (List.mem_cons_of_mem _ h)
      · rcases List.mem_cons.mp h with h | h
        · exact .inr (h ▸ List.mem_cons_self)
        · exact (ih h).imp_right (List.mem_cons_of_mem _)

theorem Memory.wf_cons {x : Host.Cell} {m : Memory} :
    Memory.wf (x :: m) = true ↔ (∀ y, m.head? = some y → x.1 < y.1) ∧ m.wf = true := by
  cases m with
  | nil => simp [Memory.wf]
  | cons y m => simp [Memory.wf]

/-- A write keeps the slots strictly rising. -/
theorem Memory.wf_write {m : Memory} (i : Nat) (v : Byte) (h : m.wf = true) : (m.write i v).wf = true := by
  induction m with
  | nil => rfl
  | cons x m ih =>
    obtain ⟨a, b⟩ := x
    obtain ⟨hlt, hm⟩ := Memory.wf_cons.mp h
    simp only [Memory.write]
    split
    · next hi => exact Memory.wf_cons.mpr ⟨by simpa using hi, h⟩
    · split
      · next hi => exact Memory.wf_cons.mpr ⟨by simpa [hi] using hlt, hm⟩
      · next h1 h2 =>
        refine Memory.wf_cons.mpr ⟨fun y hy => ?_, ih hm⟩
        rcases Memory.mem_write (List.mem_of_mem_head? (by simpa using hy)) with hy' | hy'
        · subst hy'; simp; omega
        · have hne : m ≠ [] := List.ne_nil_of_mem hy'
          obtain ⟨z, m', rfl⟩ := List.exists_cons_of_ne_nil hne
          have hz := hlt z rfl
          simp only [Memory.write] at hy
          split at hy
          · have hy : (i, v) = y := by simpa using hy
            rw [← hy]; simp; omega
          · split at hy
            · have hy : (i, v) = y := by simpa using hy
              rw [← hy]; simp; omega
            · have hy : z = y := by simpa using hy
              rw [← hy]; exact hz

/-- Storage that is listed inside N slots stays there when a slot below N is written. -/
theorem Memory.lt_write {m : Memory} {i N : Nat} {v : Byte} (hi : i < N) (h : ∀ x ∈ m, x.1 < N) :
    ∀ x ∈ m.write i v, x.1 < N := by
  intro x hx
  rcases Memory.mem_write hx with rfl | hx
  · exact hi
  · exact h x hx

end Sys2Proof.Machine
end

