-- ==== Sys2Proof/Laws/Ring.lean ====
section
/-! SUPPORT. The laws of reading and writing a run of slots modulo the capacity. -/

namespace Sys2Proof.Machine

open Sys2Proof

/-! ### Indices modulo the capacity -/

/-- Two offsets below N from one start that meet modulo N are equal. -/
theorem add_mod_inj {N s i j : Nat} (hi : i < N) (hj : j < N) (h : (s + i) % N = (s + j) % N) : i = j := by
  have : i ≡ j [MOD N] := Nat.ModEq.add_left_cancel' s h
  exact Nat.ModEq.eq_of_lt_of_lt this hi hj

theorem mod_add_mod' (N s i : Nat) : (s % N + i) % N = (s + i) % N := Nat.mod_add_mod s N i

/-! ### Reading -/

@[simp] theorem readSlots_zero (m : Memory) (N s : Nat) : readSlots m N s 0 = some [] := rfl

/-- A read of k + 1 slots is a read of the first and of the rest. -/
theorem readSlots_succ_eq_some {m : Memory} {N s k : Nat} {bs : List Byte} :
    readSlots m N s (k + 1) = some bs ↔
      ∃ b bs', bs = b :: bs' ∧ m.read (s % N) = some b ∧ readSlots m N (s + 1) k = some bs' := by
  simp only [readSlots]
  cases h1 : m.read (s % N) <;> cases h2 : readSlots m N (s + 1) k <;> simp [eq_comm]

theorem readSlots_length {m : Memory} {N s k : Nat} {bs : List Byte} (h : readSlots m N s k = some bs) :
    bs.length = k := by
  induction k generalizing s bs with
  | zero => simpa using h.symm
  | succ k ih =>
    obtain ⟨b, bs', rfl, -, h⟩ := readSlots_succ_eq_some.mp h
    simp [ih h]

/-- What a read answers, slot by slot. -/
theorem readSlots_eq_some_iff {m : Memory} {N s k : Nat} {bs : List Byte} :
    readSlots m N s k = some bs ↔ bs.length = k ∧ ∀ i < k, m.read ((s + i) % N) = bs[i]? := by
  induction k generalizing s bs with
  | zero => simp [eq_comm (a := ([] : List Byte))]
  | succ k ih =>
    rw [readSlots_succ_eq_some]
    constructor
    · rintro ⟨b, bs', rfl, hb, h⟩
      obtain ⟨hl, hg⟩ := ih.mp h
      refine ⟨by simp [hl], fun i hi => ?_⟩
      cases i with
      | zero => simpa using hb
      | succ i => simpa [Nat.add_assoc, Nat.add_comm 1 i] using hg i (by omega)
    · rintro ⟨hl, hg⟩
      obtain ⟨b, bs', rfl⟩ := List.exists_cons_of_length_eq_add_one hl
      refine ⟨b, bs', rfl, by simpa using hg 0 (by omega), ih.mpr ⟨by simpa using hl, fun i hi => ?_⟩⟩
      simpa [Nat.add_assoc, Nat.add_comm 1 i] using hg (i + 1) (by omega)

/-- A read answers when every slot of it holds a value. -/
theorem readSlots_isSome_iff {m : Memory} {N s k : Nat} :
    (readSlots m N s k).isSome = true ↔ ∀ i < k, (m.read ((s + i) % N)).isSome = true := by
  induction k generalizing s with
  | zero => simp
  | succ k ih =>
    have hs : (readSlots m N s (k + 1)).isSome = true ↔
        (m.read (s % N)).isSome = true ∧ (readSlots m N (s + 1) k).isSome = true := by
      simp only [readSlots]
      cases m.read (s % N) <;> cases readSlots m N (s + 1) k <;> simp
    rw [hs, ih]
    constructor
    · rintro ⟨h0, h⟩ i hi
      cases i with
      | zero => simpa using h0
      | succ i => simpa [Nat.add_assoc, Nat.add_comm 1 i] using h i (by omega)
    · intro h
      refine ⟨by simpa using h 0 (by omega), fun i hi => ?_⟩
      simpa [Nat.add_assoc, Nat.add_comm 1 i] using h (i + 1) (by omega)

/-- Two reads of slots that agree one by one answer the same. -/
theorem readSlots_congr {m m' : Memory} {N s s' k : Nat}
    (h : ∀ i < k, m.read ((s + i) % N) = m'.read ((s' + i) % N)) : readSlots m N s k = readSlots m' N s' k := by
  induction k generalizing s s' with
  | zero => rfl
  | succ k ih =>
    have h0 : m.read (s % N) = m'.read (s' % N) := by simpa using h 0 (by omega)
    have h1 : readSlots m N (s + 1) k = readSlots m' N (s' + 1) k := by
      refine ih fun i hi => ?_
      simpa [Nat.add_assoc, Nat.add_comm 1 i] using h (i + 1) (by omega)
    simp only [readSlots, h0, h1]

/-- The start of a read counts modulo the capacity. -/
theorem readSlots_mod (m : Memory) (N s k : Nat) : readSlots m N (s % N) k = readSlots m N s k :=
  readSlots_congr fun i _ => by rw [mod_add_mod']

/-- A read of j + k slots is a read of j and then of k. -/
theorem readSlots_add {m : Memory} {N s j k : Nat} {xs ys : List Byte} (hx : readSlots m N s j = some xs)
    (hy : readSlots m N (s + j) k = some ys) : readSlots m N s (j + k) = some (xs ++ ys) := by
  rw [readSlots_eq_some_iff] at *
  obtain ⟨hxl, hx⟩ := hx
  obtain ⟨hyl, hy⟩ := hy
  refine ⟨by simp [hxl, hyl], fun i hi => ?_⟩
  by_cases h : i < j
  · rw [hx i h, List.getElem?_append_left (by omega)]
  · have := hy (i - j) (by omega)
    rw [List.getElem?_append_right (by omega), hxl, ← this]
    congr 2
    omega

/-- The first j slots of a read. -/
theorem readSlots_take {m : Memory} {N s k : Nat} {bs : List Byte} (j : Nat) (h : readSlots m N s k = some bs) :
    readSlots m N s (min j k) = some (bs.take j) := by
  rw [readSlots_eq_some_iff] at *
  obtain ⟨hl, h⟩ := h
  refine ⟨by simp [hl], fun i hi => ?_⟩
  rw [h i (by omega), List.getElem?_take_of_lt (by omega)]

/-- The slots of a read after the first j. -/
theorem readSlots_drop {m : Memory} {N s k : Nat} {bs : List Byte} (j : Nat) (hj : j ≤ k)
    (h : readSlots m N s k = some bs) : readSlots m N (s + j) (k - j) = some (bs.drop j) := by
  rw [readSlots_eq_some_iff] at *
  obtain ⟨hl, h⟩ := h
  refine ⟨by simp [hl], fun i hi => ?_⟩
  rw [List.getElem?_drop, ← h (j + i) (by omega)]
  congr 2
  omega

/-! ### Writing -/

@[simp] theorem writeSlots_nil (m : Memory) (N s : Nat) : writeSlots m N s [] = m := rfl

/-- A slot that no index of the write designates is left alone. -/
theorem read_writeSlots_of_ne {m : Memory} {N s j : Nat} {bs : List Byte}
    (h : ∀ i < bs.length, (s + i) % N ≠ j) : (writeSlots m N s bs).read j = m.read j := by
  induction bs generalizing m s with
  | nil => rfl
  | cons b bs ih =>
    have h0 : j ≠ s % N := by simpa using (h 0 (by simp)).symm
    rw [writeSlots, ih, Memory.read_write_of_ne m b h0]
    intro i hi
    simpa [Nat.add_assoc, Nat.add_comm 1 i] using h (i + 1) (by simpa using hi)

/-- After a write of at most N bytes each slot holds its byte. -/
theorem read_writeSlots {m : Memory} {N s : Nat} {bs : List Byte} (hN : bs.length ≤ N) {i : Nat}
    (hi : i < bs.length) : (writeSlots m N s bs).read ((s + i) % N) = bs[i]? := by
  induction bs generalizing m s i with
  | nil => simp at hi
  | cons b bs ih =>
    simp only [List.length_cons] at hN hi
    cases i with
    | zero =>
      rw [writeSlots, read_writeSlots_of_ne]
      · simp
      · intro j hj h
        have := add_mod_inj (N := N) (s := s) (i := 1 + j) (j := 0) (by omega) (by omega)
          (by simpa [Nat.add_assoc] using h)
        omega
    | succ i =>
      rw [writeSlots]
      simpa [Nat.add_assoc, Nat.add_comm 1 i] using ih (m := m.write (s % N) b) (s := s + 1) (by omega)
        (i := i) (by omega)

/-- What was just written reads back. -/
theorem readSlots_writeSlots {m : Memory} {N s : Nat} {bs : List Byte} (hN : bs.length ≤ N) :
    readSlots (writeSlots m N s bs) N s bs.length = some bs :=
  readSlots_eq_some_iff.mpr ⟨rfl, fun _ hi => read_writeSlots hN hi⟩

theorem wf_writeSlots {m : Memory} (N s : Nat) (bs : List Byte) (h : m.wf = true) :
    (writeSlots m N s bs).wf = true := by
  induction bs generalizing m s with
  | nil => exact h
  | cons b bs ih => exact ih _ (Memory.wf_write _ _ h)

theorem lt_writeSlots {m : Memory} {N : Nat} (hN : 1 ≤ N) (s : Nat) (bs : List Byte) (h : ∀ x ∈ m, x.1 < N) :
    ∀ x ∈ writeSlots m N s bs, x.1 < N := by
  induction bs generalizing m s with
  | nil => exact h
  | cons b bs ih => exact ih _ (Memory.lt_write (Nat.mod_lt _ hN) h)

/-! ### Push and pop, field by field -/

@[simp] theorem rbPush_count (N : Nat) (rb : RingBuffer) (data : List Byte) :
    (rbPush N rb data).2.count = rb.count + min data.length (N - rb.count) := rfl
@[simp] theorem rbPush_head (N : Nat) (rb : RingBuffer) (data : List Byte) :
    (rbPush N rb data).2.head = (rb.head + min data.length (N - rb.count)) % N := rfl
@[simp] theorem rbPush_tail (N : Nat) (rb : RingBuffer) (data : List Byte) : (rbPush N rb data).2.tail = rb.tail := rfl
@[simp] theorem rbPush_store (N : Nat) (rb : RingBuffer) (data : List Byte) :
    (rbPush N rb data).2.store = writeSlots rb.store N rb.head (data.take (min data.length (N - rb.count))) := rfl
@[simp] theorem rbPush_k (N : Nat) (rb : RingBuffer) (data : List Byte) :
    (rbPush N rb data).1 = min data.length (N - rb.count) := rfl

/-- Everything a pop can do: it takes the first slots and moves the tail, or one of them holds no value. -/
theorem rbPop_cases (N : Nat) (rb : RingBuffer) (max : Nat) :
    (∃ out, readSlots rb.store N rb.tail (min max rb.count) = some out ∧
      rbPop N rb max = .done ⟨min max rb.count, out,
        { rb with tail := (rb.tail + min max rb.count) % N, count := rb.count - min max rb.count }⟩) ∨
    (readSlots rb.store N rb.tail (min max rb.count) = none ∧ rbPop N rb max = .stuck .slotUnwritten) := by
  unfold rbPop
  cases h : readSlots rb.store N rb.tail (min max rb.count) with
  | none => exact .inr ⟨rfl, by simp [h]⟩
  | some out => exact .inl ⟨out, rfl, by simp [h]⟩

theorem RingBuffer.contents_length {N : Nat} {rb : RingBuffer} {cs : List Byte} (h : rb.contents N = some cs) :
    cs.length = rb.count := readSlots_length h

/-- A buffer as CONFIGURE leaves it meets the ring invariant. -/
theorem RingBuffer.fresh_ok {N : Nat} (h : 1 ≤ N) : RingBuffer.Ok N RingBuffer.fresh where
  capacity := h
  count_le := Nat.zero_le _
  head_lt := h
  tail_lt := h
  head_eq := by simp [RingBuffer.fresh]
  store_wf := rfl
  store_lt := by simp [RingBuffer.fresh]
  written := rfl

@[simp] theorem RingBuffer.fresh_contents (N : Nat) : RingBuffer.fresh.contents N = some [] := rfl

end Sys2Proof.Machine
end

