-- ==== Sys2Proof/Laws/State.lean ====
section
/-! SUPPORT. One lemma per field per state update, and what reading a line gives after each update, so that no proof unfolds
a record update. -/

namespace Sys2Proof.Machine

open Sys2Proof

/-! ### raiseFault -/

@[simp] theorem State.raiseFault_build (s : State) (k : FaultKind) (l : Line) (n : BitVec 16) :
    (s.raiseFault k l n).build = s.build := rfl
@[simp] theorem State.raiseFault_ch (s : State) (k : FaultKind) (l : Line) (n : BitVec 16) :
    (s.raiseFault k l n).ch = s.ch := rfl
@[simp] theorem State.raiseFault_fault (s : State) (k : FaultKind) (l : Line) (n : BitVec 16) :
    (s.raiseFault k l n).fault = some ⟨k, l, n⟩ := rfl
@[simp] theorem State.raiseFault_pending (s : State) (k : FaultKind) (l : Line) (n : BitVec 16) :
    (s.raiseFault k l n).pending = s.pending := rfl
@[simp] theorem State.raiseFault_responses (s : State) (k : FaultKind) (l : Line) (n : BitVec 16) :
    (s.raiseFault k l n).responses = s.responses := rfl
@[simp] theorem State.raiseFault_live (s : State) (k : FaultKind) (l : Line) (n : BitVec 16) (line : Line) :
    (s.raiseFault k l n).live line = s.live line := rfl

/-! ### setChannel -/

@[simp] theorem State.setChannel_build (s : State) (l : Line) (c : Channel) : (s.setChannel l c).build = s.build := rfl
@[simp] theorem State.setChannel_ch (s : State) (l : Line) (c : Channel) :
    (s.setChannel l c).ch = s.ch.set l.toNat c := rfl
@[simp] theorem State.setChannel_fault (s : State) (l : Line) (c : Channel) : (s.setChannel l c).fault = s.fault := rfl
@[simp] theorem State.setChannel_pending (s : State) (l : Line) (c : Channel) :
    (s.setChannel l c).pending = s.pending := rfl
@[simp] theorem State.setChannel_responses (s : State) (l : Line) (c : Channel) :
    (s.setChannel l c).responses = s.responses := rfl

/-! ### respond -/

@[simp] theorem State.respond_build (s : State) (r : Option Response) : (s.respond r).build = s.build := rfl
@[simp] theorem State.respond_ch (s : State) (r : Option Response) : (s.respond r).ch = s.ch := rfl
@[simp] theorem State.respond_fault (s : State) (r : Option Response) : (s.respond r).fault = s.fault := rfl
@[simp] theorem State.respond_pending (s : State) (r : Option Response) : (s.respond r).pending = s.pending := rfl
@[simp] theorem State.respond_responses (s : State) (r : Option Response) :
    (s.respond r).responses = s.responses ++ r.toList := rfl
@[simp] theorem State.respond_live (s : State) (r : Option Response) (line : Line) :
    (s.respond r).live line = s.live line := rfl
@[simp] theorem State.respond_lineOut (s : State) (r : Option Response) (line : Line) :
    (s.respond r).lineOut line = s.lineOut line := rfl
@[simp] theorem State.respond_none (s : State) : s.respond none = s := by
  cases s; simp [State.respond]

/-! ### withNext and powerUp -/

@[simp] theorem State.withNext_build (s : State) (a : Arrival) : (s.withNext a).build = s.build := rfl
@[simp] theorem State.withNext_ch (s : State) (a : Arrival) : (s.withNext a).ch = s.ch := rfl
@[simp] theorem State.withNext_fault (s : State) (a : Arrival) : (s.withNext a).fault = s.fault := rfl
@[simp] theorem State.withNext_pending (s : State) (a : Arrival) :
    (s.withNext a).pending = a :: s.pending.tail := rfl
@[simp] theorem State.withNext_responses (s : State) (a : Arrival) : (s.withNext a).responses = s.responses := rfl

@[simp] theorem State.powerUp_build (p : Config.Params) : (State.powerUp p).build = p.build := rfl
@[simp] theorem State.powerUp_ch (p : Config.Params) : (State.powerUp p).ch = p.lines.map Channel.powerUp := rfl
@[simp] theorem State.powerUp_fault (p : Config.Params) : (State.powerUp p).fault = none := rfl
@[simp] theorem State.powerUp_pending (p : Config.Params) : (State.powerUp p).pending = [] := rfl
@[simp] theorem State.powerUp_responses (p : Config.Params) : (State.powerUp p).responses = [] := rfl

/-! ### Live and ring accessors -/

@[simp] theorem Live.toChannel_regs (l : Live) : l.toChannel.regs = some l.regs := rfl
@[simp] theorem Live.toChannel_caps (l : Live) : l.toChannel.caps = l.chan.caps := rfl
@[simp] theorem Live.toChannel_rxIe (l : Live) : l.toChannel.rxIe = l.chan.rxIe := rfl
@[simp] theorem Live.toChannel_txArmed (l : Live) : l.toChannel.txArmed = l.chan.txArmed := rfl
@[simp] theorem Live.toChannel_lineEn (l : Live) : l.toChannel.lineEn = l.chan.lineEn := rfl
@[simp] theorem Live.toChannel_lineOut (l : Live) : l.toChannel.lineOut = l.chan.lineOut := rfl

@[simp] theorem Live.setRing_chan (l : Live) (b : Buf) (rb : RingBuffer) : (l.setRing b rb).chan = l.chan := rfl
@[simp] theorem Live.setRing_regs (l : Live) (b : Buf) (rb : RingBuffer) :
    (l.setRing b rb).regs = l.regs.setRing b rb := rfl
@[simp] theorem Regs.ring_rx (r : Regs) : r.ring .rx = r.rx := rfl
@[simp] theorem Regs.ring_tx (r : Regs) : r.ring .tx = r.tx := rfl
@[simp] theorem Regs.setRing_rx (r : Regs) (rb : RingBuffer) : r.setRing .rx rb = { r with rx := rb } := rfl
@[simp] theorem Regs.setRing_tx (r : Regs) (rb : RingBuffer) : r.setRing .tx rb = { r with tx := rb } := rfl
@[simp] theorem Channel.capacity_rx (c : Channel) : c.capacity .rx = c.caps.rx := rfl
@[simp] theorem Channel.capacity_tx (c : Channel) : c.capacity .tx = c.caps.tx := rfl

@[simp] theorem restore_suspend (l : Live) : restore l.chan.lineEn (suspend l).2 = l := rfl

/-! ### Reading a line -/

/-- What a configured line is: its record holds register values. -/
theorem State.live_eq_some {s : State} {line : Line} {l : Live} :
    s.live line = some l ↔ s.ch[line.toNat]? = some l.chan ∧ l.chan.regs = some l.regs := by
  unfold State.live
  cases h : s.ch[line.toNat]? with
  | none => simp
  | some c =>
    cases l with
    | mk lc lr =>
      simp only [Option.map_eq_some_iff, Live.mk.injEq, Option.some.injEq]
      constructor
      · rintro ⟨r, hr, rfl, rfl⟩; exact ⟨rfl, hr⟩
      · rintro ⟨rfl, hr⟩; exact ⟨lr, hr, rfl, rfl⟩

/-- Every configured line is one of the build's. -/
theorem State.live_lt {s : State} {line : Line} {l : Live} (h : s.live line = some l) : line.toNat < s.ch.length :=
  (List.getElem?_eq_some_iff.mp (State.live_eq_some.mp h).1).1

/-- The record of a configured line, put back unchanged, is the line's own. -/
theorem Live.toChannel_of_live {s : State} {line : Line} {l : Live} (h : s.live line = some l) :
    l.toChannel = l.chan := by
  have := (State.live_eq_some.mp h).2
  cases l with
  | mk lc lr => cases lc; simp_all [Live.toChannel]

/-- Putting a configured line's own record back changes nothing. -/
theorem State.setChannel_live_self {s : State} {line : Line} {l : Live} (h : s.live line = some l) :
    s.setChannel line l.toChannel = s := by
  obtain ⟨hc, -⟩ := State.live_eq_some.mp h
  rw [Live.toChannel_of_live h]
  obtain ⟨hlt, hget⟩ := List.getElem?_eq_some_iff.mp hc
  cases s
  simp only [State.setChannel, State.mk.injEq, true_and, and_true]
  simp only at hget
  rw [← hget, List.set_getElem_self]

/-- The record of a line after it is put. -/
theorem State.getElem?_setChannel_self {s : State} {line : Line} (c : Channel) (h : line.toNat < s.ch.length) :
    (s.setChannel line c).ch[line.toNat]? = some c := by
  simp [h]

/-- Putting one line's record leaves every other. -/
theorem State.getElem?_setChannel_of_ne {s : State} {line : Line} (c : Channel) {k : Nat} (h : k ≠ line.toNat) :
    (s.setChannel line c).ch[k]? = s.ch[k]? := by
  simp [List.getElem?_set_ne (Ne.symm h)]

theorem State.live_setChannel_self {s : State} {line : Line} (c : Channel) (h : line.toNat < s.ch.length) :
    (s.setChannel line c).live line = c.regs.map fun r => ⟨c, r⟩ := by
  simp [State.live, h]

@[simp] theorem State.live_setChannel_toChannel {s : State} {line : Line} (l : Live) (h : line.toNat < s.ch.length) :
    (s.setChannel line l.toChannel).live line = some ⟨l.toChannel, l.regs⟩ := by
  simp [State.live_setChannel_self _ h]

theorem State.live_setChannel_of_ne {s : State} {line line' : Line} (c : Channel) (h : line ≠ line') :
    (s.setChannel line c).live line' = s.live line' := by
  have : line.toNat ≠ line'.toNat := fun e => h (BitVec.eq_of_toNat_eq e)
  simp [State.live, List.getElem?_set_ne this]

theorem State.lineOut_of_live {s : State} {line : Line} {l : Live} (h : s.live line = some l) :
    s.lineOut line = l.chan.lineOut := by
  simp [State.lineOut, (State.live_eq_some.mp h).1]

theorem State.lineOut_setChannel_self {s : State} {line : Line} (c : Channel) (h : line.toNat < s.ch.length) :
    (s.setChannel line c).lineOut line = c.lineOut := by
  simp [State.lineOut, h]

theorem State.lineOut_setChannel_of_ne {s : State} {line line' : Line} (c : Channel) (h : line ≠ line') :
    (s.setChannel line c).lineOut line' = s.lineOut line' := by
  have : line.toNat ≠ line'.toNat := fun e => h (BitVec.eq_of_toNat_eq e)
  simp [State.lineOut, List.getElem?_set_ne this]

/-! ### Bodies -/

@[simp] theorem Res.bind_done {α β : Type} (a : α) (f : α → Res β) : (Res.done a).bind f = f a := rfl
@[simp] theorem Res.bind_raised {α β : Type} (k : FaultKind) (n : BitVec 16) (f : α → Res β) :
    (Res.raised k n : Res α).bind f = .raised k n := rfl
@[simp] theorem Res.bind_stuck {α β : Type} (e : Fault) (f : α → Res β) : (Res.stuck e : Res α).bind f = .stuck e := rfl

/-- A sequence of two bodies completes when both do. -/
theorem Res.bind_eq_done {α β : Type} {x : Res α} {f : α → Res β} {b : β} :
    x.bind f = .done b ↔ ∃ a, x = .done a ∧ f a = .done b := by
  cases x <;> simp

@[simp] theorem whenRunning_none {s : State} (h : s.fault = none) (o : Outcome) : whenRunning s o = o := by
  simp [whenRunning, h]

theorem whenRunning_some {s : State} {r : FaultRecord} (h : s.fault = some r) (o : Outcome) :
    whenRunning s o = .fault (.halted r) := by
  simp [whenRunning, h]

end Sys2Proof.Machine
end

