-- ==== Sys2Proof/Laws/Run.lean ====
section
/-! SUPPORT. What each shared operation of a step can do, said once: running on a line, suspending, and the outcome of every
instruction. -/

namespace Sys2Proof.Machine

open Sys2Proof

/-! ### Suspension -/

/-- A suspended body that completes, completes on the channel with its line disabled, and the saved enable is put back. -/
theorem suspended_eq_done {α : Type} {l : Live} {body : Live → Res (Live × α)} {l' : Live} {a : α} :
    suspended l body = .done (l', a) ↔
      ∃ l1, body (suspend l).2 = .done (l1, a) ∧ l' = restore l.chan.lineEn l1 := by
  unfold suspended
  rw [Res.bind_eq_done]
  constructor
  · rintro ⟨⟨l1, b⟩, h1, h2⟩
    simp only [Res.done.injEq, Prod.mk.injEq] at h2
    obtain ⟨rfl, rfl⟩ := h2
    exact ⟨l1, h1, rfl⟩
  · rintro ⟨l1, h1, rfl⟩
    exact ⟨(l1, a), h1, rfl⟩

@[simp] theorem restore_chan_lineEn (b : Bool) (l : Live) : (restore b l).chan.lineEn = b := rfl
@[simp] theorem restore_regs (b : Bool) (l : Live) : (restore b l).regs = l.regs := rfl
@[simp] theorem restore_caps (b : Bool) (l : Live) : (restore b l).chan.caps = l.chan.caps := rfl
@[simp] theorem restore_rxIe (b : Bool) (l : Live) : (restore b l).chan.rxIe = l.chan.rxIe := rfl
@[simp] theorem restore_txArmed (b : Bool) (l : Live) : (restore b l).chan.txArmed = l.chan.txArmed := rfl
@[simp] theorem restore_lineOut (b : Bool) (l : Live) : (restore b l).chan.lineOut = l.chan.lineOut := rfl
@[simp] theorem suspend_fst (l : Live) : (suspend l).1 = l.chan.lineEn := rfl
@[simp] theorem suspend_snd_regs (l : Live) : (suspend l).2.regs = l.regs := rfl
@[simp] theorem suspend_snd_caps (l : Live) : (suspend l).2.chan.caps = l.chan.caps := rfl
@[simp] theorem suspend_snd_rxIe (l : Live) : (suspend l).2.chan.rxIe = l.chan.rxIe := rfl
@[simp] theorem suspend_snd_txArmed (l : Live) : (suspend l).2.chan.txArmed = l.chan.txArmed := rfl
@[simp] theorem suspend_snd_lineOut (l : Live) : (suspend l).2.chan.lineOut = l.chan.lineOut := rfl
@[simp] theorem suspend_snd_lineEn (l : Live) : (suspend l).2.chan.lineEn = false := rfl

/-! ### Running on a line -/

/-- A step on a configured line is its body's outcome. -/
theorem onLine_live {s : State} {line : Line} {l : Live} (hf : s.fault = none) (hl : s.live line = some l)
    (absent : State) (body : Live → Res (Live × Option Response)) :
    onLine s line absent body = commit s line (body l) := by
  simp [onLine, hf, hl]

/-- A step on a line that is out of range or not configured. -/
theorem onLine_absent {s : State} {line : Line} (hf : s.fault = none) (hl : s.live line = none)
    (absent : State) (body : Live → Res (Live × Option Response)) :
    onLine s line absent body = .next absent := by
  simp [onLine, hf, hl]

/-- Everything a step on a line can do when it answers a next state. -/
theorem onLine_next {s t absent : State} {line : Line} {body : Live → Res (Live × Option Response)}
    (h : onLine s line absent body = .next t) :
    s.fault = none ∧
      ((s.live line = none ∧ t = absent) ∨
        ∃ l, s.live line = some l ∧
          ((∃ l' r, body l = .done (l', r) ∧ t = (s.setChannel line l'.toChannel).respond r) ∨
            ∃ k info, body l = .raised k info ∧ t = s.raiseFault k line info)) := by
  cases hf : s.fault with
  | some r => simp [onLine, whenRunning, hf] at h
  | none =>
    refine ⟨rfl, ?_⟩
    cases hl : s.live line with
    | none => rw [onLine_absent hf hl] at h; exact .inl ⟨rfl, by simpa using h.symm⟩
    | some l =>
      rw [onLine_live hf hl] at h
      refine .inr ⟨l, rfl, ?_⟩
      unfold commit at h
      split at h
      · next l' r hb => exact .inl ⟨l', r, hb, by simpa using h.symm⟩
      · next k info hb => exact .inr ⟨k, info, hb, by simpa using h.symm⟩
      · cases h

/-- Everything CONFIGURE can do when it answers a next state. -/
theorem execConfigure_next {s t : State} {line : Line} {a b : Byte} (h : execConfigure line a b s = .next t) :
    s.fault = none ∧
      ((s.ch[line.toNat]? = none ∧ t = s.raiseFault .configError line 0) ∨
        ∃ c, s.ch[line.toNat]? = some c ∧
          ((c.configured = true ∧ t = s.raiseFault .reconfigure line 0) ∨
            (c.configured = false ∧
              t = (s.setChannel line (c.afterConfigure a b)).respond
                (some (mkResponse .configure line line.toNat []))))) := by
  cases hf : s.fault with
  | some r => simp [execConfigure, whenRunning, hf] at h
  | none =>
    refine ⟨rfl, ?_⟩
    simp only [execConfigure, whenRunning, hf] at h
    cases hc : s.ch[line.toNat]? with
    | none => simp only [hc] at h; exact .inl ⟨rfl, by simpa using h.symm⟩
    | some c =>
      refine .inr ⟨c, rfl, ?_⟩
      simp only [hc] at h
      cases hcc : c.configured with
      | true => simp only [hcc, if_true] at h; exact .inl ⟨rfl, by simpa using h.symm⟩
      | false =>
        simp only [hcc] at h
        exact .inr ⟨rfl, by simpa using h.symm⟩

/-- A byte goes out exactly when the transmitter is not busy, and makes it busy. -/
theorem hwWrite_eq_done {l l' : Live} {v : Byte} :
    hwWrite l v = .done l' ↔ l.regs.txBusy = false ∧
      l' = ⟨{ l.chan with lineOut := l.chan.lineOut ++ [v] }, { l.regs with txBusy := true }⟩ := by
  unfold hwWrite
  cases l.regs.txBusy <;> simp [eq_comm]

end Sys2Proof.Machine
end

