-- ==== Sys2Proof/Laws/Exec.lean ====
section
/-! SUPPORT. Every step but CONFIGURE is one body run on its own line: the law that claims over all instructions rest on. -/

namespace Sys2Proof.Machine

open Sys2Proof
open Sys2Proof.Config (Build)

/-- The body a step runs on its line, where the line is configured. CONFIGURE has none. -/
def bodyOf (b : Build) : Instr → Live → Res (Live × Option Response)
  | .configure _ _ _, l => .done (l, none)
  | .readAvailable line max, l => suspended l (popBody .readAvailable line .rx max.toNat)
  | .write line data, l => suspended l (writeBody b.autoDrain line data)
  | .drain line, l => suspended l (drainStep line)
  | .rbIsEmpty line buf, l => .done (l, some (mkResponse .rbIsEmpty line (flagValue (l.regs.ring buf).isEmpty) []))
  | .rbIsFull line buf, l =>
    .done (l, some (mkResponse .rbIsFull line (flagValue ((l.regs.ring buf).isFull (l.chan.capacity buf))) []))
  | .rbPushP line buf data, l =>
    if roleOk .rbPushP buf then suspended l (pushBody .rbPushP line buf data)
    else .raised .roleViolation (roleInfo .rbPushP buf)
  | .rbPopP line buf max, l =>
    if roleOk .rbPopP buf then suspended l (popBody .rbPopP line buf max.toNat)
    else .raised .roleViolation (roleInfo .rbPopP buf)
  | .rbPushU line buf data, l =>
    if roleOk .rbPushU buf then pushBody .rbPushU line buf data l
    else .raised .roleViolation (roleInfo .rbPushU buf)
  | .rbPopU line buf max, l =>
    if roleOk .rbPopU buf then popBody .rbPopU line buf max.toNat l
    else .raised .roleViolation (roleInfo .rbPopU buf)
  | .evIrq _, l => (if l.irqReq then handler l else .done l).bind fun l' => .done (l', none)
  | .evRx _ err data, l =>
    (if l.regs.rxHw.length < b.uartRxDepth then
        Res.done { l with regs := { l.regs with rxHw := l.regs.rxHw ++ [{ data := data, err := err }] } }
      else .done l).bind fun l' => .done (l', none)
  | .evTxDone _, l =>
    (if l.regs.txBusy then
        Res.done { l with regs := { l.regs with txBusy := false, txDonePend := true } }
      else .done l).bind fun l' => .done (l', none)

/-- The state a step leaves where its line is out of range or not configured (R130, R170, R210, R220, R222). -/
def absentOf (i : Instr) (s : State) : State :=
  if i.op.port = .event then s else s.raiseFault .notConfigured i.line (i.op.code.setWidth 16)

/-- Every step but CONFIGURE is its body run on its own line. -/
theorem exec_eq_onLine {i : Instr} (h : i.op ≠ .configure) (s : State) :
    exec i s = onLine s i.line (absentOf i s) (bodyOf s.build i) := by
  cases i <;> first | exact absurd rfl h | rfl

/-- CONFIGURE is itself. -/
theorem exec_of_configure {i : Instr} (h : i.op = .configure) :
    ∃ line a b, i = .configure line a b ∧ ∀ s, exec i s = execConfigure line a b s := by
  cases i with
  | configure line a b => exact ⟨line, a, b, rfl, fun _ => rfl⟩
  | _ => cases h

/-- A faulted block runs no instruction. -/
theorem exec_of_fault {s : State} {r : FaultRecord} (h : s.fault = some r) (i : Instr) :
    exec i s = .fault (.halted r) := by
  by_cases hc : i.op = .configure
  · obtain ⟨line, a, b, -, he⟩ := exec_of_configure hc
    rw [he, execConfigure, whenRunning_some h]
  · rw [exec_eq_onLine hc, onLine, whenRunning_some h]

/-- Only a running block answers a next state. -/
theorem exec_next_fault {i : Instr} {s t : State} (h : exec i s = .next t) : s.fault = none := by
  cases hf : s.fault with
  | none => rfl
  | some r => rw [exec_of_fault hf] at h; cases h

/-- A step on a configured line is its body's outcome. -/
theorem exec_of_live {i : Instr} (hc : i.op ≠ .configure) {s : State} {l : Live} (hf : s.fault = none)
    (hl : s.live i.line = some l) : exec i s = commit s i.line (bodyOf s.build i l) := by
  rw [exec_eq_onLine hc, onLine_live hf hl]

/-- Everything an instruction can do when it answers a next state: it leaves the state (an event without its line), it takes
a fault, or it writes its own line's record and gives at most one response. -/
theorem exec_next {i : Instr} {s t : State} (h : exec i s = .next t) :
    t = s ∨ (∃ k info, t = s.raiseFault k i.line info) ∨
      (∃ l l' r, i.op ≠ .configure ∧ s.live i.line = some l ∧ bodyOf s.build i l = .done (l', r) ∧
        t = (s.setChannel i.line l'.toChannel).respond r) ∨
      (∃ line a b c, i = .configure line a b ∧ s.ch[line.toNat]? = some c ∧ c.configured = false ∧
        t = (s.setChannel line (c.afterConfigure a b)).respond (some (mkResponse .configure line line.toNat []))) := by
  by_cases hc : i.op = .configure
  · obtain ⟨line, a, b, rfl, he⟩ := exec_of_configure hc
    rw [he] at h
    obtain ⟨-, ⟨-, rfl⟩ | ⟨c, hcc, ⟨-, rfl⟩ | ⟨hcf, rfl⟩⟩⟩ := execConfigure_next h
    · exact .inr (.inl ⟨_, _, rfl⟩)
    · exact .inr (.inl ⟨_, _, rfl⟩)
    · exact .inr (.inr (.inr ⟨line, a, b, c, rfl, hcc, hcf, rfl⟩))
  · rw [exec_eq_onLine hc] at h
    obtain ⟨-, ⟨-, rfl⟩ | ⟨l, hl, ⟨l', r, hb, rfl⟩ | ⟨k, info, -, rfl⟩⟩⟩ := onLine_next h
    · unfold absentOf
      split
      · exact .inl rfl
      · exact .inr (.inl ⟨_, _, rfl⟩)
    · exact .inr (.inr (.inl ⟨l, l', r, hc, hl, hb, rfl⟩))
    · exact .inr (.inl ⟨_, _, rfl⟩)

end Sys2Proof.Machine
end

