-- ==== Sys2Proof/Laws/Bodies.lean ====
section
/-! SUPPORT. One lemma per shared body: everything it can do when it completes, what it can raise, and what every body leaves
alone on its own line. -/

namespace Sys2Proof.Machine

open Sys2Proof
open Sys2Proof.Config (Build)

/-! ### When a body completes -/

/-- A push: the buffer of `rbPush`, and its response (R134). -/
theorem pushBody_inv {o : Op} {line : Line} {b : Buf} {data : List Byte} {l l' : Live} {r : Option Response}
    (h : pushBody o line b data l = .done (l', r)) :
    l' = l.setRing b (rbPush (l.chan.capacity b) (l.regs.ring b) data).2 ∧
      r = some (mkResponse o line (min data.length (l.chan.capacity b - (l.regs.ring b).count)) []) := by
  simp only [pushBody, rbPush_k, Res.done.injEq, Prod.mk.injEq] at h
  exact ⟨h.1.symm, h.2.symm⟩

/-- A pop: the slots read, the buffer without them, and its response (R140). -/
theorem popBody_inv {o : Op} {line : Line} {b : Buf} {max : Nat} {l l' : Live} {r : Option Response}
    (h : popBody o line b max l = .done (l', r)) :
    ∃ out, readSlots (l.regs.ring b).store (l.chan.capacity b) (l.regs.ring b).tail (min max (l.regs.ring b).count) =
        some out ∧
      l' = l.setRing b { l.regs.ring b with
        tail := ((l.regs.ring b).tail + min max (l.regs.ring b).count) % l.chan.capacity b
        count := (l.regs.ring b).count - min max (l.regs.ring b).count } ∧
      r = some (mkResponse o line (min max (l.regs.ring b).count) out) := by
  obtain ⟨p, hp, h⟩ := Res.bind_eq_done.mp h
  rcases rbPop_cases (l.chan.capacity b) (l.regs.ring b) max with ⟨out, ho, he⟩ | ⟨-, he⟩
  · rw [he] at hp
    cases hp
    simp only [Res.done.injEq, Prod.mk.injEq] at h
    exact ⟨out, ho, h.1.symm, h.2.symm⟩
  · rw [he] at hp; cases hp

/-- A pop, as what the host is given (R100, R140). -/
theorem popBody_returns {o : Op} {line : Line} {b : Buf} {max : Nat} {l l' : Live} {r : Option Response}
    (h : popBody o line b max l = .done (l', r)) :
    ∃ v out, (l.regs.ring b).Returns (l.chan.capacity b) max v out ∧ r = some (mkResponse o line v out) := by
  obtain ⟨out, ho, -, hr⟩ := popBody_inv h
  exact ⟨_, out, ⟨rfl, readSlots_eq_some_iff.mp ho⟩, hr⟩

/-- The drain body: nothing on an armed line or an empty buffer, else the oldest byte goes out and the line arms (R186). -/
theorem drainBody_inv {l l' : Live} (h : drainBody l = .done l') :
    (l' = l ∧ (l.chan.txArmed = true ∨ l.regs.tx.count = 0)) ∨
      (l.chan.txArmed = false ∧ l.regs.txBusy = false ∧ 0 < l.regs.tx.count ∧
        ∃ v, l.regs.tx.store.read (l.regs.tx.tail % l.chan.caps.tx) = some v ∧
          l' = ⟨{ l.chan with txArmed := true, lineOut := l.chan.lineOut ++ [v] },
            { l.regs with
              tx := { l.regs.tx with
                tail := (l.regs.tx.tail + 1) % l.chan.caps.tx
                count := l.regs.tx.count - 1 }
              txBusy := true }⟩) := by
  unfold drainBody at h
  split at h
  · next hc =>
    simp [RingBuffer.isEmpty] at hc
    have h1 : min 1 l.regs.tx.count = 1 := by omega
    obtain ⟨p, hp, h⟩ := Res.bind_eq_done.mp h
    rcases rbPop_cases l.chan.caps.tx l.regs.tx 1 with ⟨out, ho, he⟩ | ⟨-, he⟩
    · rw [he] at hp
      cases hp
      rw [h1] at ho
      obtain ⟨v, bs, rfl, hr, -⟩ := readSlots_succ_eq_some.mp ho
      obtain ⟨l1, hw, h⟩ := Res.bind_eq_done.mp h
      obtain ⟨hb, rfl⟩ := hwWrite_eq_done.mp hw
      simp at h hb
      exact .inr ⟨hc.1, hb, by omega, v, hr, by rw [← h, h1]⟩
    · rw [he] at hp; cases hp
  · next hc =>
    simp [RingBuffer.isEmpty] at hc h
    refine .inl ⟨h.symm, ?_⟩
    cases ha : l.chan.txArmed <;> simp_all

/-- The drain body of an armed line or an empty buffer (R186). -/
theorem drainBody_idle {l : Live} (h : l.chan.txArmed = true ∨ l.regs.tx.count = 0) : drainBody l = .done l := by
  rcases h with h | h <;> simp [drainBody, h, RingBuffer.isEmpty]

theorem drainStep_inv {line : Line} {l l' : Live} {r : Option Response} (h : drainStep line l = .done (l', r)) :
    drainBody l = .done l' ∧ r = some (mkResponse .drain line 0 []) := by
  obtain ⟨a, h1, h2⟩ := Res.bind_eq_done.mp h
  simp only [Res.done.injEq, Prod.mk.injEq] at h2
  obtain ⟨rfl, rfl⟩ := h2
  exact ⟨h1, rfl⟩

/-- The body of WRITE: a push, and with AUTO_DRAIN the drain body after it (R180, R183). -/
theorem writeBody_inv {a : Bool} {line : Line} {data : List Byte} {l l' : Live} {r : Option Response}
    (h : writeBody a line data l = .done (l', r)) :
    ∃ l1, pushBody .write line .tx data l = .done (l1, r) ∧
      ((a = false ∧ l' = l1) ∨ (a = true ∧ drainBody l1 = .done l')) := by
  obtain ⟨⟨l1, r1⟩, h1, h2⟩ := Res.bind_eq_done.mp h
  cases a with
  | false =>
    simp at h2
    obtain ⟨rfl, rfl⟩ := h2
    exact ⟨l1, h1, .inl ⟨rfl, rfl⟩⟩
  | true =>
    obtain ⟨l2, h3, h4⟩ := Res.bind_eq_done.mp h2
    simp at h4
    obtain ⟨rfl, rfl⟩ := h4
    exact ⟨l1, h1, .inr ⟨rfl, h3⟩⟩

/-- The transmit branch: with nothing queued the line disarms, else the oldest byte goes out (R214). -/
theorem txBranch_inv {l l' : Live} (h : txBranch l = .done l') :
    (l.regs.tx.count = 0 ∧ l' = ⟨{ l.chan with txArmed := false },
      { l.regs with
        txDonePend := false
        tx := { l.regs.tx with tail := l.regs.tx.tail % l.chan.caps.tx, count := 0 } }⟩) ∨
    (l.regs.txBusy = false ∧ 0 < l.regs.tx.count ∧
      ∃ v, l.regs.tx.store.read (l.regs.tx.tail % l.chan.caps.tx) = some v ∧
        l' = ⟨{ l.chan with lineOut := l.chan.lineOut ++ [v] },
          { l.regs with
            tx := { l.regs.tx with
              tail := (l.regs.tx.tail + 1) % l.chan.caps.tx
              count := l.regs.tx.count - 1 }
            txBusy := true
            txDonePend := false }⟩) := by
  unfold txBranch at h
  obtain ⟨p, hp, h⟩ := Res.bind_eq_done.mp h
  rcases rbPop_cases l.chan.caps.tx l.regs.tx 1 with ⟨out, ho, he⟩ | ⟨-, he⟩
  · rw [he] at hp
    cases hp
    rcases Nat.eq_zero_or_pos l.regs.tx.count with h0 | h0
    · rw [h0] at ho
      simp at ho
      subst ho
      simp [h0] at h
      exact .inl ⟨h0, h.symm⟩
    · have h1 : min 1 l.regs.tx.count = 1 := by omega
      rw [h1] at ho
      obtain ⟨v, bs, rfl, hr, -⟩ := readSlots_succ_eq_some.mp ho
      obtain ⟨hb, rfl⟩ := hwWrite_eq_done.mp h
      exact .inr ⟨hb, h0, v, hr, by simp [h1]⟩
  · rw [he] at hp; cases hp

/-- The receive branch: nothing to read, or the oldest byte read and pushed unless malformed (R212, R213). -/
theorem rxBranch_cases (l : Live) :
    (l.regs.rxHw = [] ∧ rxBranch l = l) ∨
      ∃ e es, l.regs.rxHw = e :: es ∧
        rxBranch l = { l with regs := { l.regs with
          rxHw := es
          rx := if e.err then l.regs.rx else (rbPush l.chan.caps.rx l.regs.rx [e.data]).2 } } := by
  cases h : l.regs.rxHw with
  | nil => exact .inl ⟨rfl, by simp [rxBranch, hwRead, h]⟩
  | cons e es =>
    refine .inr ⟨e, es, rfl, ?_⟩
    simp [rxBranch, hwRead, h]
    split <;> simp_all

/-- The handler: the receive branch on its condition, then the transmit branch on the one sampled at entry (R210, R211). -/
theorem handler_inv {l l' : Live} (h : handler l = .done l') :
    (l.txCond = false ∧ l' = if l.rxCond then rxBranch l else l) ∨
      (l.txCond = true ∧ txBranch (if l.rxCond then rxBranch l else l) = .done l') := by
  unfold handler at h
  cases hc : l.txCond with
  | false => simp [hc] at h; exact .inl ⟨rfl, h.symm⟩
  | true => simp [hc] at h; exact .inr ⟨rfl, h⟩

theorem evIrq_inv {b : Build} {line : Line} {l l' : Live} {r : Option Response}
    (h : bodyOf b (.evIrq line) l = .done (l', r)) :
    r = none ∧ ((l.irqReq = false ∧ l' = l) ∨ (l.irqReq = true ∧ handler l = .done l')) := by
  obtain ⟨l1, h1, h2⟩ := Res.bind_eq_done.mp h
  simp only [Res.done.injEq, Prod.mk.injEq] at h2
  obtain ⟨rfl, rfl⟩ := h2
  refine ⟨rfl, ?_⟩
  split at h1
  · next hi => exact .inr ⟨hi, h1⟩
  · next hi => cases h1; exact .inl ⟨by simpa using hi, rfl⟩

theorem evTxDone_inv {b : Build} {line : Line} {l l' : Live} {r : Option Response}
    (h : bodyOf b (.evTxDone line) l = .done (l', r)) :
    r = none ∧ ((l.regs.txBusy = false ∧ l' = l) ∨
      (l.regs.txBusy = true ∧ l' = { l with regs := { l.regs with txBusy := false, txDonePend := true } })) := by
  obtain ⟨l1, h1, h2⟩ := Res.bind_eq_done.mp h
  simp only [Res.done.injEq, Prod.mk.injEq] at h2
  obtain ⟨rfl, rfl⟩ := h2
  refine ⟨rfl, ?_⟩
  split at h1
  · next hb => cases h1; exact .inr ⟨hb, rfl⟩
  · next hb => cases h1; exact .inl ⟨by simpa using hb, rfl⟩

theorem evRx_inv {b : Build} {line : Line} {err : Bool} {d : Byte} {l l' : Live} {r : Option Response}
    (h : bodyOf b (.evRx line err d) l = .done (l', r)) :
    r = none ∧ ((b.uartRxDepth ≤ l.regs.rxHw.length ∧ l' = l) ∨
      (l.regs.rxHw.length < b.uartRxDepth ∧
        l' = { l with regs := { l.regs with rxHw := l.regs.rxHw ++ [⟨d, err⟩] } })) := by
  obtain ⟨l1, h1, h2⟩ := Res.bind_eq_done.mp h
  simp only [Res.done.injEq, Prod.mk.injEq] at h2
  obtain ⟨rfl, rfl⟩ := h2
  refine ⟨rfl, ?_⟩
  split at h1
  · next hb => cases h1; exact .inr ⟨hb, rfl⟩
  · next hb => cases h1; exact .inl ⟨Nat.not_lt.mp hb, rfl⟩

/-! ### What a body raises -/

theorem Res.bind_eq_raised {α β : Type} {x : Res α} {f : α → Res β} {k : FaultKind} {n : BitVec 16} :
    x.bind f = .raised k n ↔ x = .raised k n ∨ ∃ a, x = .done a ∧ f a = .raised k n := by
  cases x <;> simp

theorem suspended_eq_raised {α : Type} {l : Live} {k : FaultKind} {n : BitVec 16} {body : Live → Res (Live × α)} :
    suspended l body = .raised k n ↔ body (suspend l).2 = .raised k n := by
  unfold suspended
  rw [Res.bind_eq_raised]
  simp

/-- A pop raises nothing. -/
theorem rbPop_ne_raised {N : Nat} {rb : RingBuffer} {max : Nat} {k : FaultKind} {n : BitVec 16} :
    rbPop N rb max ≠ .raised k n := by
  rcases rbPop_cases N rb max with ⟨o, -, h⟩ | ⟨-, h⟩ <;> rw [h] <;> simp

theorem popBody_ne_raised {o : Op} {line : Line} {b : Buf} {max : Nat} {l : Live} {k : FaultKind} {n : BitVec 16} :
    popBody o line b max l ≠ .raised k n := by
  intro h
  rcases Res.bind_eq_raised.mp h with h | ⟨a, -, h⟩
  · exact rbPop_ne_raised h
  · cases h

/-- Writing the UART raises TX_OVERRUN with the byte, and only while it is busy (R43). -/
theorem hwWrite_eq_raised {l : Live} {v : Byte} {k : FaultKind} {n : BitVec 16} :
    hwWrite l v = .raised k n ↔ l.regs.txBusy = true ∧ k = .txOverrun ∧ n = v.setWidth 16 := by
  unfold hwWrite
  cases l.regs.txBusy <;> simp [eq_comm]

/-! ### What a body leaves alone -/

/-- What every body leaves as it was on its own line: the capacities, the receive enable, the line enable, the pins. -/
structure Kept (l l' : Live) : Prop where
  caps : l'.chan.caps = l.chan.caps
  rxIe : l'.chan.rxIe = l.chan.rxIe
  lineEn : l'.chan.lineEn = l.chan.lineEn
  txPin : l'.regs.txPin = l.regs.txPin
  rxPin : l'.regs.rxPin = l.regs.rxPin

theorem Kept.refl (l : Live) : Kept l l := ⟨rfl, rfl, rfl, rfl, rfl⟩

theorem Kept.trans {a b c : Live} (h : Kept a b) (h' : Kept b c) : Kept a c :=
  ⟨h'.caps.trans h.caps, h'.rxIe.trans h.rxIe, h'.lineEn.trans h.lineEn, h'.txPin.trans h.txPin, h'.rxPin.trans h.rxPin⟩

theorem Kept.setRing (l : Live) (b : Buf) (rb : RingBuffer) : Kept l (l.setRing b rb) := by
  cases b <;> exact ⟨rfl, rfl, rfl, rfl, rfl⟩

theorem Kept.restore {l l1 : Live} (h : Kept (suspend l).2 l1) : Kept l (restore l.chan.lineEn l1) :=
  ⟨h.caps, h.rxIe, rfl, h.txPin, h.rxPin⟩

theorem pushBody_kept {o : Op} {line : Line} {b : Buf} {data : List Byte} {l l' : Live} {r : Option Response}
    (h : pushBody o line b data l = .done (l', r)) : Kept l l' := by
  rw [(pushBody_inv h).1]; exact Kept.setRing _ _ _

theorem popBody_kept {o : Op} {line : Line} {b : Buf} {max : Nat} {l l' : Live} {r : Option Response}
    (h : popBody o line b max l = .done (l', r)) : Kept l l' := by
  obtain ⟨_, _, rfl, _⟩ := popBody_inv h; exact Kept.setRing _ _ _

theorem drainBody_kept {l l' : Live} (h : drainBody l = .done l') : Kept l l' := by
  rcases drainBody_inv h with ⟨rfl, -⟩ | ⟨-, -, -, v, -, rfl⟩ <;> exact ⟨rfl, rfl, rfl, rfl, rfl⟩

theorem writeBody_kept {a : Bool} {line : Line} {data : List Byte} {l l' : Live} {r : Option Response}
    (h : writeBody a line data l = .done (l', r)) : Kept l l' := by
  obtain ⟨l1, h1, ⟨-, rfl⟩ | ⟨-, h2⟩⟩ := writeBody_inv h
  · exact pushBody_kept h1
  · exact (pushBody_kept h1).trans (drainBody_kept h2)

/-- The receive branch leaves, besides, the whole transmit side. -/
theorem rxBranch_kept (l : Live) :
    Kept l (rxBranch l) ∧ (rxBranch l).regs.tx = l.regs.tx ∧ (rxBranch l).regs.txBusy = l.regs.txBusy ∧
      (rxBranch l).regs.txDonePend = l.regs.txDonePend ∧ (rxBranch l).chan.txArmed = l.chan.txArmed ∧
      (rxBranch l).chan.lineOut = l.chan.lineOut := by
  rcases rxBranch_cases l with ⟨_, h⟩ | ⟨e, es, _, h⟩ <;> rw [h] <;>
    exact ⟨⟨rfl, rfl, rfl, rfl, rfl⟩, rfl, rfl, rfl, rfl, rfl⟩

theorem handler_kept {l l' : Live} (h : handler l = .done l') : Kept l l' := by
  have hk : Kept l (if l.rxCond then rxBranch l else l) := by
    split
    · exact (rxBranch_kept l).1
    · exact Kept.refl l
  rcases handler_inv h with ⟨-, rfl⟩ | ⟨-, h⟩
  · exact hk
  · refine hk.trans ?_
    rcases txBranch_inv h with ⟨-, rfl⟩ | ⟨-, -, v, -, rfl⟩ <;> exact ⟨rfl, rfl, rfl, rfl, rfl⟩

/-- Every body that completes leaves the fields of `Kept`. -/
theorem bodyOf_kept {b : Build} {i : Instr} {l l' : Live} {r : Option Response}
    (h : bodyOf b i l = .done (l', r)) : Kept l l' := by
  cases i with
  | configure => cases h; exact Kept.refl _
  | readAvailable line max => obtain ⟨l1, h1, rfl⟩ := suspended_eq_done.mp h; exact (popBody_kept h1).restore
  | write line data => obtain ⟨l1, h1, rfl⟩ := suspended_eq_done.mp h; exact (writeBody_kept h1).restore
  | drain line =>
    obtain ⟨l1, h1, rfl⟩ := suspended_eq_done.mp h
    exact (drainBody_kept (drainStep_inv h1).1).restore
  | rbIsEmpty line buf => cases h; exact Kept.refl _
  | rbIsFull line buf => cases h; exact Kept.refl _
  | rbPushP line buf data =>
    simp only [bodyOf] at h
    split at h
    · obtain ⟨l1, h1, rfl⟩ := suspended_eq_done.mp h; exact (pushBody_kept h1).restore
    · cases h
  | rbPopP line buf max =>
    simp only [bodyOf] at h
    split at h
    · obtain ⟨l1, h1, rfl⟩ := suspended_eq_done.mp h; exact (popBody_kept h1).restore
    · cases h
  | rbPushU line buf data =>
    simp only [bodyOf] at h
    split at h
    · exact pushBody_kept h
    · cases h
  | rbPopU line buf max =>
    simp only [bodyOf] at h
    split at h
    · exact popBody_kept h
    · cases h
  | evIrq line =>
    obtain ⟨-, ⟨-, rfl⟩ | ⟨-, h⟩⟩ := evIrq_inv h
    · exact Kept.refl _
    · exact handler_kept h
  | evRx line e d => obtain ⟨-, ⟨-, rfl⟩ | ⟨-, rfl⟩⟩ := evRx_inv h <;> exact ⟨rfl, rfl, rfl, rfl, rfl⟩
  | evTxDone line => obtain ⟨-, ⟨-, rfl⟩ | ⟨-, rfl⟩⟩ := evTxDone_inv h <;> exact ⟨rfl, rfl, rfl, rfl, rfl⟩

/-! ### TX_OVERRUN -/

/-- A pop of one byte of a non-empty buffer: the oldest byte, or its slot holds no value. -/
theorem rbPop_one {N : Nat} {rb : RingBuffer} (h : 0 < rb.count) :
    (∃ v, rb.store.read (rb.tail % N) = some v ∧
      rbPop N rb 1 = .done ⟨1, [v], { rb with tail := (rb.tail + 1) % N, count := rb.count - 1 }⟩) ∨
      (rb.store.read (rb.tail % N) = none ∧ rbPop N rb 1 = .stuck .slotUnwritten) := by
  have h1 : min 1 rb.count = 1 := by omega
  unfold rbPop
  cases hr : rb.store.read (rb.tail % N) <;> simp [h1, readSlots, hr]

/-- The drain body raises TX_OVERRUN alone: on a disarmed busy line with bytes queued, with the oldest byte (R43, R186). -/
theorem drainBody_eq_raised {l : Live} {k : FaultKind} {n : BitVec 16} :
    drainBody l = .raised k n ↔ l.chan.txArmed = false ∧ l.regs.txBusy = true ∧ 0 < l.regs.tx.count ∧
      ∃ v, l.regs.tx.store.read (l.regs.tx.tail % l.chan.caps.tx) = some v ∧ k = .txOverrun ∧ n = v.setWidth 16 := by
  by_cases hc : l.chan.txArmed = true ∨ l.regs.tx.count = 0
  · rw [drainBody_idle hc]
    simp only [reduceCtorEq, false_iff, not_and]
    rintro ha - h0
    rcases hc with hc | hc
    · rw [ha] at hc; cases hc
    · omega
  · simp only [not_or, Bool.not_eq_true] at hc
    have h0 : 0 < l.regs.tx.count := Nat.pos_of_ne_zero hc.2
    unfold drainBody
    rcases rbPop_one (N := l.chan.caps.tx) h0 with ⟨v, hv, hp⟩ | ⟨hv, hp⟩
    · simp only [hp, hv, hc.1, RingBuffer.isEmpty, beq_false_of_ne hc.2, Bool.not_false, Bool.and_self, if_true,
        Res.bind_done, Res.bind_eq_raised, hwWrite_eq_raised, reduceCtorEq, and_false, exists_false, or_false]
      simp [h0, Live.setRing, Regs.setRing]
    · simp [hp, hv, hc, RingBuffer.isEmpty]

/-- The transmit branch raises TX_OVERRUN alone: on a busy line with bytes queued, with the oldest byte (R43, R214). -/
theorem txBranch_eq_raised {l : Live} {k : FaultKind} {n : BitVec 16} :
    txBranch l = .raised k n ↔ l.regs.txBusy = true ∧ 0 < l.regs.tx.count ∧
      ∃ v, l.regs.tx.store.read (l.regs.tx.tail % l.chan.caps.tx) = some v ∧ k = .txOverrun ∧ n = v.setWidth 16 := by
  unfold txBranch
  rcases Nat.eq_zero_or_pos l.regs.tx.count with h0 | h0
  · simp [h0, rbPop]
  · rcases rbPop_one (N := l.chan.caps.tx) h0 with ⟨v, hv, hp⟩ | ⟨hv, hp⟩
    · simp [hp, hv, h0, hwWrite_eq_raised]
    · simp [hp, hv]

/-- WRITE raises TX_OVERRUN alone, with AUTO_DRAIN, as the drain body does after the push (R183). -/
theorem writeBody_eq_raised {a : Bool} {line : Line} {data : List Byte} {l : Live} {k : FaultKind} {n : BitVec 16} :
    writeBody a line data l = .raised k n ↔
      a = true ∧ drainBody (l.setRing .tx (rbPush l.chan.caps.tx l.regs.tx data).2) = .raised k n := by
  simp only [writeBody, pushBody, Res.bind_done]
  cases a <;> simp [Res.bind_eq_raised, Channel.capacity, Regs.ring]

/-- The handler raises TX_OVERRUN alone: with its transmit condition, on a busy line with bytes queued, with the oldest
byte; what the receive branch did does not matter (R43, R210, R211). -/
theorem handler_eq_raised {l : Live} {k : FaultKind} {n : BitVec 16} :
    handler l = .raised k n ↔ l.txCond = true ∧ l.regs.txBusy = true ∧ 0 < l.regs.tx.count ∧
      ∃ v, l.regs.tx.store.read (l.regs.tx.tail % l.chan.caps.tx) = some v ∧ k = .txOverrun ∧ n = v.setWidth 16 := by
  obtain ⟨hk, ht, hb, -⟩ := rxBranch_kept l
  unfold handler
  cases hc : l.txCond with
  | false => simp
  | true =>
    simp only [if_true, txBranch_eq_raised, true_and]
    split <;> simp [ht, hb, hk.caps]

/-! ### The transmit state -/

/-- A channel is in a transmit state of R38 exactly when its three flags are those of one. -/
theorem Live.txState_isSome (l : Live) :
    l.txState.isSome = true ↔ (l.chan.txArmed, l.regs.txBusy, l.regs.txDonePend) ∈
      [(false, false, false), (true, true, false), (true, false, true)] := by
  unfold Live.txState
  cases l.chan.txArmed <;> cases l.regs.txBusy <;> cases l.regs.txDonePend <;> simp

/-- Reading a line after a step wrote its own line's record. -/
theorem State.live_after {s : State} {line line' : Line} {l l' : Live} {r : Option Response}
    (hl : s.live line = some l) :
    ((s.setChannel line l'.toChannel).respond r).live line' =
      if line' = line then some ⟨l'.toChannel, l'.regs⟩ else s.live line' := by
  rw [State.respond_live]
  split
  · next h => subst h; exact State.live_setChannel_toChannel _ (State.live_lt hl)
  · next h => exact State.live_setChannel_of_ne _ (Ne.symm h)

/-- What is on a line's wire after a step wrote its own line's record. -/
theorem State.lineOut_after {s : State} {line line' : Line} {l l' : Live} {r : Option Response}
    (hl : s.live line = some l) :
    ((s.setChannel line l'.toChannel).respond r).lineOut line' =
      if line' = line then l'.chan.lineOut else s.lineOut line' := by
  rw [State.respond_lineOut]
  split
  · next h => subst h; exact State.lineOut_setChannel_self _ (State.live_lt hl)
  · next h => exact State.lineOut_setChannel_of_ne _ (Ne.symm h)

/-- A configured line of a block that meets the invariant meets its own. -/
theorem State.Inv.live_ok {s : State} (h : s.Inv) {line : Line} {l : Live} (hl : s.live line = some l) :
    l.Ok s.build := by
  obtain ⟨h1, h2⟩ := State.live_eq_some.mp hl
  exact (h.channels _ (List.mem_of_getElem? h1)).live _ h2

/-- The storage of every buffer of the power-up state is in canonical form: no line has one. -/
theorem State.powerUp_storage_wf (p : Config.Params) :
    ∀ c ∈ (State.powerUp p).ch, ∀ r, c.regs = some r → r.rx.store.wf = true ∧ r.tx.store.wf = true := by
  simp [Channel.powerUp]

/-- A buffer as CONFIGURE leaves it has its storage in canonical form. -/
theorem RingBuffer.fresh_storage_wf : RingBuffer.fresh.store.wf = true := rfl

/-- A push keeps the storage in canonical form. -/
theorem rbPush_storage_wf {N : Nat} {rb : RingBuffer} (data : List Byte) (h : rb.store.wf = true) :
    (rbPush N rb data).2.store.wf = true := wf_writeSlots _ _ _ h

/-! ### The response word -/

/-- The fields of a response word: OP, LINE, zeros, VALUE (R100). -/
theorem mkResponse_fields (o : Op) (line : Line) (v : Nat) (data : List Byte) :
    opField (mkResponse o line v data).word = o.code ∧ lineField (mkResponse o line v data).word = line ∧
      (mkResponse o line v data).word.extractLsb' 16 8 = 0 ∧
      lenField (mkResponse o line v data).word = BitVec.ofNat 16 v := by
  have hw : (mkResponse o line v data).word = headed o line (0#8 ++ BitVec.ofNat 16 v) := by
    simp only [mkResponse, headed]
    apply BitVec.eq_of_getLsbD_eq
    intro i hi
    simp only [BitVec.getLsbD_append]
    grind
  rw [hw]
  refine ⟨opField_headed _ _ _, lineField_headed _ _ _, ?_, ?_⟩
  · rw [extract_headed _ _ _ (by omega)]
    apply BitVec.eq_of_getLsbD_eq
    intro i hi
    simp only [BitVec.getLsbD_append, BitVec.getLsbD_extractLsb']
    simp
  · rw [lenField, extract_headed _ _ _ (by omega)]
    apply BitVec.eq_of_getLsbD_eq
    intro i hi
    simp only [BitVec.getLsbD_append, BitVec.getLsbD_extractLsb']
    simp
    omega

end Sys2Proof.Machine
end

