-- ==== Sys2Proof/Laws/PerInstr.lean ====
section
/-! SUPPORT. A statement about every instruction as syntax: the shape of its encoding. -/

namespace Sys2Proof.Laws.EncodedShape

open Sys2Proof

/-- The encoding of a step is its word and its data bytes; the word carries the step's OP and LINE in their fields and zeros
in the bits every format reserves (R90 to R93, R98). -/
def Statement (i : Instr) : Prop :=
  (encode i).length = 4 + i.dataBytes.length ∧ opField i.word = i.op.code ∧ lineField i.word = i.line ∧
    reservedField i.word = 0

/-- What every instruction's lemma needs: the bits its format puts in the reserved field are zero. -/
theorem of_reserved {i : Instr} (h : i.lowBits.extractLsb' 17 7 = 0) : Statement i := by
  refine ⟨by simp [encode, bytesOfWord]; omega, opField_headed _ _ _, lineField_headed _ _ _, ?_⟩
  rw [reservedField, Instr.word, extract_headed _ _ _ (by omega), h]

theorem configure (l : Line) (a b : Byte) : Statement (.configure l a b) := of_reserved (lowFC_fields a b).1
theorem readAvailable (l : Line) (n : BitVec 16) : Statement (.readAvailable l n) := of_reserved (lowFL_fields n).1
theorem write (l : Line) (data : List Byte) : Statement (.write l data) := of_reserved (lowFL_fields _).1
theorem drain (l : Line) : Statement (.drain l) := of_reserved lowFN_fields.1
theorem rbIsEmpty (l : Line) (b : Buf) : Statement (.rbIsEmpty l b) := of_reserved (lowFQ_fields b).1
theorem rbIsFull (l : Line) (b : Buf) : Statement (.rbIsFull l b) := of_reserved (lowFQ_fields b).1
theorem rbPushP (l : Line) (b : Buf) (data : List Byte) : Statement (.rbPushP l b data) :=
  of_reserved (lowFB_fields b _).1
theorem rbPopP (l : Line) (b : Buf) (n : BitVec 16) : Statement (.rbPopP l b n) := of_reserved (lowFB_fields b n).1
theorem rbPushU (l : Line) (b : Buf) (data : List Byte) : Statement (.rbPushU l b data) :=
  of_reserved (lowFB_fields b _).1
theorem rbPopU (l : Line) (b : Buf) (n : BitVec 16) : Statement (.rbPopU l b n) := of_reserved (lowFB_fields b n).1
theorem evIrq (l : Line) : Statement (.evIrq l) := of_reserved lowFN_fields.1
theorem evRx (l : Line) (e : Bool) (d : Byte) : Statement (.evRx l e d) := of_reserved (lowFR_fields e d).1
theorem evTxDone (l : Line) : Statement (.evTxDone l) := of_reserved lowFN_fields.1

end Sys2Proof.Laws.EncodedShape
end

