-- ==== Sys2Proof/Tests/Slice0.lean ====
section
/-! SUPPORT. Tests of the model against spec/95_test_vectors.md and hand calculation from the rules, and for every obligation
with hypotheses a concrete state and operands that meet them. -/

namespace Sys2Proof.Tests

open Sys2Proof Sys2Proof.Machine

/-! ### WellFormed: an ill-formed term for each check (R95) -/

theorem test_wellFormed_accepts_the_longest : lenFits (List.replicate 65535 0) = true := by
  rw [lenFits, List.length_replicate]; decide
theorem test_write_too_long_is_ill_formed (l : Line) : (Instr.write l (List.replicate 65536 0)).wellFormed = false := by
  rw [Instr.wellFormed, lenFits, List.length_replicate]; decide
theorem test_rbPushP_too_long_is_ill_formed (l : Line) (b : Buf) :
    (Instr.rbPushP l b (List.replicate 65536 0)).wellFormed = false := by
  rw [Instr.wellFormed, lenFits, List.length_replicate]; decide
theorem test_rbPushU_too_long_is_ill_formed (l : Line) (b : Buf) :
    (Instr.rbPushU l b (List.replicate 65536 0)).wellFormed = false := by
  rw [Instr.wellFormed, lenFits, List.length_replicate]; decide

/-! ### Decoding: every opcode's word, written out from 30_encoding R103 and 95_test_vectors -/

/-- V-X1. -/
theorem test_decode_configure : decode .command [0x05, 0x04, 0x00, 0x10] = .ok (.configure 0 4 5) [] := by decide
/-- V-C16 on line 11, LEN 0x8004: 2B00_8004. -/
theorem test_decode_readAvailable : decode .command [0x04, 0x80, 0x00, 0x2B] = .ok (.readAvailable 11 0x8004) [] := by
  decide
/-- V-C17. -/
theorem test_decode_write : decode .command [0x02, 0x00, 0x00, 0x30, 0x90, 0x40] = .ok (.write 0 [0x90, 0x40]) [] := by
  decide
/-- V-C7. -/
theorem test_decode_drain : decode .command [0x00, 0x00, 0x00, 0x41] = .ok (.drain 1) [] := by decide
/-- V-RB5. -/
theorem test_decode_rbIsEmpty : decode .leaf [0x00, 0x00, 0x01, 0x60] = .ok (.rbIsEmpty 0 .tx) [] := by decide
/-- V-RB4 on the receive buffer of line 15: 7F00_0000. -/
theorem test_decode_rbIsFull : decode .leaf [0x00, 0x00, 0x00, 0x7F] = .ok (.rbIsFull 15 .rx) [] := by decide
/-- V-RB1. -/
theorem test_decode_rbPushP : decode .leaf [0x03, 0x00, 0x01, 0x80, 1, 2, 3] = .ok (.rbPushP 0 .tx [1, 2, 3]) [] := by
  decide
/-- V-RB14. -/
theorem test_decode_rbPopP : decode .leaf [0x01, 0x00, 0x00, 0x90] = .ok (.rbPopP 0 .rx 1) [] := by decide
/-- V-RB13, with a byte of the next step after it. -/
theorem test_decode_rbPushU : decode .leaf [0x01, 0x00, 0x00, 0xA0, 0xAA, 0xBB] = .ok (.rbPushU 0 .rx [0xAA]) [0xBB] := by
  decide
/-- V-RB2. -/
theorem test_decode_rbPopU : decode .leaf [0x02, 0x00, 0x01, 0xB0] = .ok (.rbPopU 0 .tx 2) [] := by decide
/-- V-E2. -/
theorem test_decode_evIrq : decode .event [0x00, 0x00, 0x00, 0xC0] = .ok (.evIrq 0) [] := by decide
/-- V-X3. -/
theorem test_decode_evRx : decode .event [0x22, 0x01, 0x00, 0xD1] = .ok (.evRx 1 true 0x22) [] := by decide
/-- V-E9. -/
theorem test_decode_evTxDone : decode .event [0x00, 0x00, 0x00, 0xE0] = .ok (.evTxDone 0) [] := by decide

/-- V-X4, V-X5, V-X6, V-X14: the reserved OPs, before any reserved bit. -/
theorem test_decode_reserved_op :
    decode .command [0, 0, 0, 0] = .illegal .reservedOp 0x00000000 ∧
    decode .command [0x34, 0x12, 0x00, 0x53] = .illegal .reservedOp 0x53001234 ∧
    decode .event [0, 0, 0, 0xF0] = .illegal .reservedOp 0xF0000000 ∧
    decode .leaf [0, 0, 0x80, 0] = .illegal .reservedOp 0x00800000 := by
  decide
/-- V-X7, V-X8, V-X11, V-X12, V-X13: bits a format reserves. -/
theorem test_decode_reserved_bits :
    decode .command [0x01, 0, 0, 0x40] = .illegal .reservedBits 0x40000001 ∧
    decode .command [0x05, 0x04, 0x01, 0x10] = .illegal .reservedBits 0x10010405 ∧
    decode .leaf [0x01, 0, 0x01, 0x60] = .illegal .reservedBits 0x60010001 ∧
    decode .event [0x11, 0x02, 0, 0xD0] = .illegal .reservedBits 0xD0000211 ∧
    decode .command [0, 0, 0x01, 0x35] = .illegal .reservedBits 0x35010000 := by
  decide
/-- V-X9, V-X10: an OP that its port does not accept. -/
theorem test_decode_wrong_port :
    decode .command [0, 0, 0, 0xC0] = .illegal .wrongPort 0xC0000000 ∧
    decode .event [0x01, 0, 0, 0x30] = .illegal .wrongPort 0x30000001 := by
  decide
/-- R98: a word cut short, and data bytes cut short (log 7). -/
theorem test_decode_cut_short :
    decode .command [0, 0, 0] = .truncatedWord ∧ decode .command [2, 0, 0, 0x30, 9] = .missingData := by
  decide

/-- R105: assembly lines. -/
theorem test_asm : (Instr.write 0 [0x90, 0x40]).asm = "WRITE 0, [144, 64]" ∧
    (Instr.evRx 1 true 0x22).asm = "EV_RX 1, 34, err" ∧ (Instr.drain 3).asm = "DRAIN 3" := by
  decide

/-! ### A small block: line 0 configured, line 1 not, capacities 4 (95_test_vectors, conventions) -/

/-- A ring buffer that holds `bs` from slot 0 on. -/
def tRing (bs : List Byte) : RingBuffer where
  store := bs.zipIdx.map fun x => (x.2, x.1)
  head := bs.length % 4
  tail := 0
  count := bs.length

/-- Transmit flags of the three states of R38: `tx_armed`, `tx_busy`, `tx_done_pend`. -/
def tIdle : Bool × Bool × Bool := (false, false, false)
def tBusy : Bool × Bool × Bool := (true, true, false)
def tReady : Bool × Bool × Bool := (true, false, true)
/-- A disarmed channel whose transmitter is busy: no run reaches it. -/
def tStray : Bool × Bool × Bool := (false, true, false)

/-- Register values with given flags, UART bytes and buffers. -/
def tRegs (f : Bool × Bool × Bool) (hw : List RxEntry) (rx tx : RingBuffer) : Regs where
  txPin := 4
  rxPin := 5
  rx := rx
  tx := tx
  rxHw := hw
  txBusy := f.2.1
  txDonePend := f.2.2

/-- A configured line. -/
def tLiveR (f : Bool × Bool × Bool) (hw : List RxEntry) (rx tx : RingBuffer) : Live where
  chan :=
    { caps := ⟨4, 4⟩, rxIe := true, txArmed := f.1, lineEn := true, lineOut := [], regs := some (tRegs f hw rx tx) }
  regs := tRegs f hw rx tx

/-- A configured line whose buffers hold the given bytes from slot 0 on. -/
def tLive (f : Bool × Bool × Bool) (hw : List RxEntry) (rx tx : List Byte) : Live := tLiveR f hw (tRing rx) (tRing tx)

/-- The block with that line 0. -/
def tBlock (autoDrain : Bool) (l : Live) : State where
  build := { autoDrain := autoDrain, uartRxDepth := 4, clocking := .async, rxErrMask := 0 }
  ch := [l.chan, Channel.powerUp ⟨4, 4⟩]
  fault := none
  pending := []
  responses := []

/-- The block with a fault recorded. -/
def tFaulted : State := { tBlock false (tLive tIdle [] [] []) with fault := some ⟨.notConfigured, 1, 4⟩ }

/-- What the tests look at on a line, and the last response. -/
structure TView where
  rx   : Option (List Byte)
  tx   : Option (List Byte)
  st   : Option TxState
  out  : List Byte
  last : Option Response
deriving DecidableEq, Repr

/-- What a step leaves on a line: the buffers' contents, the transmit state, the wire; and the last response. -/
def tView (o : Outcome) (line : Line) : Option TView :=
  (next? o).map fun t =>
    ⟨t.rxContents line, t.txContents line, t.txState line, t.lineOut line, t.responses.getLast?⟩

/-- Head, tail and count of a line's transmit buffer after a step. -/
def tPlaces (o : Outcome) (line : Line) : Option (Nat × Nat × Nat) :=
  (next? o).bind fun t => (t.live line).map fun l => (l.regs.tx.head, l.regs.tx.tail, l.regs.tx.count)

/-- The bytes the UART holds on a line after a step. -/
def tHw (o : Outcome) (line : Line) : Option (List RxEntry) :=
  (next? o).bind fun t => (t.live line).map fun l => l.regs.rxHw

/-- The fault record after a step. -/
def tFault (o : Outcome) : Option FaultRecord := (next? o).bind fun t => t.fault

/-! ### One step per test, expected results from 95_test_vectors -/

/-- V-C1: the handle, and the line as R172 leaves it. -/
theorem test_configure :
    tView (exec (.configure 0 4 5) State.reset) 0 = some ⟨some [], some [], some .idle, [], some ⟨0x10000000, []⟩⟩ := by
  decide
/-- V-C2: the handle is the line number. -/
theorem test_configure_handle :
    (next? (exec (.configure 1 0x10 0x11) State.reset)).map (fun t => t.responses) = some [⟨0x11000001, []⟩] := by
  decide
/-- V-C16. -/
theorem test_readAvailable :
    tView (exec (.readAvailable 0 4) (tBlock false (tLive tIdle [] [0x11, 0x33] []))) 0 =
      some ⟨some [], some [], some .idle, [], some ⟨0x20000002, [0x11, 0x33]⟩⟩ := by
  decide
/-- V-C15: a maximum of 0 takes nothing. -/
theorem test_readAvailable_zero :
    tView (exec (.readAvailable 0 0) (tBlock false (tLive tIdle [] [0x11] []))) 0 =
      some ⟨some [0x11], some [], some .idle, [], some ⟨0x20000000, []⟩⟩ := by
  decide
/-- V-C9: five bytes into four slots. -/
theorem test_write_overflow :
    tView (exec (.write 0 [1, 2, 3, 4, 5]) (tBlock false (tLive tIdle [] [] []))) 0 =
      some ⟨some [], some [1, 2, 3, 4], some .idle, [], some ⟨0x30000004, []⟩⟩ := by
  decide
/-- V-C17: with AUTO_DRAIN the first byte goes out. -/
theorem test_write_autoDrain :
    tView (exec (.write 0 [0x90, 0x40]) (tBlock true (tLive tIdle [] [] []))) 0 =
      some ⟨some [], some [0x40], some .armedBusy, [0x90], some ⟨0x30000002, []⟩⟩ := by
  decide
/-- W1, step 1. -/
theorem test_drain :
    tView (exec (.drain 0) (tBlock false (tLive tIdle [] [] [0x90, 0x40, 0x7F]))) 0 =
      some ⟨some [], some [0x40, 0x7F], some .armedBusy, [0x90], some ⟨0x40000000, []⟩⟩ := by
  decide
/-- V-C13: DRAIN of an armed line. -/
theorem test_drain_armed :
    tView (exec (.drain 0) (tBlock false (tLive tBusy [] [] [2, 3, 4]))) 0 =
      some ⟨some [], some [2, 3, 4], some .armedBusy, [], some ⟨0x40000000, []⟩⟩ := by
  decide
/-- V-RB8 and V-RB5. -/
theorem test_rbIsEmpty :
    (tView (exec (.rbIsEmpty 0 .tx) (tBlock false (tLive tIdle [] [] []))) 0).map (fun v => v.last) =
      some (some ⟨0x60000001, []⟩) ∧
    (tView (exec (.rbIsEmpty 0 .tx) (tBlock false (tLive tIdle [] [] [3, 4, 5, 6]))) 0).map (fun v => v.last) =
      some (some ⟨0x60000000, []⟩) := by
  decide
/-- V-RB4, and R152 on a buffer that is not full. -/
theorem test_rbIsFull :
    (tView (exec (.rbIsFull 0 .tx) (tBlock false (tLive tIdle [] [] [3, 4, 5, 6]))) 0).map (fun v => v.last) =
      some (some ⟨0x70000001, []⟩) ∧
    (tView (exec (.rbIsFull 0 .tx) (tBlock false (tLive tIdle [] [] [3, 4, 5]))) 0).map (fun v => v.last) =
      some (some ⟨0x70000000, []⟩) := by
  decide

/-- The transmit buffer of V-RB3's start: [3] at (3,2,1). -/
def tWrapped : RingBuffer where
  store := [(0, 1), (1, 2), (2, 3)]
  head := 3
  tail := 2
  count := 1

/-- V-RB3: the push wraps. -/
theorem test_rbPushP_wraps :
    tView (exec (.rbPushP 0 .tx [4, 5, 6]) (tBlock false (tLiveR tIdle [] (tRing []) tWrapped))) 0 =
      some ⟨some [], some [3, 4, 5, 6], some .idle, [], some ⟨0x80000003, []⟩⟩ ∧
    tPlaces (exec (.rbPushP 0 .tx [4, 5, 6]) (tBlock false (tLiveR tIdle [] (tRing []) tWrapped))) 0 =
      some (2, 2, 4) := by
  decide
/-- V-RB6: a full buffer accepts nothing. -/
theorem test_rbPushP_full :
    tView (exec (.rbPushP 0 .tx [7]) (tBlock false (tLive tIdle [] [] [3, 4, 5, 6]))) 0 =
      some ⟨some [], some [3, 4, 5, 6], some .idle, [], some ⟨0x80000000, []⟩⟩ := by
  decide
/-- V-RB14. -/
theorem test_rbPopP :
    tView (exec (.rbPopP 0 .rx 1) (tBlock false (tLive tIdle [] [0xAA] []))) 0 =
      some ⟨some [], some [], some .idle, [], some ⟨0x90000001, [0xAA]⟩⟩ := by
  decide
/-- V-RB13. -/
theorem test_rbPushU :
    tView (exec (.rbPushU 0 .rx [0xAA]) (tBlock false (tLive tIdle [] [] []))) 0 =
      some ⟨some [0xAA], some [], some .idle, [], some ⟨0xA0000001, []⟩⟩ := by
  decide
/-- V-RB2: the places move, nothing is sent. -/
theorem test_rbPopU :
    tView (exec (.rbPopU 0 .tx 2) (tBlock false (tLive tIdle [] [] [1, 2, 3]))) 0 =
      some ⟨some [], some [3], some .idle, [], some ⟨0xB0000002, [1, 2]⟩⟩ ∧
    tPlaces (exec (.rbPopU 0 .tx 2) (tBlock false (tLive tIdle [] [] [1, 2, 3]))) 0 = some (3, 2, 1) := by
  decide
/-- V-E12: both branches in one entry. -/
theorem test_evIrq_both :
    tView (exec (.evIrq 0) (tBlock false (tLive tReady [⟨0x33, false⟩] [] [7]))) 0 =
      some ⟨some [0x33], some [], some .armedBusy, [7], none⟩ := by
  decide
/-- V-E3, second step: a malformed byte is discarded; with nothing queued the line disarms (V-E11). -/
theorem test_evIrq_malformed_and_disarm :
    tView (exec (.evIrq 0) (tBlock false (tLive tReady [⟨0x22, true⟩] [0x11] []))) 0 =
      some ⟨some [0x11], some [], some .idle, [], none⟩ := by
  decide
/-- V-E1. -/
theorem test_evRx :
    tHw (exec (.evRx 0 false 0x11) (tBlock false (tLive tIdle [] [] []))) 0 = some [⟨0x11, false⟩] := by
  decide
/-- V-E5, at depth 4: the byte is lost in the UART. -/
theorem test_evRx_full :
    tHw (exec (.evRx 0 false 0x22) (tBlock false (tLive tIdle (List.replicate 4 ⟨0x11, false⟩) [] []))) 0 =
      some (List.replicate 4 ⟨0x11, false⟩) := by
  decide
/-- V-E9. -/
theorem test_evTxDone :
    tView (exec (.evTxDone 0) (tBlock false (tLive tBusy [] [] []))) 0 =
      some ⟨some [], some [], some .armedReady, [], none⟩ := by
  decide
/-- V-E13: no byte in flight. -/
theorem test_evTxDone_idle :
    tView (exec (.evTxDone 0) (tBlock false (tLive tIdle [] [] []))) 0 =
      some ⟨some [], some [], some .idle, [], none⟩ := by
  decide

/-! ### Faults, from 95_test_vectors -/

/-- V-C3 and V-C4. -/
theorem test_fault_configure :
    tFault (exec (.configure 2 0 0) State.reset) = some ⟨.configError, 2, 0⟩ ∧
    tFault (exec (.configure 0 4 5) (tBlock false (tLive tIdle [] [] []))) = some ⟨.reconfigure, 0, 0⟩ := by
  decide
/-- V-C5, V-C6, V-C7, V-RBF5 and V-RBF6: NOT_CONFIGURED, before the role check. -/
theorem test_fault_notConfigured :
    tFault (exec (.readAvailable 1 4) (tBlock false (tLive tIdle [] [] []))) = some ⟨.notConfigured, 1, 2⟩ ∧
    tFault (exec (.write 5 [1]) (tBlock false (tLive tIdle [] [] []))) = some ⟨.notConfigured, 5, 3⟩ ∧
    tFault (exec (.drain 1) (tBlock false (tLive tIdle [] [] []))) = some ⟨.notConfigured, 1, 4⟩ ∧
    tFault (exec (.rbIsEmpty 1 .rx) (tBlock false (tLive tIdle [] [] []))) = some ⟨.notConfigured, 1, 6⟩ ∧
    tFault (exec (.rbPushP 1 .rx [1]) (tBlock false (tLive tIdle [] [] []))) = some ⟨.notConfigured, 1, 8⟩ := by
  decide
/-- V-RBF1 to V-RBF4. -/
theorem test_fault_role :
    tFault (exec (.rbPushP 0 .rx [1]) (tBlock false (tLive tIdle [] [] []))) = some ⟨.roleViolation, 0, 0x0080⟩ ∧
    tFault (exec (.rbPopP 0 .tx 1) (tBlock false (tLive tIdle [] [] []))) = some ⟨.roleViolation, 0, 0x0091⟩ ∧
    tFault (exec (.rbPushU 0 .tx [1]) (tBlock false (tLive tIdle [] [] []))) = some ⟨.roleViolation, 0, 0x00A1⟩ ∧
    tFault (exec (.rbPopU 0 .rx 1) (tBlock false (tLive tIdle [] [] []))) = some ⟨.roleViolation, 0, 0x00B0⟩ := by
  decide
/-- V-X5 as a step: ILLEGAL_COMMAND with w[15:0]. -/
theorem test_fault_illegal :
    tFault (step { State.reset with pending := [⟨.command, [0x34, 0x12, 0x00, 0x53]⟩] }) =
      some ⟨.illegalCommand, 3, 0x1234⟩ := by
  decide
/-- V-E6 and V-E7: events on a line that is not configured or not there. -/
theorem test_event_no_line :
    exec (.evRx 1 false 0x11) State.reset = .next State.reset ∧
    exec (.evRx 3 false 0x11) State.reset = .next State.reset := ⟨rfl, rfl⟩

/-! ### The host's two questions, on the first and the last row of the table -/

theorem test_table_word_first : decodeTableWord 32 0x10000000 = some (.configure 0 0 0) := by decide
theorem test_table_word_with_data : decodeTableWord 32 0x30000002 = some (.write 0 [0, 0]) := by decide
theorem test_table_word_runs :
    step (State.reset.withFetchWord 32 0x10000405) = exec (.configure 0 4 5) State.reset := rfl

/-! ### States and operands that meet the hypotheses of the obligations -/

/-- The ring invariant on the buffers used below: empty, partly filled, full, and wrapped. -/
theorem test_ring_empty : (tRing []).Ok 4 :=
  ⟨by decide, by decide, by decide, by decide, by decide, by decide, by decide, by decide⟩
theorem test_ring_one : (tRing [7]).Ok 4 :=
  ⟨by decide, by decide, by decide, by decide, by decide, by decide, by decide, by decide⟩
theorem test_ring_three : (tRing [0x90, 0x40, 0x7F]).Ok 4 :=
  ⟨by decide, by decide, by decide, by decide, by decide, by decide, by decide, by decide⟩
theorem test_ring_full : (tRing [1, 2, 3, 4]).Ok 4 :=
  ⟨by decide, by decide, by decide, by decide, by decide, by decide, by decide, by decide⟩
theorem test_ring_wrapped : tWrapped.Ok 4 :=
  ⟨by decide, by decide, by decide, by decide, by decide, by decide, by decide, by decide⟩
/-- A buffer of capacity 1, the least of R11, full. -/
theorem test_ring_least : (RingBuffer.mk [(0, 9)] 0 0 1).Ok 1 :=
  ⟨by decide, by decide, by decide, by decide, by decide, by decide, by decide, by decide⟩

/-- The invariant on the test block, from its line's. -/
theorem test_block_inv {a : Bool} {f : Bool × Bool × Bool} {hw : List RxEntry} {rx tx : RingBuffer}
    (hrx : rx.Ok 4) (htx : tx.Ok 4) (hst : (tLiveR f hw rx tx).txState.isSome = true) (hhw : hw.length ≤ 4) :
    (tBlock a (tLiveR f hw rx tx)).Inv := by
  refine ⟨by simp [tBlock, State.numLines], by simp [tBlock], fun c hc => ?_⟩
  simp only [tBlock, List.mem_cons, List.not_mem_nil, or_false] at hc
  rcases hc with rfl | rfl
  · refine ⟨by simp [tLiveR], fun h => by simp [tLiveR] at h, fun r hr => ?_⟩
    simp only [tLiveR, Option.some.injEq] at hr
    subst hr
    exact ⟨hrx, htx, hst, hhw, rfl, rfl⟩
  · exact ⟨by decide, fun _ => ⟨rfl, rfl, rfl, rfl⟩, fun r hr => by simp [Channel.powerUp] at hr⟩

/-- The line of the W1 start: IDLE with three bytes queued. -/
def tW1 : Live := tLive tIdle [] [] [0x90, 0x40, 0x7F]
/-- An ARMED-READY line with a byte to send and a byte to receive (V-E12). -/
def tE12 : Live := tLive tReady [⟨0x33, false⟩] [] [7]

theorem test_inv_idle : (tBlock false tW1).Inv := test_block_inv test_ring_empty test_ring_three rfl (by decide)
theorem test_inv_idle_autoDrain : (tBlock true tW1).Inv :=
  test_block_inv test_ring_empty test_ring_three rfl (by decide)
theorem test_inv_ready : (tBlock false tE12).Inv := test_block_inv test_ring_empty test_ring_one rfl (by decide)
theorem test_live_ok_idle (b : Bool) : tW1.Ok (tBlock b tW1).build :=
  ⟨test_ring_empty, test_ring_three, rfl, Nat.zero_le _, rfl, rfl⟩
theorem test_live_ok_ready : tE12.Ok (tBlock false tE12).build :=
  ⟨test_ring_empty, test_ring_one, rfl, by decide, rfl, rfl⟩

/-- DecodeOfEncode. -/
theorem test_meets_DecodeOfEncode : (Instr.write 3 [1, 2]).wellFormed = true := by decide
/-- EncodeOfDecode, and the premise of StepRunsTheDecodedInstruction. -/
theorem test_meets_EncodeOfDecode : decode .leaf [0x02, 0, 1, 0xB0, 0xFF] = .ok (.rbPopU 0 .tx 2) [0xFF] := by decide
/-- MatchMaskRecognisesOpcode: both premises, LEN equal to the bytes at hand. -/
theorem test_meets_MatchMask :
    (lenField 0x30000002).toNat ≤ [(1 : Byte), 2].length ∧
      (0x30000002 : Word) &&& Op.mask .write = Op.matchWord .write := by
  decide
/-- IllegalWordFaults: one word for each of the three conditions of R101. -/
theorem test_meets_IllegalWordFaults :
    let s : State := { State.reset with pending := [⟨.command, bytesOfWord 0x40000001 ++ []⟩] }
    s.fault = none ∧ IllegalWord .command 0x40000001 ∧ IllegalWord .command 0x53001234 ∧
      IllegalWord .command 0xC0000000 :=
  ⟨rfl, .inr (.inr ⟨.drain, by decide, by decide⟩), .inl (by decide), .inr (.inl ⟨.evIrq, by decide, by decide⟩)⟩
/-- StepRunsTheDecodedInstruction. -/
theorem test_meets_StepRuns :
    let s : State := { State.reset with pending := [⟨.command, [0, 0, 0, 0x41]⟩] }
    s.fault = none ∧ s.pending = [⟨.command, [0, 0, 0, 0x41]⟩] ∧
      decode .command [0, 0, 0, 0x41] = .ok (.drain 1) [] := by
  decide
/-- PlacedTableWordRunsNext. -/
theorem test_meets_PlacedTableWord :
    State.reset.fault = none ∧ decodeTableWord 32 0xE1000000 = some (.evTxDone 1) := by
  decide
/-- StepWithoutAWholeWordIsRefused: each clause. -/
theorem test_meets_StepWithoutAWholeWord :
    State.reset.fault = none ∧ State.reset.pending = [] ∧ ([0, 0, 0x40] : List Byte).length < 4 ∧
      decode .command [2, 0, 0, 0x30, 9] = .missingData ∧
      decode .command [0, 0, 0, 0x41, 5] = .ok (.drain 1) [5] := by
  decide
/-- InvHoldsAtPowerUp: the least and the greatest builds of R10 and R11. -/
theorem test_meets_InvHoldsAtPowerUp :
    Config.Params.Admitted ⟨[⟨1, 1⟩], ⟨true, 1, .sync, 0⟩⟩ ∧
      Config.Params.Admitted ⟨List.replicate 16 ⟨65535, 65535⟩, ⟨false, 1, .async, 7⟩⟩ := by
  decide
/-- EveryStepKeepsInv: a step of a block that meets the invariant. -/
theorem test_meets_EveryStepKeepsInv :
    ({ tBlock false tW1 with pending := [⟨.command, [0, 0, 0, 0x40]⟩] } : State).Inv ∧
      (next? (step { tBlock false tW1 with pending := [⟨.command, [0, 0, 0, 0x40]⟩] })).isSome = true :=
  ⟨⟨test_inv_idle.lines, test_inv_idle.depth, test_inv_idle.channels⟩, by decide⟩
/-- FaultDiscardsStepAndSticks and the five rows of FaultsAreThoseOfTheTable. -/
theorem test_meets_Faults :
    tFault (exec (.configure 2 0 0) State.reset) = some ⟨.configError, 2, 0⟩ ∧
      tFault (exec (.configure 0 0 0) (tBlock false tW1)) = some ⟨.reconfigure, 0, 0⟩ ∧
      tFault (exec (.drain 15) State.reset) = some ⟨.notConfigured, 15, 4⟩ ∧
      tFault (exec (.rbPopU 0 .rx 1) (tBlock false tW1)) = some ⟨.roleViolation, 0, 0xB0⟩ ∧
      tFault (exec (.drain 0) (tBlock false (tLive tStray [] [] [7]))) = some ⟨.txOverrun, 0, 7⟩ ∧
      tFault (exec (.write 0 [9, 8]) (tBlock true (tLive tStray [] [] []))) = some ⟨.txOverrun, 0, 9⟩ ∧
      tFault (exec (.evIrq 0) (tBlock false (tLive (true, true, true) [] [] [7]))) = some ⟨.txOverrun, 0, 7⟩ ∧
      tFaulted.fault = some ⟨.notConfigured, 1, 4⟩ := by
  decide
/-- UnconfiguredLineFaults: a line not configured and a line that is not there, on both ports. -/
theorem test_meets_UnconfiguredLine :
    (tBlock false tW1).fault = none ∧ (tBlock false tW1).live 1 = none ∧ (tBlock false tW1).live 2 = none ∧
      (Instr.write 1 []).op ≠ .configure ∧ (Instr.write 1 []).op.port ≠ .event ∧
      (Instr.rbIsFull 2 .rx).op ≠ .configure ∧ (Instr.rbIsFull 2 .rx).op.port ≠ .event := by
  decide
/-- EventOnUnconfiguredLineHasNoEffect, and the last clauses of the two UART events. -/
theorem test_meets_EventOnUnconfiguredLine :
    (Instr.evIrq 1).op.port = .event ∧ (Instr.evRx 15 true 0).op.port = .event ∧ State.reset.fault = none ∧
      State.reset.live 1 = none ∧ State.reset.live 15 = none := by
  decide
/-- WrongRoleFaults, HandlerNeverFails and every premise on the W1 line. -/
theorem test_meets_line_W1 :
    (tBlock false tW1).fault = none ∧ (tBlock false tW1).live 0 = some tW1 ∧
      (tBlock false tW1).txState 0 = some .idle ∧ (tBlock false tW1).txContents 0 = some [0x90, 0x40, 0x7F] ∧
      (tBlock false tW1).rxContents 0 = some [] := by
  decide
/-- BusyTransmitterOverruns, WRITE: an empty buffer, where the byte is the first of the data; a full one, where no data byte
fits. -/
theorem test_meets_BusyWrite :
    ((tBlock true (tLive tStray [] [] [])).live 0 = some (tLive tStray [] [] []) ∧
        (tBlock true (tLive tStray [] [] [])).fault = none ∧ (tLive tStray [] [] []).regs.txBusy = true ∧
        (tLive tStray [] [] []).chan.txArmed = false ∧ (tBlock true (tLive tStray [] [] [])).build.autoDrain = true ∧
        (tRing []).Ok 4 ∧ (tRing []).contents 4 = some [] ∧ [] ++ ([9, 8] : List Byte).take (4 - 0) = 9 :: [8]) ∧
      ((tRing [1, 2, 3, 4]).Ok 4 ∧ (tRing [1, 2, 3, 4]).contents 4 = some [1, 2, 3, 4] ∧
        [1, 2, 3, 4] ++ ([9, 8] : List Byte).take (4 - 4) = 1 :: [2, 3, 4]) :=
  ⟨⟨by decide, by decide, by decide, by decide, by decide, test_ring_empty, by decide, by decide⟩,
    test_ring_full, by decide, by decide⟩
/-- BusyTransmitterOverruns: DRAIN on a disarmed busy line, the handler on an armed one with its event pending. -/
theorem test_meets_BusyTransmitterOverruns :
    ((tBlock true (tLive tStray [] [] [7])).fault = none ∧
      (tBlock true (tLive tStray [] [] [7])).live 0 = some (tLive tStray [] [] [7]) ∧
      (tLive tStray [] [] [7]).regs.txBusy = true ∧ (tLive tStray [] [] [7]).chan.txArmed = false ∧
      (tRing [7]).contents 4 = some [7] ∧ (tBlock true (tLive tStray [] [] [7])).build.autoDrain = true) ∧
      ((tBlock true (tLive (true, true, true) [] [] [7])).live 0 = some (tLive (true, true, true) [] [] [7]) ∧
        (tLive (true, true, true) [] [] [7]).regs.txBusy = true ∧
        (tLive (true, true, true) [] [] [7]).irqReq = true ∧ (tLive (true, true, true) [] [] [7]).txCond = true) := by
  decide
/-- NoStepStopsUnderInv. -/
theorem test_meets_NoStepStops : (tBlock true tW1).Inv ∧ (tBlock true tW1).fault = none :=
  ⟨test_inv_idle_autoDrain, rfl⟩

/-- PushAppendsWhatFits, PushNeverOverwritesUnread, PopTakesTheOldest, RingBufferIsFifo: a wrapped buffer. -/
theorem test_meets_ring_laws : tWrapped.Ok 4 ∧ tWrapped.contents 4 = some [3] := ⟨test_ring_wrapped, by decide⟩
/-- PopOfUnwrittenSlotStops: such a slot. -/
theorem test_meets_PopOfUnwritten :
    (∃ i < min 1 1, (RingBuffer.mk [] 1 0 1).store.read ((0 + i) % 4) = none) ∧
      rbPop 4 (RingBuffer.mk [] 1 0 1) 1 = .stuck .slotUnwritten :=
  ⟨⟨0, by decide, by decide⟩, by decide⟩
/-- PushThenPopRoundTrip at the capacity and below it; OverflowTruncatesAndEmptyPopsAreIdle. -/
theorem test_meets_round_trip_and_overflow :
    (tRing []).Ok 4 ∧ (tRing []).count = 0 ∧ ([9, 8, 7, 6] : List Byte).length ≤ 4 ∧ ([9] : List Byte).length ≤ 4 ∧
      4 < ([1, 2, 3, 4, 5, 6] : List Byte).length :=
  ⟨test_ring_empty, by decide, by decide, by decide, by decide⟩

/-- ConfigureSetsUpALineOnce: the three clauses, line 1 the last of the build and line 2 the first beyond it. -/
theorem test_meets_Configure :
    State.reset.fault = none ∧ State.reset.ch[1]? = some (Channel.powerUp ⟨4, 4⟩) ∧
      (Channel.powerUp ⟨4, 4⟩).regs = none ∧ State.reset.numLines ≤ (2 : Line).toNat ∧
      (tBlock false tW1).live 0 = some tW1 := by
  decide
/-- ReadAvailableReturnsTheOldest and LeafPopTakesTheOldest. -/
theorem test_meets_pops :
    (tBlock false (tLive tIdle [] [1, 2] [3])).fault = none ∧
      (tBlock false (tLive tIdle [] [1, 2] [3])).live 0 = some (tLive tIdle [] [1, 2] [3]) ∧
      (tRing [1, 2]).contents 4 = some [1, 2] ∧ (tRing [3]).contents 4 = some [3] := by
  decide
/-- WriteQueuesWhatFits and LeafPushAppendsWhatFits, on a wrapped and on a full buffer. -/
theorem test_meets_pushes :
    (tBlock false (tLiveR tIdle [] (tRing [1, 2, 3, 4]) tWrapped)).fault = none ∧
      (tBlock false (tLiveR tIdle [] (tRing [1, 2, 3, 4]) tWrapped)).build.autoDrain = false ∧
      (tBlock false (tLiveR tIdle [] (tRing [1, 2, 3, 4]) tWrapped)).live 0 =
        some (tLiveR tIdle [] (tRing [1, 2, 3, 4]) tWrapped) ∧
      tWrapped.Ok 4 ∧ tWrapped.contents 4 = some [3] ∧ (tRing [1, 2, 3, 4]).Ok 4 ∧
      (tRing [1, 2, 3, 4]).contents 4 = some [1, 2, 3, 4] :=
  ⟨rfl, rfl, by decide, test_ring_wrapped, by decide, test_ring_full, by decide⟩
/-- AutoDrainWriteIsWriteThenDrain. -/
theorem test_meets_AutoDrainWrite :
    (tBlock true tW1).fault = none ∧ (tBlock true tW1).build.autoDrain = true ∧
      (tBlock true tW1).live 0 = some tW1 ∧ tW1.Ok (tBlock true tW1).build :=
  ⟨rfl, rfl, rfl, test_live_ok_idle true⟩
/-- DrainKicksOneByte. -/
theorem test_meets_DrainKicks :
    (tBlock false tW1).fault = none ∧ (tBlock false tW1).live 0 = some tW1 ∧
      tW1.chan.txArmed = false ∧ tW1.regs.txBusy = false ∧
      tW1.regs.tx.contents tW1.chan.caps.tx = some (0x90 :: [0x40, 0x7F]) := by
  decide
/-- DrainOtherwiseDoesNothing: an armed line with bytes, and a disarmed line without. -/
theorem test_meets_DrainOtherwise :
    (tLive tBusy [] [] [7]).chan.txArmed = true ∧ (tLive tIdle [] [] []).regs.tx.count = 0 := by
  decide
/-- OneResponsePerCommand: a step that faults, an event, and a command; and what a pop of two bytes returns. -/
theorem test_meets_OneResponse :
    (next? (exec (.drain 1) (tBlock false tW1))).map (fun t => t.fault.isSome) = some true ∧
      (next? (exec (.evTxDone 0) (tBlock false tW1))).map (fun t => t.fault) = some none ∧
      (next? (exec (.drain 0) (tBlock false tW1))).map (fun t => t.fault) = some none ∧
      (tRing [1, 2, 3]).Returns 4 2 2 [1, 2] := by
  refine ⟨?_, ?_, ?_, ?_, ?_, ?_⟩ <;> decide

/-- HandlerReceivesOneByte: a good byte, a malformed byte, a full buffer; the last without a transmit condition. -/
theorem test_meets_HandlerReceives :
    ((tBlock false tE12).fault = none ∧ (tBlock false tE12).live 0 = some tE12 ∧ tE12.irqReq = true ∧
        tE12.regs.rxHw = [⟨0x33, false⟩] ∧ tE12.regs.rx.contents 4 = some []) ∧
      (tLive tIdle [⟨0x22, true⟩] [] []).irqReq = true ∧
      ((tLive tIdle [⟨0x55, false⟩] [1, 2, 3, 4] []).irqReq = true ∧
        (tRing [1, 2, 3, 4]).contents 4 = some [1, 2, 3, 4] ∧
        (tLive tIdle [⟨0x55, false⟩] [1, 2, 3, 4] []).txCond = false) := by
  decide
/-- HandlerTransmitsOneByteOrDisarms: a byte queued (with one received), and none queued and none received. -/
theorem test_meets_HandlerTransmits :
    ((tBlock false tE12).live 0 = some tE12 ∧ tE12.irqReq = true ∧ tE12.txCond = true ∧
      tE12.regs.tx.contents 4 = some [7]) ∧
      ((tLive tReady [] [] []).irqReq = true ∧ (tLive tReady [] [] []).txCond = true ∧
        (tRing []).contents 4 = some [] ∧ (tLive tReady [] [] []).regs.rxHw = []) := by
  decide
/-- The line invariant those two take. -/
theorem test_meets_Handler_line_ok :
    tE12.Ok (tBlock false tE12).build ∧ (tLive tReady [] [] []).Ok (tBlock false tE12).build ∧
      (tLive tIdle [⟨0x55, false⟩] [1, 2, 3, 4] []).Ok (tBlock false tE12).build :=
  ⟨test_live_ok_ready, ⟨test_ring_empty, test_ring_empty, rfl, by decide, rfl, rfl⟩,
    ⟨test_ring_full, test_ring_empty, rfl, by decide, rfl, rfl⟩⟩
/-- BytesLeftKeepTheRequest (V-E8). -/
theorem test_meets_BytesLeft :
    (tBlock false (tLive tIdle [⟨0x11, false⟩, ⟨0x22, false⟩] [] [])).Inv ∧
      (tLive tIdle [⟨0x11, false⟩, ⟨0x22, false⟩] [] []).regs.rxHw = ⟨0x11, false⟩ :: ⟨0x22, false⟩ :: [] :=
  ⟨test_block_inv test_ring_empty test_ring_empty rfl (by decide), rfl⟩
/-- UnrequestedHandlerIsANoOp: an IDLE line, and an ARMED-BUSY line (V-E15). -/
theorem test_meets_Unrequested :
    (tBlock false tW1).irqReq 0 = false ∧ (tBlock false (tLive tBusy [] [] [7])).irqReq 0 = false := by
  decide
/-- ReceiveEventQueuesInTheUart and TransmitDoneLatchesTheEvent: room for one more, full, in flight, none in flight. -/
theorem test_meets_UART_events :
    (tLive tIdle (List.replicate 3 ⟨1, false⟩) [] []).regs.rxHw.length < 4 ∧
      4 ≤ (tLive tIdle (List.replicate 4 ⟨1, false⟩) [] []).regs.rxHw.length ∧
      (tLive tBusy [] [] []).regs.txBusy = true ∧ tW1.regs.txBusy = false := by
  decide
/-- TransmitStateMachine: a step of the line from each state, and CONFIGURE. -/
theorem test_meets_TransmitStateMachine :
    tW1.txState = some .idle ∧ (tLive tBusy [] [] []).txState = some .armedBusy ∧ tE12.txState = some .armedReady ∧
      tFault (exec (.evIrq 0) (tBlock false tE12)) = none ∧
      (next? (exec (.configure 1 0 0) (tBlock false tE12))).map (fun t => t.fault) = some none := by
  decide
/-- LineEnablesAreRestored, ChannelsAreIsolated, ParametersNeverChange, AtMostOneByteSentPerStep: a step that completes; and a
line whose enable is off. -/
theorem test_meets_a_step :
    (next? (exec (.drain 0) (tBlock false tW1))).isSome = true ∧ (Instr.drain 0).op ≠ .configure ∧
      ({ tW1 with chan := { tW1.chan with lineEn := false } } : Live).chan.lineEn = false := by
  decide
/-- ChannelsAreIsolated, second clause: two blocks that differ in another line. -/
theorem test_meets_isolated :
    let s := tBlock false tW1
    let s' := s.setChannel 1 tE12.chan
    s'.build = s.build ∧ s'.fault = s.fault ∧ s'.ch[0]? = s.ch[0]? ∧ s' ≠ s := by
  decide
/-- StepsOfDifferentLinesCommute. -/
theorem test_meets_commute :
    (Instr.drain 0).line ≠ (Instr.configure 1 2 3).line ∧
      (next? (execAll [.drain 0, .configure 1 2 3] (tBlock false tW1))).map (fun t => t.fault) = some none := by
  decide
/-- OnlyDrainArms and ConfiguredForTheRestOfTheRun. -/
theorem test_meets_OnlyDrainArms :
    (tBlock false tW1).build.autoDrain = false ∧ tW1.chan.txArmed = false ∧ tW1.chan.configured = true ∧
      (next? (exec (.drain 0) (tBlock false tW1))).map (fun t => (t.ch[0]?).map fun c => c.txArmed) =
        some (some true) := by
  decide
/-- TransmitOrderIsExact and ReceiveOrderIsExact: a run of commands and events. -/
theorem test_meets_orders :
    (next? (execAll [.drain 0, .evRx 0 false 9, .evTxDone 0, .evIrq 0, .readAvailable 0 4] (tBlock false tW1))).map
        (fun t => t.fault) = some none ∧
      (∀ i ∈ [Instr.drain 0, .evRx 0 false 9, .evTxDone 0, .evIrq 0, .readAvailable 0 4],
        isTxLeafPop 0 i = false ∧ isRxLeafPush 0 i = false) := by
  decide
/-- IdleLineWithoutDrainSendsNothing. -/
theorem test_meets_idle_run :
    (next? (execAll [.write 0 [1], .evTxDone 0, .evIrq 0] (tBlock false tW1))).isSome = true ∧
      (∀ i ∈ [Instr.write 0 [1], .evTxDone 0, .evIrq 0], i ≠ .drain 0) := by
  decide

/-- W1 from ARMED-READY on, as an endless run: send 7, finish, disarm, and then handler entries with nothing requested. -/
def tRunState : Nat → State
  | 0 => tBlock false (tLive tReady [] [] [7])
  | 1 => tBlock false { tLiveR tBusy [] (tRing []) ⟨[(0, 7)], 1, 1, 0⟩ with
      chan := { (tLiveR tBusy [] (tRing []) ⟨[(0, 7)], 1, 1, 0⟩).chan with lineOut := [7] } }
  | 2 => tBlock false { tLiveR tReady [] (tRing []) ⟨[(0, 7)], 1, 1, 0⟩ with
      chan := { (tLiveR tReady [] (tRing []) ⟨[(0, 7)], 1, 1, 0⟩).chan with lineOut := [7] } }
  | _ + 3 => tBlock false { tLiveR tIdle [] (tRing []) ⟨[(0, 7)], 1, 1, 0⟩ with
      chan := { (tLiveR tIdle [] (tRing []) ⟨[(0, 7)], 1, 1, 0⟩).chan with lineOut := [7] } }
/-- The steps of that run. -/
def tRunStep : Nat → Instr
  | 1 => .evTxDone 0
  | _ => .evIrq 0
/-- The run. -/
def tRun : Run where
  steps := tRunStep
  states := tRunState
  next := fun n => match n with
    | 0 => rfl
    | 1 => rfl
    | 2 => rfl
    | _ + 3 => rfl

/-- FairArmedLineSendsItsQueue: the run is fair, and its line is armed with a byte queued. -/
theorem test_meets_Fair :
    tRun.Fair 0 ∧ (tRun.states 0).Inv ∧ (∀ m, isTxLeafPop 0 (tRun.steps m) = false) ∧
      (tRun.states 0).live 0 = some (tLive tReady [] [] [7]) ∧ (tLive tReady [] [] [7]).chan.txArmed = true ∧
      (tLive tReady [] [] [7]).regs.tx.contents 4 = some [7] := by
  refine ⟨⟨fun n _ => ⟨n + 2, by omega, rfl⟩, fun n h => ?_⟩,
    test_block_inv test_ring_empty test_ring_one rfl (by decide), fun m => ?_, by decide, by decide, by decide⟩
  · exact absurd (h (n + 3) (by omega)) (by simp [tRun, tRunState]; decide)
  · match m with
    | 0 => rfl
    | 1 => rfl
    | _ + 2 => rfl

end Sys2Proof.Tests
end

section
/-! PROOFS. What a step does to one line's record and to the line's transmit side, said once; the scope statements
(00_scope) follow from it. -/

namespace Sys2Proof.Machine

open Sys2Proof
open Sys2Proof.Config (Build)

/-! ### One line's record across a step -/

/-- How a step that completes turns the record of its own line into the next: its body ran on the configured line, or it is
CONFIGURE on a line that was not configured. -/
inductive RecordStep (b : Build) (i : Instr) (c c' : Channel) : Prop where
  | body {l l' : Live} {r : Option Response} (chan_eq : l.chan = c) (regs_eq : c.regs = some l.regs)
      (ran : bodyOf b i l = .done (l', r)) (next_eq : c' = l'.toChannel)
  | configure {x y : Byte} (instr_eq : i = .configure i.line x y) (unconfigured : c.configured = false)
      (next_eq : c' = c.afterConfigure x y)

/-- No step changes the parameters of the build that are not per line. -/
theorem exec_build {i : Instr} {s t : State} (h : exec i s = .next t) : t.build = s.build := by
  obtain rfl | ⟨_, _, rfl⟩ | ⟨_, _, _, -, -, -, rfl⟩ | ⟨_, _, _, _, -, -, -, rfl⟩ := exec_next h <;> rfl

/-- A step leaves a line's record as it was, or the line is its own and the record takes its step. -/
theorem exec_record {i : Instr} {s t : State} (h : exec i s = .next t) (k : Nat) :
    t.ch[k]? = s.ch[k]? ∨
      (k = i.line.toNat ∧ ∃ c c', s.ch[k]? = some c ∧ t.ch[k]? = some c' ∧ RecordStep s.build i c c') := by
  obtain rfl | ⟨_, _, rfl⟩ | ⟨l, l', r, -, hl, hb, rfl⟩ | ⟨line, x, y, c, rfl, hc, hcf, rfl⟩ := exec_next h
  · exact .inl rfl
  · exact .inl rfl
  · rw [State.respond_ch]
    by_cases hk : k = i.line.toNat
    · obtain ⟨hchan, hregs⟩ := State.live_eq_some.mp hl
      exact .inr ⟨hk, l.chan, _, hk ▸ hchan, hk ▸ State.getElem?_setChannel_self _ (State.live_lt hl),
        .body rfl hregs hb rfl⟩
    · exact .inl (State.getElem?_setChannel_of_ne _ hk)
  · rw [State.respond_ch]
    by_cases hk : k = line.toNat
    · have hlt : line.toNat < s.ch.length := (List.getElem?_eq_some_iff.mp hc).1
      exact .inr ⟨hk, c, _, hk ▸ hc, hk ▸ State.getElem?_setChannel_self _ hlt, .configure rfl hcf rfl⟩
    · exact .inl (State.getElem?_setChannel_of_ne _ hk)

/-- A line's configured channel is read from its own record alone. -/
theorem State.live_congr {s t : State} {line : Line} (h : t.ch[line.toNat]? = s.ch[line.toNat]?) :
    t.live line = s.live line := by
  simp only [State.live, h]

/-- What is on a line's wire is read from its own record alone. -/
theorem State.lineOut_congr {s t : State} {line : Line} (h : t.ch[line.toNat]? = s.ch[line.toNat]?) :
    t.lineOut line = s.lineOut line := by
  simp only [State.lineOut, h]

/-- A record's step keeps the capacities (R11). -/
theorem RecordStep.caps_eq {b : Build} {i : Instr} {c c' : Channel} (h : RecordStep b i c c') : c'.caps = c.caps := by
  cases h with
  | body chan_eq _ ran next_eq => rw [next_eq, ← chan_eq]; exact (bodyOf_kept ran).caps
  | configure _ _ next_eq => rw [next_eq]; rfl

/-- Settles O49: the build is copied by every step, and the capacities line by line. -/
theorem parametersNeverChange : Obligations.ParametersNeverChange := by
  unfold Obligations.ParametersNeverChange
  intro i s t h
  refine ⟨exec_build h, List.ext_getElem? fun k => ?_⟩
  rw [List.getElem?_map, List.getElem?_map]
  obtain hk | ⟨-, c, c', hc, hc', hstep⟩ := exec_record h k
  · rw [hk]
  · rw [hc, hc', Option.map_some, Option.map_some, hstep.caps_eq]

/-! ### The transmit side of a line -/

/-- What a step can do to the transmit side of its line: leave it; start sending, as DRAIN or a draining WRITE (R186, R183);
send the next byte or disarm, as the handler with its transmit condition (R214); end the byte in flight (R222). -/
inductive TxStep (b : Build) (i : Instr) (l l' : Live) : Prop where
  | kept (armed : l'.chan.txArmed = l.chan.txArmed) (busy : l'.regs.txBusy = l.regs.txBusy)
      (pend : l'.regs.txDonePend = l.regs.txDonePend) (out : l'.chan.lineOut = l.chan.lineOut)
  | started (op : i.op = .drain ∨ i.op = .write ∧ b.autoDrain = true)
      (out : ∃ v, l'.chan.lineOut = l.chan.lineOut ++ [v])
  | sent (op : i.op = .evIrq) (cond : l.txCond = true) (armed : l'.chan.txArmed = l.chan.txArmed)
      (out : ∃ v, l'.chan.lineOut = l.chan.lineOut ++ [v])
  | disarmed (op : i.op = .evIrq) (cond : l.txCond = true) (armed : l'.chan.txArmed = false)
      (out : l'.chan.lineOut = l.chan.lineOut)
  | finished (op : i.op = .evTxDone) (busy : l.regs.txBusy = true) (armed : l'.chan.txArmed = l.chan.txArmed)
      (out : l'.chan.lineOut = l.chan.lineOut)

variable {b : Build} {i : Instr} {l l' : Live}

/-- Replacing a ring buffer touches neither the transmitter nor the wire. -/
theorem TxStep.of_setRing (buf : Buf) (rb : RingBuffer) : TxStep b i l (l.setRing buf rb) := by
  cases buf <;> exact .kept rfl rfl rfl rfl

/-- Suspending the interrupt line around a body does not touch the transmit side. -/
theorem TxStep.restore (h : TxStep b i (suspend l).2 l') : TxStep b i l (restore l.chan.lineEn l') := by
  cases h with
  | kept armed busy pend out => exact .kept armed busy pend out
  | started op out => exact .started op out
  | sent op cond armed out => exact .sent op cond armed out
  | disarmed op cond armed out => exact .disarmed op cond armed out
  | finished op busy armed out => exact .finished op busy armed out

theorem pushBody_tx {o : Op} {line : Line} {buf : Buf} {data : List Byte} {r : Option Response}
    (h : pushBody o line buf data l = .done (l', r)) : TxStep b i l l' := by
  rw [(pushBody_inv h).1]; exact .of_setRing _ _

theorem popBody_tx {o : Op} {line : Line} {buf : Buf} {max : Nat} {r : Option Response}
    (h : popBody o line buf max l = .done (l', r)) : TxStep b i l l' := by
  obtain ⟨_, -, rfl, -⟩ := popBody_inv h; exact .of_setRing _ _

/-- The drain body, as part of a step that may start sending (R186). -/
theorem drainBody_tx (op : i.op = .drain ∨ i.op = .write ∧ b.autoDrain = true) (h : drainBody l = .done l') :
    TxStep b i l l' := by
  obtain ⟨rfl, -⟩ | ⟨-, -, -, v, -, rfl⟩ := drainBody_inv h
  · exact .kept rfl rfl rfl rfl
  · exact .started op ⟨v, rfl⟩

theorem writeBody_tx {line : Line} {data : List Byte} {r : Option Response} (op : i.op = .write)
    (h : writeBody b.autoDrain line data l = .done (l', r)) : TxStep b i l l' := by
  obtain ⟨l1, hpush, ⟨-, rfl⟩ | ⟨hauto, hdrain⟩⟩ := writeBody_inv h
  · exact pushBody_tx hpush
  · obtain ⟨rfl, -⟩ := pushBody_inv hpush
    obtain ⟨rfl, -⟩ | ⟨-, -, -, v, -, rfl⟩ := drainBody_inv hdrain
    · exact .of_setRing _ _
    · exact .started (.inr ⟨op, hauto⟩) ⟨v, rfl⟩

/-- The receive branch, where it ran, left the transmit side as it was at the handler's entry (R210, R211). -/
theorem handler_tx (op : i.op = .evIrq) (h : handler l = .done l') : TxStep b i l l' := by
  obtain ⟨-, -, hbusy, hpend, harmed, hout⟩ := rxBranch_kept l
  obtain ⟨-, rfl⟩ | ⟨hcond, htx⟩ := handler_inv h
  · split
    · exact .kept harmed hbusy hpend hout
    · exact .kept rfl rfl rfl rfl
  · obtain ⟨-, rfl⟩ | ⟨-, -, v, -, rfl⟩ := txBranch_inv htx
    · refine .disarmed op hcond rfl ?_
      split
      · exact hout
      · rfl
    · refine .sent op hcond ?_ ⟨v, ?_⟩ <;> split <;> simp [harmed, hout]

/-- Every body that completes takes one of the steps of `TxStep` on the transmit side. -/
theorem bodyOf_tx {r : Option Response} (h : bodyOf b i l = .done (l', r)) : TxStep b i l l' := by
  cases i with
  | configure => cases h; exact .kept rfl rfl rfl rfl
  | readAvailable => obtain ⟨_, h1, rfl⟩ := suspended_eq_done.mp h; exact (popBody_tx h1).restore
  | write => obtain ⟨_, h1, rfl⟩ := suspended_eq_done.mp h; exact (writeBody_tx rfl h1).restore
  | drain =>
    obtain ⟨_, h1, rfl⟩ := suspended_eq_done.mp h
    exact (drainBody_tx (.inl rfl) (drainStep_inv h1).1).restore
  | rbIsEmpty => cases h; exact .kept rfl rfl rfl rfl
  | rbIsFull => cases h; exact .kept rfl rfl rfl rfl
  | rbPushP =>
    simp only [bodyOf] at h
    split at h
    · obtain ⟨_, h1, rfl⟩ := suspended_eq_done.mp h; exact (pushBody_tx h1).restore
    · cases h
  | rbPopP =>
    simp only [bodyOf] at h
    split at h
    · obtain ⟨_, h1, rfl⟩ := suspended_eq_done.mp h; exact (popBody_tx h1).restore
    · cases h
  | rbPushU =>
    simp only [bodyOf] at h
    split at h
    · exact pushBody_tx h
    · cases h
  | rbPopU =>
    simp only [bodyOf] at h
    split at h
    · exact popBody_tx h
    · cases h
  | evIrq =>
    obtain ⟨-, ⟨-, rfl⟩ | ⟨-, h1⟩⟩ := evIrq_inv h
    · exact .kept rfl rfl rfl rfl
    · exact handler_tx rfl h1
  | evRx => obtain ⟨-, ⟨-, rfl⟩ | ⟨-, rfl⟩⟩ := evRx_inv h <;> exact .kept rfl rfl rfl rfl
  | evTxDone =>
    obtain ⟨-, ⟨-, rfl⟩ | ⟨hbusy, rfl⟩⟩ := evTxDone_inv h
    · exact .kept rfl rfl rfl rfl
    · exact .finished rfl hbusy rfl rfl

/-- A DRAIN is DRAIN of its own line. -/
theorem Instr.eq_drain (h : i.op = .drain) : i = .drain i.line := by
  cases i with
  | drain => rfl
  | _ => cases h

/-- Without AUTO_DRAIN only DRAIN arms a disarmed line (R12, R32). -/
theorem TxStep.op_of_arms (h : TxStep b i l l') (hauto : b.autoDrain = false) (h0 : l.chan.txArmed = false)
    (h1 : l'.chan.txArmed = true) : i.op = .drain := by
  cases h with
  | started op => simpa [hauto] using op
  | kept armed => rw [armed, h0] at h1; cases h1
  | sent _ _ armed => rw [armed, h0] at h1; cases h1
  | disarmed _ _ armed => rw [armed] at h1; cases h1
  | finished _ _ armed => rw [armed, h0] at h1; cases h1

/-- Settles O51: a record that arms took its body's step, for CONFIGURE leaves the line disarmed. -/
theorem onlyDrainArms : Obligations.OnlyDrainArms := by
  unfold Obligations.OnlyDrainArms
  intro i s t k c c' hauto h hc hc' h0 h1
  obtain hk | ⟨hk, d, d', hd, hd', hstep⟩ := exec_record h k
  · obtain rfl : c = c' := by simpa [hk, hc] using hc'
    rw [h0] at h1
    cases h1
  · obtain rfl : c = d := by simpa [hc] using hd
    obtain rfl : c' = d' := by simpa [hc'] using hd'
    cases hstep with
    | body chan_eq _ ran next_eq =>
      subst chan_eq next_eq
      exact ⟨i.line, Instr.eq_drain ((bodyOf_tx ran).op_of_arms hauto h0 h1), hk.symm⟩
    | configure _ _ next_eq => subst next_eq; cases h1

/-- A step on the transmit side puts nothing on the wire, or one byte as one of the three senders (R72). -/
theorem TxStep.lineOut_cases (h : TxStep b i l l') :
    l'.chan.lineOut = l.chan.lineOut ∨
      (∃ v, l'.chan.lineOut = l.chan.lineOut ++ [v]) ∧
        (i.op = .drain ∨ i.op = .evIrq ∨ i.op = .write ∧ b.autoDrain = true) := by
  cases h with
  | kept _ _ _ out => exact .inl out
  | started op out => exact .inr ⟨out, op.imp_right .inr⟩
  | sent op _ _ out => exact .inr ⟨out, .inr (.inl op)⟩
  | disarmed _ _ _ out => exact .inl out
  | finished _ _ _ out => exact .inl out

/-- Settles O52: another line's wire is read from an unchanged record, its own changes as `TxStep` says. -/
theorem atMostOneByteSentPerStep : Obligations.AtMostOneByteSentPerStep := by
  unfold Obligations.AtMostOneByteSentPerStep
  intro i s t line h
  obtain hk | ⟨hk, c, c', hc, hc', hstep⟩ := exec_record h line.toNat
  · exact .inl (State.lineOut_congr hk)
  · have hline : i.line = line := (BitVec.eq_of_toNat_eq hk).symm
    simp only [State.lineOut, hc, hc', hline, true_and]
    cases hstep with
    | body chan_eq _ ran next_eq => subst chan_eq next_eq; exact (bodyOf_tx ran).lineOut_cases
    | configure _ _ next_eq => subst next_eq; exact .inl rfl

/-! ### An IDLE line -/

/-- A line is IDLE when it is configured with the three transmit flags clear (R38). -/
theorem State.txState_eq_idle {s : State} {line : Line} :
    s.txState line = some .idle ↔ ∃ l, s.live line = some l ∧
      l.chan.txArmed = false ∧ l.regs.txBusy = false ∧ l.regs.txDonePend = false := by
  simp only [State.txState, Option.bind_eq_some_iff]
  refine exists_congr fun l => and_congr_right fun _ => ?_
  unfold Live.txState
  cases l.chan.txArmed <;> cases l.regs.txBusy <;> cases l.regs.txDonePend <;> simp

/-- On an IDLE line a step that does not start sending leaves the transmit side as it was: nothing is in flight, and the
handler has no transmit condition. -/
theorem TxStep.kept_of_idle (h : TxStep b i l l') (hauto : b.autoDrain = false) (hd : i.op ≠ .drain)
    (harmed : l.chan.txArmed = false) (hbusy : l.regs.txBusy = false) :
    l'.chan.txArmed = l.chan.txArmed ∧ l'.regs.txBusy = l.regs.txBusy ∧
      l'.regs.txDonePend = l.regs.txDonePend ∧ l'.chan.lineOut = l.chan.lineOut := by
  have hcond : l.txCond ≠ true := by simp [Live.txCond, harmed]
  cases h with
  | kept armed busy pend out => exact ⟨armed, busy, pend, out⟩
  | started op => simp [hauto, hd] at op
  | sent _ cond => exact absurd cond hcond
  | disarmed _ cond => exact absurd cond hcond
  | finished _ busy => simp [hbusy] at busy

/-- A block without AUTO_DRAIN, and a line of it that is IDLE with `out` sent. -/
structure State.IdleAt (line : Line) (out : List Byte) (s : State) : Prop where
  auto : s.build.autoDrain = false
  idle : s.txState line = some .idle
  out : s.lineOut line = out

/-- Every step but DRAIN of the line leaves it IDLE with nothing more sent (R187, R188). -/
theorem State.IdleAt.step {line : Line} {out : List Byte} {s t : State} (hs : s.IdleAt line out)
    (hd : i ≠ .drain line) (h : exec i s = .next t) : t.IdleAt line out := by
  obtain ⟨hauto, hidle, hout⟩ := hs
  have hauto' : t.build.autoDrain = false := by rw [exec_build h, hauto]
  obtain hk | ⟨hk, c, c', hc, hc', hstep⟩ := exec_record h line.toNat
  · exact ⟨hauto', by rw [State.txState, State.live_congr hk]; exact hidle, by rw [State.lineOut_congr hk, hout]⟩
  · have hline : i.line = line := (BitVec.eq_of_toNat_eq hk).symm
    obtain ⟨l0, hl0, harmed, hbusy, hpend⟩ := State.txState_eq_idle.mp hidle
    cases hstep with
    | configure _ unconfigured =>
      obtain ⟨hl0c, hl0r⟩ := State.live_eq_some.mp hl0
      obtain rfl : c = l0.chan := by simpa [hc] using hl0c
      simp [Channel.configured, hl0r] at unconfigured
    | @body l l' r chan_eq regs_eq ran next_eq =>
      have hl : s.live line = some l := State.live_eq_some.mpr ⟨by rw [chan_eq, hc], by rw [chan_eq, regs_eq]⟩
      obtain rfl : l = l0 := Option.some.inj (hl.symm.trans hl0)
      have hop : i.op ≠ .drain := fun ho => hd (hline ▸ Instr.eq_drain ho)
      obtain ⟨harmed', hbusy', hpend', hout'⟩ := (bodyOf_tx ran).kept_of_idle hauto hop harmed hbusy
      subst next_eq
      refine ⟨hauto', State.txState_eq_idle.mpr ⟨⟨l'.toChannel, l'.regs⟩, State.live_eq_some.mpr ⟨hc', rfl⟩,
        harmed'.trans harmed, hbusy'.trans hbusy, hpend'.trans hpend⟩, ?_⟩
      rw [← hout, State.lineOut_of_live hl0, ← hout']
      simp [State.lineOut, hc']

/-- What every admitted step keeps, a run of admitted steps keeps. -/
theorem execAll_keeps {P : State → Prop} {admitted : Instr → Prop}
    (hstep : ∀ i s t, admitted i → P s → exec i s = .next t → P t) {is : List Instr} {s t : State}
    (his : ∀ i ∈ is, admitted i) (hs : P s) (h : execAll is s = .next t) : P t := by
  induction is generalizing s with
  | nil => cases h; exact hs
  | cons i is ih =>
    obtain ⟨hi, his⟩ := List.forall_mem_cons.mp his
    rw [execAll] at h
    split at h
    · next u hu => exact ih his (hstep i s u hi hs hu) h
    · cases h
    · cases h

/-- Settles O57, by induction over the run: every step of it keeps the line IDLE with what it had sent. -/
theorem idleLineWithoutDrainSendsNothing : Obligations.IdleLineWithoutDrainSendsNothing := by
  unfold Obligations.IdleLineWithoutDrainSendsNothing
  intro is s t line _ hauto hidle his h
  have hs : s.IdleAt line (s.lineOut line) := ⟨hauto, hidle, rfl⟩
  have ht : t.IdleAt line (s.lineOut line) := execAll_keeps (fun _ _ _ hd hs h => hs.step hd h) his hs h
  exact ⟨ht.idle, ht.out⟩

end Sys2Proof.Machine
end

section
/-! PROOFS. The step on a trace entry, power-up, the response of each command, and what no step reads. -/

namespace Sys2Proof.Machine

open Sys2Proof
open Sys2Proof.Config (Build Params)

/-! ### The step and power-up -/

/-- A trace entry that is one whole step is the step to run. -/
theorem fetchArrival_of_decode {a : Arrival} {i : Instr} (h : decode a.port a.bytes = .ok i []) (s : State) :
    fetchArrival a s = .run i s := by
  simp [fetchArrival, h]

/-- A running block fetches the first entry of its trace, which leaves the trace. -/
theorem fetch_cons {s : State} {a : Arrival} {rest : List Arrival} (hf : s.fault = none) (hp : s.pending = a :: rest) :
    fetch s = fetchArrival a { s with pending := rest } := by
  simp [fetch, hf, hp]

/-- Settles O7: the fetched step is the decoded one, from the state without its arrival. -/
theorem stepRunsTheDecodedInstruction : Obligations.StepRunsTheDecodedInstruction := by
  unfold Obligations.StepRunsTheDecodedInstruction
  intro s a rest i hf hp hd
  rw [step, fetch_cons hf hp, fetchArrival_of_decode hd]

/-- A channel at power-up is as it must be between steps: it has no register values yet (R290). -/
theorem Channel.powerUp_ok (b : Build) {k : Config.Caps} (h : k.Admitted) : (Channel.powerUp k).Ok b where
  caps := h
  untouched := fun _ => ⟨rfl, rfl, rfl, rfl⟩
  live := by intro r hr; cases hr

/-- An admitted build meets the invariant at power-up, line by line. -/
theorem State.powerUp_inv {p : Params} (h : p.Admitted) : (State.powerUp p).Inv := by
  obtain ⟨hlines, hcaps, hdepth⟩ := h
  refine ⟨by simpa [State.numLines] using hlines, hdepth, fun c hc => ?_⟩
  obtain ⟨k, hk, rfl⟩ := List.mem_map.mp hc
  exact Channel.powerUp_ok _ (hcaps k hk)

/-- Settles O11: `State.reset` is the power-up of an admitted build. -/
theorem invHoldsAtPowerUp : Obligations.InvHoldsAtPowerUp := by
  unfold Obligations.InvHoldsAtPowerUp
  exact ⟨fun p hp => State.powerUp_inv hp, State.powerUp_inv (by decide)⟩

/-! ### Responses -/

variable {b : Build} {i : Instr} {l l' : Live}

/-- VALUE and the data that a step on the configured channel `l` answers (R100). CONFIGURE and the events answer none
there. -/
def Answers (l : Live) (v : Nat) (data : List Byte) : Instr → Prop
  | .readAvailable _ max => l.regs.rx.Returns l.chan.caps.rx max.toNat v data
  | .write _ bytes => v = min bytes.length (l.chan.caps.tx - l.regs.tx.count) ∧ data = []
  | .drain _ => v = 0 ∧ data = []
  | .rbIsEmpty _ buf => v = (if (l.regs.ring buf).count = 0 then 1 else 0) ∧ data = []
  | .rbIsFull _ buf => v = (if (l.regs.ring buf).count = l.chan.capacity buf then 1 else 0) ∧ data = []
  | .rbPushP _ buf bytes => buf = .tx ∧ v = min bytes.length (l.chan.caps.tx - l.regs.tx.count) ∧ data = []
  | .rbPopP _ buf max => buf = .rx ∧ l.regs.rx.Returns l.chan.caps.rx max.toNat v data
  | .rbPushU _ buf bytes => buf = .rx ∧ v = min bytes.length (l.chan.caps.rx - l.regs.rx.count) ∧ data = []
  | .rbPopU _ buf max => buf = .tx ∧ l.regs.tx.Returns l.chan.caps.tx max.toNat v data
  | .configure _ _ _ => False
  | .evIrq _ => False
  | .evRx _ _ _ => False
  | .evTxDone _ => False

/-- An event's body gives no response. -/
theorem bodyOf_event_response {r : Option Response} (hi : i.op.port = .event)
    (h : bodyOf b i l = .done (l', r)) : r = none := by
  cases i with
  | evIrq => exact (evIrq_inv h).1
  | evRx => exact (evRx_inv h).1
  | evTxDone => exact (evTxDone_inv h).1
  | _ => cases hi

/-- A flag as a VALUE. -/
theorem flagValue_beq (m n : Nat) : flagValue (m == n) = if m = n then 1 else 0 := by
  simp [flagValue]

/-- Every other body that completes gives one response: OP and LINE of the step, and what it answers. -/
theorem bodyOf_response {r : Option Response} (hi : i.op.port ≠ .event) (hc : i.op ≠ .configure)
    (h : bodyOf b i l = .done (l', r)) :
    ∃ v data, r = some (mkResponse i.op i.line v data) ∧ Answers l v data i := by
  cases i with
  | configure => exact absurd rfl hc
  | evIrq => exact absurd rfl hi
  | evRx => exact absurd rfl hi
  | evTxDone => exact absurd rfl hi
  | readAvailable =>
    obtain ⟨_, h1, -⟩ := suspended_eq_done.mp h
    obtain ⟨v, out, hret, rfl⟩ := popBody_returns h1
    exact ⟨v, out, rfl, hret⟩
  | write =>
    obtain ⟨_, h1, -⟩ := suspended_eq_done.mp h
    obtain ⟨_, hpush, -⟩ := writeBody_inv h1
    exact ⟨_, [], (pushBody_inv hpush).2, rfl, rfl⟩
  | drain =>
    obtain ⟨_, h1, -⟩ := suspended_eq_done.mp h
    exact ⟨0, [], (drainStep_inv h1).2, rfl, rfl⟩
  | rbIsEmpty => cases h; exact ⟨_, [], rfl, flagValue_beq _ _, rfl⟩
  | rbIsFull => cases h; exact ⟨_, [], rfl, flagValue_beq _ _, rfl⟩
  | rbPushP line buf bytes =>
    cases buf with
    | rx => cases h
    | tx =>
      have hran : suspended l (pushBody .rbPushP line .tx bytes) = .done (l', r) := h
      obtain ⟨_, h1, -⟩ := suspended_eq_done.mp hran
      exact ⟨_, [], (pushBody_inv h1).2, rfl, rfl, rfl⟩
  | rbPopP line buf max =>
    cases buf with
    | tx => cases h
    | rx =>
      have hran : suspended l (popBody .rbPopP line .rx max.toNat) = .done (l', r) := h
      obtain ⟨_, h1, -⟩ := suspended_eq_done.mp hran
      obtain ⟨v, out, hret, rfl⟩ := popBody_returns h1
      exact ⟨v, out, rfl, rfl, hret⟩
  | rbPushU _ buf =>
    cases buf with
    | tx => cases h
    | rx => exact ⟨_, [], (pushBody_inv h).2, rfl, rfl, rfl⟩
  | rbPopU _ buf =>
    cases buf with
    | rx => cases h
    | tx =>
      obtain ⟨v, out, hret, rfl⟩ := popBody_returns h
      exact ⟨v, out, rfl, rfl, hret⟩

/-- A step of the command or leaf port that completes without a fault ran: it is CONFIGURE, or its line is configured and
its body completed. -/
theorem exec_completes {s t : State} (h : exec i s = .next t) (hf : t.fault = none) (hi : i.op.port ≠ .event) :
    (∃ line x y, i = .configure line x y ∧
      t.responses = s.responses ++ [mkResponse .configure line line.toNat []]) ∨
    (i.op ≠ .configure ∧ ∃ l l' r, s.live i.line = some l ∧ bodyOf s.build i l = .done (l', r) ∧
      t.responses = s.responses ++ r.toList) := by
  by_cases hc : i.op = .configure
  · obtain ⟨line, x, y, rfl, he⟩ := exec_of_configure hc
    rw [he] at h
    obtain ⟨-, ⟨-, rfl⟩ | ⟨c, -, ⟨-, rfl⟩ | ⟨-, rfl⟩⟩⟩ := execConfigure_next h
    · cases hf
    · cases hf
    · exact .inl ⟨line, x, y, rfl, rfl⟩
  · rw [exec_eq_onLine hc, absentOf, if_neg hi] at h
    obtain ⟨-, ⟨-, rfl⟩ | ⟨l, hl, ⟨l', r, hb, rfl⟩ | ⟨_, _, -, rfl⟩⟩⟩ := onLine_next h
    · cases hf
    · exact .inr ⟨hc, l, l', r, hl, hb, rfl⟩
    · cases hf

/-- A step that faults gives no response (R250). -/
theorem responses_of_fault {s t : State} (h : exec i s = .next t) (hf : t.fault ≠ none) :
    t.responses = s.responses := by
  have hs : s.fault = none := exec_next_fault h
  obtain rfl | ⟨_, _, rfl⟩ | ⟨_, _, _, -, -, -, rfl⟩ | ⟨_, _, _, _, -, -, -, rfl⟩ := exec_next h
  · rfl
  · rfl
  · exact absurd hs hf
  · exact absurd hs hf

/-- An event gives no response (R100). -/
theorem responses_of_event {s t : State} (h : exec i s = .next t) (hi : i.op.port = .event) :
    t.responses = s.responses := by
  obtain rfl | ⟨_, _, rfl⟩ | ⟨_, _, r, -, -, hb, rfl⟩ | ⟨_, _, _, _, rfl, -⟩ := exec_next h
  · rfl
  · rfl
  · simp [bodyOf_event_response hi hb]
  · cases hi

/-- Settles O37: CONFIGURE answers its handle, every other command and micro-operation what its body answers. -/
theorem oneResponsePerCommand : Obligations.OneResponsePerCommand := by
  unfold Obligations.OneResponsePerCommand
  intro i s t h
  refine ⟨responses_of_fault h, fun _ => responses_of_event h, fun hf hi => ?_⟩
  obtain ⟨line, x, y, rfl, ht⟩ | ⟨hc, l, l', r, hl, hb, ht⟩ := exec_completes h hf hi
  · obtain ⟨hop, hline, hzero, hval⟩ := mkResponse_fields .configure line line.toNat []
    exact ⟨_, line.toNat, ht, hop, hline, hzero, hval, rfl, rfl⟩
  · obtain ⟨v, data, rfl, hans⟩ := bodyOf_response hi hc hb
    obtain ⟨hop, hline, hzero, hval⟩ := mkResponse_fields i.op i.line v data
    refine ⟨_, v, ht, hop, hline, hzero, hval, ?_⟩
    cases i with
    | configure => exact absurd rfl hc
    | drain | evIrq | evRx | evTxDone => exact hans
    | _ => exact ⟨l, hl, hans⟩

end Sys2Proof.Machine
end

section
/-! PROOFS. What no step reads. -/

namespace Sys2Proof.Machine

open Sys2Proof
open Sys2Proof.Config (Build Clocking)

/-! ### A change of the state that a step carries along -/

/-- A body's result, where it completes, changed by `g`. -/
def Res.map {α β : Type} (g : α → β) (x : Res α) : Res β := x.bind fun a => .done (g a)

@[simp] theorem Res.map_done {α β : Type} (g : α → β) (a : α) : (Res.done a).map g = .done (g a) := rfl
@[simp] theorem Res.map_raised {α β : Type} (g : α → β) (k : FaultKind) (n : BitVec 16) :
    (Res.raised k n).map g = .raised k n := rfl
@[simp] theorem Res.map_stuck {α β : Type} (g : α → β) (e : Fault) : (Res.stuck e).map g = .stuck e := rfl

@[simp] theorem Res.map_id {α : Type} (x : Res α) : x.map id = x := by
  cases x <;> rfl

/-- A body before and after a change `g` of the channel: it does the same, carrying the change. -/
def Carries {α : Type} (g : Live → Live) (body body' : Live → Res (Live × α)) : Prop :=
  ∀ l, body' (g l) = (body l).map (Prod.map g id)

/-- A role check before a body reads no channel (R131). -/
theorem Carries.guarded {α : Type} {g : Live → Live} {body body' : Live → Res (Live × α)} (h : Carries g body body')
    (c : Bool) (k : FaultKind) (n : BitVec 16) :
    Carries g (fun l => if c then body l else .raised k n) (fun l => if c then body' l else .raised k n) := by
  intro l
  cases c with
  | false => rfl
  | true => exact h l

/-- A step on a line carries along a change `f` of the state that is a change `g` of the line's channel, where its body
carries `g` and writing the channel or a fault record commutes with `f`. -/
theorem onLine_mapNext {f : State → State} {g : Live → Live} {s absent : State} {line : Line}
    {body body' : Live → Res (Live × Option Response)} (hfault : (f s).fault = s.fault)
    (hlive : (f s).live line = (s.live line).map g) (hbody : Carries g body body')
    (hput : ∀ l r, ((f s).setChannel line (g l).toChannel).respond r = f ((s.setChannel line l.toChannel).respond r))
    (hraise : ∀ k n, (f s).raiseFault k line n = f (s.raiseFault k line n)) :
    onLine (f s) line (f absent) body' = mapNext f (onLine s line absent body) := by
  cases hf : s.fault with
  | some r => simp only [onLine, whenRunning, hfault, hf, mapNext]
  | none =>
    rw [hf] at hfault
    cases hl : s.live line with
    | none =>
      rw [onLine_absent hf hl, onLine_absent hfault (by rw [hlive, hl, Option.map_none]), mapNext]
    | some l =>
      rw [onLine_live hf hl, onLine_live hfault (by rw [hlive, hl, Option.map_some]), hbody l]
      cases body l with
      | done x => exact congrArg Host.Outcome.next (hput x.1 x.2)
      | raised k n => exact congrArg Host.Outcome.next (hraise k n)
      | stuck e => rfl

/-! ### CLOCKING and RX_ERR_MASK -/

/-- No body reads CLOCKING or RX_ERR_MASK. -/
theorem bodyOf_withUnread (s : State) (k : Clocking) (mask : Nat) (i : Instr) :
    bodyOf (s.withUnread k mask).build i = bodyOf s.build i := by
  funext l
  cases i <;> rfl

theorem absentOf_withUnread (i : Instr) (s : State) (k : Clocking) (mask : Nat) :
    absentOf i (s.withUnread k mask) = (absentOf i s).withUnread k mask := by
  unfold absentOf
  split <;> rfl

/-- CONFIGURE reads neither. -/
theorem execConfigure_withUnread (line : Line) (x y : Byte) (s : State) (k : Clocking) (mask : Nat) :
    execConfigure line x y (s.withUnread k mask) =
      mapNext (fun t => t.withUnread k mask) (execConfigure line x y s) := by
  cases hf : s.fault with
  | some r => simp [execConfigure, whenRunning, State.withUnread, hf, mapNext]
  | none =>
    cases hc : s.ch[line.toNat]? with
    | none => simp [execConfigure, whenRunning, State.withUnread, hf, hc, mapNext, State.raiseFault]
    | some c =>
      cases hcc : c.configured <;>
        simp [execConfigure, whenRunning, State.withUnread, hf, hc, hcc, mapNext, State.raiseFault, State.setChannel,
          State.respond]

/-- Other values of the two parameters are carried through every step (R14, R15). -/
theorem exec_withUnread (i : Instr) (s : State) (k : Clocking) (mask : Nat) :
    exec i (s.withUnread k mask) = mapNext (fun t => t.withUnread k mask) (exec i s) := by
  by_cases hc : i.op = .configure
  · obtain ⟨line, x, y, -, he⟩ := exec_of_configure hc
    rw [he, he, execConfigure_withUnread]
  · rw [exec_eq_onLine hc, exec_eq_onLine hc, absentOf_withUnread, bodyOf_withUnread]
    exact onLine_mapNext (f := fun t => t.withUnread k mask) (g := id) rfl (by rw [Option.map_id]; rfl)
      (fun l => by simp) (fun _ _ => rfl) (fun _ _ => rfl)

/-! ### The pins -/

/-- A configured channel with other pins recorded (R30). -/
def Live.withPins (l : Live) (p q : Byte) : Live where
  chan := l.chan.withPins p q
  regs := { l.regs with txPin := p, rxPin := q }

variable (p q : Byte)

@[simp] theorem Live.withPins_caps (l : Live) : (l.withPins p q).chan.caps = l.chan.caps := rfl
@[simp] theorem Live.withPins_txArmed (l : Live) : (l.withPins p q).chan.txArmed = l.chan.txArmed := rfl
@[simp] theorem Live.withPins_tx (l : Live) : (l.withPins p q).regs.tx = l.regs.tx := rfl
@[simp] theorem Live.withPins_rxHw (l : Live) : (l.withPins p q).regs.rxHw = l.regs.rxHw := rfl
@[simp] theorem Live.withPins_txBusy (l : Live) : (l.withPins p q).regs.txBusy = l.regs.txBusy := rfl
@[simp] theorem Live.withPins_rxCond (l : Live) : (l.withPins p q).rxCond = l.rxCond := rfl
@[simp] theorem Live.withPins_txCond (l : Live) : (l.withPins p q).txCond = l.txCond := rfl
@[simp] theorem Live.withPins_irqReq (l : Live) : (l.withPins p q).irqReq = l.irqReq := rfl

/-- Replacing a ring buffer and replacing the pins do not meet. -/
theorem Live.setRing_withPins (l : Live) (buf : Buf) (rb : RingBuffer) :
    (l.withPins p q).setRing buf rb = (l.setRing buf rb).withPins p q := by
  cases buf <;> rfl

/-- A suspended body carries the pins when the body does. -/
theorem Carries.whenSuspended {α : Type} {body : Live → Res (Live × α)} (h : Carries (·.withPins p q) body body) :
    Carries (·.withPins p q) (fun l => suspended l body) (fun l => suspended l body) := by
  intro l
  have hbody : body (suspend (l.withPins p q)).2 = (body (suspend l).2).map (Prod.map (·.withPins p q) id) :=
    h (suspend l).2
  simp only [suspended, hbody]
  cases body (suspend l).2 <;> rfl

/-- A push reads its own buffer and capacity alone. -/
theorem pushBody_withPins (o : Op) (line : Line) (buf : Buf) (data : List Byte) :
    Carries (·.withPins p q) (pushBody o line buf data) (pushBody o line buf data) := by
  intro l
  cases buf <;> rfl

/-- A pop reads its own buffer and capacity alone. -/
theorem popBody_withPins (o : Op) (line : Line) (buf : Buf) (max : Nat) :
    Carries (·.withPins p q) (popBody o line buf max) (popBody o line buf max) := by
  intro l
  have hpop : rbPop ((l.withPins p q).chan.capacity buf) ((l.withPins p q).regs.ring buf) max =
      rbPop (l.chan.capacity buf) (l.regs.ring buf) max := by cases buf <;> rfl
  unfold popBody
  rw [hpop]
  cases rbPop (l.chan.capacity buf) (l.regs.ring buf) max with
  | done => cases buf <;> rfl
  | raised => rfl
  | stuck => rfl

/-- Writing the UART reads whether it is busy. -/
theorem hwWrite_withPins (l : Live) (v : Byte) :
    hwWrite (l.withPins p q) v = (hwWrite l v).map (·.withPins p q) := by
  unfold hwWrite
  rw [Live.withPins_txBusy]
  cases l.regs.txBusy <;> rfl

/-- The drain body reads the transmit side alone (R186). -/
theorem drainBody_withPins (l : Live) : drainBody (l.withPins p q) = (drainBody l).map (·.withPins p q) := by
  simp only [drainBody, Live.withPins_txArmed, Live.withPins_tx, Live.withPins_caps]
  by_cases hgo : (!l.chan.txArmed && !l.regs.tx.isEmpty) = true
  · simp only [hgo, if_true]
    cases rbPop l.chan.caps.tx l.regs.tx 1 with
    | raised => rfl
    | stuck => rfl
    | done x =>
      obtain ⟨k, out, rb⟩ := x
      cases out with
      | nil => rfl
      | cons v _ =>
        have hw := hwWrite_withPins p q (l.setRing .tx rb) v
        simp only [Res.bind_done]
        rw [Live.setRing_withPins, hw]
        cases hwWrite (l.setRing .tx rb) v <;> rfl
  · simp only [hgo]; rfl

theorem drainStep_withPins (line : Line) : Carries (·.withPins p q) (drainStep line) (drainStep line) := by
  intro l
  unfold drainStep
  rw [drainBody_withPins]
  cases drainBody l <;> rfl

theorem writeBody_withPins (auto : Bool) (line : Line) (data : List Byte) :
    Carries (·.withPins p q) (writeBody auto line data) (writeBody auto line data) := by
  intro l
  unfold writeBody
  rw [pushBody_withPins]
  cases pushBody .write line .tx data l with
  | raised => rfl
  | stuck => rfl
  | done x =>
    cases auto with
    | false => rfl
    | true =>
      have hd := drainBody_withPins p q x.1
      simp only [Res.map_done, Res.bind_done, if_true, Prod.map_fst, hd]
      cases drainBody x.1 <;> rfl

/-- The receive branch reads the UART and the receive buffer alone (R212, R213). -/
theorem rxBranch_withPins (l : Live) : rxBranch (l.withPins p q) = (rxBranch l).withPins p q := by
  unfold rxBranch hwRead
  rw [Live.withPins_rxHw]
  cases l.regs.rxHw with
  | nil => rfl
  | cons e es => cases he : e.err <;> simp [he] <;> rfl

/-- The transmit branch reads the transmit side alone (R214). -/
theorem txBranch_withPins (l : Live) : txBranch (l.withPins p q) = (txBranch l).map (·.withPins p q) := by
  unfold txBranch
  rw [Live.withPins_caps, Live.withPins_tx]
  cases rbPop l.chan.caps.tx l.regs.tx 1 with
  | raised => rfl
  | stuck => rfl
  | done x =>
    obtain ⟨k, out, rb⟩ := x
    cases out with
    | nil => rfl
    | cons v _ => exact hwWrite_withPins p q { l with regs := { l.regs with txDonePend := false, tx := rb } } v

/-- The handler reads its two conditions, which are not of the pins (R210, R211). -/
theorem handler_withPins (l : Live) : handler (l.withPins p q) = (handler l).map (·.withPins p q) := by
  have hrx : (if l.rxCond then rxBranch (l.withPins p q) else l.withPins p q) =
      (if l.rxCond then rxBranch l else l).withPins p q := by
    rw [rxBranch_withPins]; split <;> rfl
  have htx := txBranch_withPins p q (if l.rxCond then rxBranch l else l)
  rw [← hrx] at htx
  by_cases hcond : l.txCond = true
  · simp only [handler, Live.withPins_rxCond, Live.withPins_txCond, hcond, if_true]; exact htx
  · simp only [handler, Live.withPins_rxCond, Live.withPins_txCond, hcond]; exact congrArg Res.done hrx

/-- No body reads the pins its line has recorded. -/
theorem bodyOf_withPins (b : Build) {i : Instr} (hc : i.op ≠ .configure) :
    Carries (·.withPins p q) (bodyOf b i) (bodyOf b i) := by
  intro l
  cases i with
  | configure => exact absurd rfl hc
  | readAvailable => exact (popBody_withPins p q _ _ _ _).whenSuspended p q l
  | write => exact (writeBody_withPins p q _ _ _).whenSuspended p q l
  | drain => exact (drainStep_withPins p q _).whenSuspended p q l
  | rbIsEmpty _ buf => cases buf <;> rfl
  | rbIsFull _ buf => cases buf <;> rfl
  | rbPushP => exact ((pushBody_withPins p q _ _ _ _).whenSuspended p q).guarded _ _ _ l
  | rbPopP => exact ((popBody_withPins p q _ _ _ _).whenSuspended p q).guarded _ _ _ l
  | rbPushU => exact (pushBody_withPins p q _ _ _ _).guarded _ _ _ l
  | rbPopU => exact (popBody_withPins p q _ _ _ _).guarded _ _ _ l
  | evIrq =>
    simp only [bodyOf, Live.withPins_irqReq, handler_withPins]
    by_cases hreq : l.irqReq = true
    · simp only [hreq, if_true]
      cases handler l <;> rfl
    · simp only [hreq]; rfl
  | evRx =>
    simp only [bodyOf, Live.withPins_rxHw]
    by_cases hroom : l.regs.rxHw.length < b.uartRxDepth
    · simp only [hroom, if_true]; rfl
    · simp only [hroom]; rfl
  | evTxDone =>
    simp only [bodyOf, Live.withPins_txBusy]
    by_cases hbusy : l.regs.txBusy = true
    · simp only [hbusy, if_true]; rfl
    · simp only [hbusy]; rfl

theorem absentOf_withPins (i : Instr) (s : State) (line : Line) :
    absentOf i (s.withPins line p q) = (absentOf i s).withPins line p q := by
  unfold absentOf
  split <;> rfl

/-- A line's own configured channel, with its pins replaced. -/
theorem State.live_withPins_self (s : State) (line : Line) :
    (s.withPins line p q).live line = (s.live line).map (·.withPins p q) := by
  simp only [State.live, State.withPins, List.getElem?_modify_eq]
  cases s.ch[line.toNat]? with
  | none => rfl
  | some c => cases hr : c.regs <;> simp [Channel.withPins, hr, Live.withPins]

theorem State.live_withPins_of_ne (s : State) {line line' : Line} (h : line ≠ line') :
    (s.withPins line p q).live line' = s.live line' := by
  have hne : line.toNat ≠ line'.toNat := fun e => h (BitVec.eq_of_toNat_eq e)
  simp only [State.live, State.withPins, List.getElem?_modify_ne _ _ hne]

/-- Setting an entry and modifying it are the same in either order, once what is set is modified too. -/
theorem set_modify_self {α : Type} (xs : List α) (k : Nat) (f : α → α) (x : α) :
    (xs.modify k f).set k (f x) = (xs.set k x).modify k f := by
  refine List.ext_getElem? fun j => ?_
  by_cases hj : k = j
  · subst hj
    by_cases hk : k < xs.length <;> simp [hk]
  · simp [hj]

/-- Setting one entry and modifying another commute. -/
theorem set_modify_of_ne {α : Type} (xs : List α) {k j : Nat} (h : k ≠ j) (f : α → α) (x : α) :
    (xs.modify k f).set j x = (xs.set j x).modify k f := by
  refine List.ext_getElem? fun m => ?_
  by_cases hm : j = m
  · subst hm
    simp [List.getElem?_set, List.getElem?_modify_ne _ _ h]
  · simp [hm, List.getElem?_modify]

/-- Replacing a line's pins and then writing its record is writing the record and then replacing the pins. -/
theorem State.setChannel_withPins_self (s : State) (line : Line) (l : Live) :
    (s.withPins line p q).setChannel line (l.withPins p q).toChannel =
      (s.setChannel line l.toChannel).withPins line p q :=
  congrArg (fun ch => { s with ch := ch }) (set_modify_self s.ch line.toNat (·.withPins p q) l.toChannel)

theorem State.setChannel_withPins_of_ne (s : State) {line line' : Line} (h : line ≠ line') (c : Channel) :
    (s.withPins line p q).setChannel line' c = (s.setChannel line' c).withPins line p q :=
  congrArg (fun ch => { s with ch := ch })
    (set_modify_of_ne s.ch (fun e => h (BitVec.eq_of_toNat_eq e)) (·.withPins p q) c)

/-- Other pins recorded on any line are carried through every step but CONFIGURE (R30). -/
theorem exec_withPins {i : Instr} (hc : i.op ≠ .configure) (s : State) (line : Line) :
    exec i (s.withPins line p q) = mapNext (fun t => t.withPins line p q) (exec i s) := by
  rw [exec_eq_onLine hc, exec_eq_onLine hc, absentOf_withPins]
  by_cases hline : line = i.line
  · rw [hline]
    exact onLine_mapNext (f := fun t => t.withPins i.line p q) (g := (·.withPins p q)) rfl
      (State.live_withPins_self p q s _) (bodyOf_withPins p q _ hc)
      (fun l r => by rw [State.setChannel_withPins_self]; rfl) (fun _ _ => rfl)
  · exact onLine_mapNext (f := fun t => t.withPins line p q) (g := id) rfl
      (by rw [Option.map_id]; exact State.live_withPins_of_ne p q s hline) (fun l => by simp; rfl)
      (fun l r => by simp only [id]; rw [State.setChannel_withPins_of_ne p q s hline]; rfl) (fun _ _ => rfl)

/-- Settles O50: the two parameters ride along in the build, the pins in the record of their line. -/
theorem unreadParametersDoNotMatter : Obligations.UnreadParametersDoNotMatter := by
  unfold Obligations.UnreadParametersDoNotMatter
  exact ⟨exec_withUnread, fun i s line p q hc => exec_withPins p q hc s line⟩

end Sys2Proof.Machine
end

section
/-! PROOFS. What a push and a pop do to the contents of a ring buffer, and that both keep the ring invariant (R25). -/

namespace Sys2Proof.Machine

open Sys2Proof

/-! ### Pop -/

/-- A read stops short where one of its slots holds no value. -/
theorem readSlots_eq_none_iff {m : Memory} {N s k : Nat} :
    readSlots m N s k = none ↔ ∃ i < k, m.read ((s + i) % N) = none := by
  rw [← Option.not_isSome_iff_eq_none, readSlots_isSome_iff]
  simp

/-- Settles O24: a pop reads its slots and does nothing else that could stop it. -/
theorem popOfUnwrittenSlotStops : Obligations.PopOfUnwrittenSlotStops := by
  unfold Obligations.PopOfUnwrittenSlotStops
  intro N rb max
  rw [← readSlots_eq_none_iff]
  obtain ⟨out, hread, hpop⟩ | ⟨hread, hpop⟩ := rbPop_cases N rb max
  · simp [hread, hpop]
  · simp [hread, hpop]

variable {N : Nat} {rb : RingBuffer} {cs : List Byte}

/-- A pop of a buffer whose contents are written takes the oldest of them (R140). -/
theorem rbPop_of_contents (hc : rb.contents N = some cs) (max : Nat) :
    rbPop N rb max = .done ⟨min max rb.count, cs.take max,
      { rb with tail := (rb.tail + min max rb.count) % N, count := rb.count - min max rb.count }⟩ := by
  have hread : readSlots rb.store N rb.tail (min max rb.count) = some (cs.take max) := readSlots_take max hc
  simp [rbPop, hread]

/-- Moving the tail over k bytes of the contents leaves the contents after them (R140). -/
theorem RingBuffer.contents_pop (hc : rb.contents N = some cs) {k : Nat} (hk : k ≤ rb.count) :
    RingBuffer.contents N { rb with tail := (rb.tail + k) % N, count := rb.count - k } = some (cs.drop k) := by
  rw [RingBuffer.contents, readSlots_mod]
  exact readSlots_drop k hk hc

/-- Moving the tail over k bytes of the contents keeps the ring invariant. -/
theorem RingBuffer.Ok.pop (h : rb.Ok N) {k : Nat} (hk : k ≤ rb.count) :
    RingBuffer.Ok N { rb with tail := (rb.tail + k) % N, count := rb.count - k } where
  capacity := h.capacity
  count_le := (Nat.sub_le _ _).trans h.count_le
  head_lt := h.head_lt
  tail_lt := Nat.mod_lt _ h.capacity
  head_eq := by
    have hsum : rb.tail + k + (rb.count - k) = rb.tail + rb.count := by omega
    rw [h.head_eq, Nat.mod_add_mod, hsum]
  store_wf := h.store_wf
  store_lt := h.store_lt
  written := by
    obtain ⟨cs, hc⟩ := Option.isSome_iff_exists.mp h.written
    rw [RingBuffer.contents_pop hc hk, Option.isSome_some]

/-- The oldest byte of the contents is the one at the tail. -/
theorem RingBuffer.contents_cons {v : Byte} {vs : List Byte} (hc : rb.contents N = some (v :: vs)) :
    rb.count = vs.length + 1 ∧ rb.store.read (rb.tail % N) = some v := by
  have hcount : rb.count = vs.length + 1 := (RingBuffer.contents_length hc).symm
  obtain ⟨-, hread⟩ := readSlots_eq_some_iff.mp hc
  exact ⟨hcount, by simpa using hread 0 (by omega)⟩

/-! ### Push -/

/-- The free slots from head on are none of the contents' (R138). -/
theorem RingBuffer.Ok.free_slot_ne (h : rb.Ok N) {i j : Nat} (hi : rb.count + i < N) (hj : j < rb.count) :
    (rb.head + i) % N ≠ (rb.tail + j) % N := by
  intro he
  rw [h.head_eq, Nat.mod_add_mod, Nat.add_assoc] at he
  have := add_mod_inj hi (by omega) he
  omega

/-- A push appends the bytes that fit (R134). -/
theorem rbPush_contents (h : rb.Ok N) (hc : rb.contents N = some cs) (data : List Byte) :
    (rbPush N rb data).2.contents N = some (cs ++ data.take (N - cs.length)) := by
  have hle := h.count_le
  have htake : data.take (min data.length (N - rb.count)) = data.take (N - rb.count) := by
    rw [Nat.min_comm, ← List.take_eq_take_min]
  have hlen : min data.length (N - rb.count) = (data.take (N - rb.count)).length := by
    rw [List.length_take, Nat.min_comm]
  rw [RingBuffer.contents_length hc, RingBuffer.contents, rbPush_count, rbPush_store, rbPush_tail, htake, hlen]
  refine readSlots_add ?_ ?_
  · rw [← hc]
    refine readSlots_congr fun j hj => read_writeSlots_of_ne fun i hi => h.free_slot_ne ?_ hj
    omega
  · rw [← readSlots_mod, ← h.head_eq]
    exact readSlots_writeSlots (by omega)

/-- A push keeps the ring invariant. -/
theorem RingBuffer.Ok.push (h : rb.Ok N) (data : List Byte) : (rbPush N rb data).2.Ok N where
  capacity := h.capacity
  count_le := by have := h.count_le; rw [rbPush_count]; omega
  head_lt := Nat.mod_lt _ h.capacity
  tail_lt := h.tail_lt
  head_eq := by rw [rbPush_head, rbPush_tail, rbPush_count, h.head_eq, Nat.mod_add_mod, Nat.add_assoc]
  store_wf := rbPush_storage_wf data h.store_wf
  store_lt := lt_writeSlots h.capacity _ _ h.store_lt
  written := by
    obtain ⟨cs, hc⟩ := Option.isSome_iff_exists.mp h.written
    rw [rbPush_contents h hc, Option.isSome_some]

end Sys2Proof.Machine
end

section
/-! PROOFS. The invariant of a configured line as far as the body of a step relies on it, inside the interrupt-line
suspension too: every body completes from it and keeps it. So every step keeps the block's invariant, and none stops. -/

namespace Sys2Proof.Machine

open Sys2Proof
open Sys2Proof.Config (Build)

/-! ### The transmit flags -/

/-- The three flags of a transmit state: armed, busy, transmit-ready event pending (R38). -/
def TxState.flags : TxState → Bool × Bool × Bool
  | .idle => (false, false, false)
  | .armedBusy => (true, true, false)
  | .armedReady => (true, false, true)

/-- A line is in a transmit state when its flags are that state's. -/
theorem Live.txState_eq_some {l : Live} {st : TxState} :
    l.txState = some st ↔ (l.chan.txArmed, l.regs.txBusy, l.regs.txDonePend) = st.flags := by
  unfold Live.txState
  cases l.chan.txArmed <;> cases l.regs.txBusy <;> cases l.regs.txDonePend <;> cases st <;> simp [TxState.flags]

/-- The transmit state is read from the three flags alone. -/
theorem Live.txState_congr {l l' : Live} (harmed : l'.chan.txArmed = l.chan.txArmed)
    (hbusy : l'.regs.txBusy = l.regs.txBusy) (hpend : l'.regs.txDonePend = l.regs.txDonePend) :
    l'.txState = l.txState := by
  simp only [Live.txState, harmed, hbusy, hpend]

/-- A disarmed line in a transmit state is IDLE. -/
theorem Live.idle_of_disarmed {l : Live} (h : l.txState.isSome = true) (harmed : l.chan.txArmed = false) :
    l.regs.txBusy = false ∧ l.regs.txDonePend = false := by
  simpa [Live.txState_isSome, harmed] using h

/-- A line in a transmit state whose transmit condition holds is ARMED-READY. -/
theorem Live.ready_of_txCond {l : Live} (h : l.txState.isSome = true) (hcond : l.txCond = true) :
    l.chan.txArmed = true ∧ l.regs.txBusy = false := by
  obtain ⟨harmed, hpend⟩ : l.chan.txArmed = true ∧ l.regs.txDonePend = true := by simpa [Live.txCond] using hcond
  simpa [Live.txState_isSome, harmed, hpend] using h

/-! ### A sound line -/

/-- What the body of a step relies on and keeps: both ring buffers (R25), a transmit state (R38), the UART's receive depth
(R39). -/
structure Live.Sound (b : Build) (l : Live) : Prop where
  rx : l.regs.rx.Ok l.chan.caps.rx
  tx : l.regs.tx.Ok l.chan.caps.tx
  txState : l.txState.isSome = true
  rxHw_le : l.regs.rxHw.length ≤ b.uartRxDepth

variable {b : Build} {i : Instr} {l l' : Live} {α : Type}

theorem Live.Ok.sound (h : l.Ok b) : l.Sound b := ⟨h.rx, h.tx, h.txState, h.rxHw_le⟩

theorem Live.Sound.suspend (h : l.Sound b) : (suspend l).2.Sound b := ⟨h.rx, h.tx, h.txState, h.rxHw_le⟩

theorem Live.Sound.restore (h : l.Sound b) (saved : Bool) : (restore saved l).Sound b :=
  ⟨h.rx, h.tx, h.txState, h.rxHw_le⟩

/-- The buffer BUF selects meets the ring invariant. -/
theorem Live.Sound.ring (h : l.Sound b) : ∀ buf, (l.regs.ring buf).Ok (l.chan.capacity buf)
  | .rx => h.rx
  | .tx => h.tx

/-- Putting back a buffer that meets the ring invariant. -/
theorem Live.Sound.setRing (h : l.Sound b) {rb : RingBuffer} :
    ∀ {buf}, rb.Ok (l.chan.capacity buf) → (l.setRing buf rb).Sound b
  | .rx, hrb => ⟨hrb, h.tx, h.txState, h.rxHw_le⟩
  | .tx, hrb => ⟨h.rx, hrb, h.txState, h.rxHw_le⟩

/-- The result of a body is a completion that leaves the line sound. -/
def Completes (b : Build) (x : Res (Live × α)) : Prop := ∃ l' a, x = .done (l', a) ∧ l'.Sound b

theorem Completes.done {a : α} (h : l.Sound b) : Completes b (.done (l, a)) := ⟨l, a, rfl, h⟩

/-- A body that completes on the suspended line completes around the suspension (R62). -/
theorem Completes.whenSuspended {body : Live → Res (Live × α)} (h : Completes b (body (suspend l).2)) :
    Completes b (suspended l body) := by
  obtain ⟨l1, a, h1, hl1⟩ := h
  exact ⟨_, a, suspended_eq_done.mpr ⟨l1, h1, rfl⟩, hl1.restore _⟩

/-! ### Bodies that complete -/

theorem pushBody_completes (o : Op) (line : Line) (buf : Buf) (data : List Byte) (h : l.Sound b) :
    Completes b (pushBody o line buf data l) :=
  .done (h.setRing ((h.ring buf).push data))

theorem popBody_completes (o : Op) (line : Line) (buf : Buf) (max : Nat) (h : l.Sound b) :
    Completes b (popBody o line buf max l) := by
  obtain ⟨cs, hc⟩ := Option.isSome_iff_exists.mp (h.ring buf).written
  rw [popBody, rbPop_of_contents hc]
  exact .done (h.setRing ((h.ring buf).pop (Nat.min_le_right _ _)))

/-- The drain body of a disarmed idle line with bytes queued sends the oldest and arms (R186). -/
theorem drainBody_sends {v : Byte} {vs : List Byte} (harmed : l.chan.txArmed = false) (hbusy : l.regs.txBusy = false)
    (hc : l.regs.tx.contents l.chan.caps.tx = some (v :: vs)) :
    drainBody l = .done
      ⟨{ l.chan with txArmed := true, lineOut := l.chan.lineOut ++ [v] },
        { l.regs with
          tx := { l.regs.tx with tail := (l.regs.tx.tail + 1) % l.chan.caps.tx, count := l.regs.tx.count - 1 }
          txBusy := true }⟩ := by
  obtain ⟨hcount, -⟩ := RingBuffer.contents_cons hc
  simp [drainBody, harmed, RingBuffer.isEmpty, hcount, rbPop_of_contents hc, hwWrite, hbusy]

/-- The drain body of a sound line completes: the transmitter of a disarmed one is not busy. -/
theorem drainBody_completes (h : l.Sound b) : ∃ l', drainBody l = .done l' ∧ l'.Sound b := by
  obtain ⟨cs, hc⟩ := Option.isSome_iff_exists.mp h.tx.written
  cases harmed : l.chan.txArmed with
  | true => exact ⟨l, drainBody_idle (.inl harmed), h⟩
  | false =>
    cases cs with
    | nil => exact ⟨l, drainBody_idle (.inr (RingBuffer.contents_length hc).symm), h⟩
    | cons v vs =>
      obtain ⟨hbusy, hpend⟩ := Live.idle_of_disarmed h.txState harmed
      obtain ⟨hcount, -⟩ := RingBuffer.contents_cons hc
      refine ⟨_, drainBody_sends harmed hbusy hc, h.rx, h.tx.pop (by omega), ?_, h.rxHw_le⟩
      simp [Live.txState_isSome, hpend]

theorem drainStep_completes (line : Line) (h : l.Sound b) : Completes b (drainStep line l) := by
  obtain ⟨l', hd, hl'⟩ := drainBody_completes h
  rw [drainStep, hd]
  exact .done hl'

theorem writeBody_completes (auto : Bool) (line : Line) (data : List Byte) (h : l.Sound b) :
    Completes b (writeBody auto line data l) := by
  obtain ⟨l1, r, hpush, h1⟩ := pushBody_completes .write line .tx data h
  rw [writeBody, hpush]
  cases auto with
  | false => exact .done h1
  | true =>
    obtain ⟨l2, hd, h2⟩ := drainBody_completes h1
    simp only [Res.bind_done, if_true, hd]
    exact .done h2

/-! ### The handler completes -/

theorem rxBranch_sound (h : l.Sound b) : (rxBranch l).Sound b := by
  obtain ⟨-, he⟩ | ⟨e, es, hhw, he⟩ := rxBranch_cases l
  · rw [he]; exact h
  · have hle : es.length ≤ b.uartRxDepth := by have := h.rxHw_le; simp [hhw] at this; omega
    rw [he]
    refine ⟨?_, h.tx, h.txState, hle⟩
    cases e.err with
    | true => exact h.rx
    | false => exact h.rx.push _

/-- The transmit branch of a sound line at its condition completes: the transmitter is not busy. -/
theorem txBranch_completes (h : l.Sound b) (hcond : l.txCond = true) : ∃ l', txBranch l = .done l' ∧ l'.Sound b := by
  obtain ⟨harmed, hbusy⟩ := Live.ready_of_txCond h.txState hcond
  obtain ⟨cs, hc⟩ := Option.isSome_iff_exists.mp h.tx.written
  rw [txBranch, rbPop_of_contents hc]
  have htx := h.tx.pop (Nat.min_le_right 1 _)
  cases cs with
  | nil => exact ⟨_, rfl, h.rx, htx, by simp [Live.txState_isSome, hbusy], h.rxHw_le⟩
  | cons v vs =>
    refine ⟨_, hwWrite_eq_done.mpr ⟨hbusy, rfl⟩, h.rx, htx, ?_, h.rxHw_le⟩
    simp [Live.txState_isSome, harmed]

theorem handler_completes (h : l.Sound b) : ∃ l', handler l = .done l' ∧ l'.Sound b := by
  have h1 : (if l.rxCond then rxBranch l else l).Sound b := by
    split
    · exact rxBranch_sound h
    · exact h
  cases hcond : l.txCond with
  | false => exact ⟨_, by simp [handler, hcond], h1⟩
  | true =>
    obtain ⟨-, -, -, hpend, harmed, -⟩ := rxBranch_kept l
    have hcond1 : (if l.rxCond then rxBranch l else l).txCond = true := by
      rw [← hcond]
      split
      · simp only [Live.txCond, harmed, hpend]
      · rfl
    simpa [handler, hcond] using txBranch_completes h1 hcond1

/-! ### Every body -/

/-- A role check before a body that completes completes or raises ROLE_VIOLATION (R131). -/
theorem Completes.guarded {x : Res (Live × α)} (h : Completes b x) (ok : Bool) (n : BitVec 16) :
    Completes b (if ok then x else .raised .roleViolation n) ∨
      (if ok then x else .raised .roleViolation n) = .raised .roleViolation n := by
  cases ok with
  | true => exact .inl h
  | false => exact .inr rfl

/-- On a sound line every body completes and leaves it sound, or raises ROLE_VIOLATION. -/
theorem bodyOf_completes (i : Instr) (h : l.Sound b) :
    Completes b (bodyOf b i l) ∨ ∃ n, bodyOf b i l = .raised .roleViolation n := by
  cases i with
  | configure => exact .inl (.done h)
  | readAvailable => exact .inl (popBody_completes _ _ _ _ h.suspend).whenSuspended
  | write => exact .inl (writeBody_completes _ _ _ h.suspend).whenSuspended
  | drain => exact .inl (drainStep_completes _ h.suspend).whenSuspended
  | rbIsEmpty => exact .inl (.done h)
  | rbIsFull => exact .inl (.done h)
  | rbPushP => exact (((pushBody_completes _ _ _ _ h.suspend).whenSuspended).guarded _ _).imp_right fun he => ⟨_, he⟩
  | rbPopP => exact (((popBody_completes _ _ _ _ h.suspend).whenSuspended).guarded _ _).imp_right fun he => ⟨_, he⟩
  | rbPushU => exact ((pushBody_completes _ _ _ _ h).guarded _ _).imp_right fun he => ⟨_, he⟩
  | rbPopU => exact ((popBody_completes _ _ _ _ h).guarded _ _).imp_right fun he => ⟨_, he⟩
  | evIrq =>
    refine .inl ?_
    rw [bodyOf]
    split
    · obtain ⟨l', hh, hl'⟩ := handler_completes h
      rw [hh]
      exact .done hl'
    · exact .done h
  | evRx =>
    refine .inl ?_
    rw [bodyOf]
    split
    · next hroom => exact .done ⟨h.rx, h.tx, h.txState, by simpa using hroom⟩
    · exact .done h
  | evTxDone =>
    refine .inl ?_
    rw [bodyOf]
    split
    · next hbusy =>
      refine .done ⟨h.rx, h.tx, ?_, h.rxHw_le⟩
      have hst := h.txState
      simp [Live.txState_isSome, hbusy] at hst
      simp [Live.txState_isSome, hst]
    · exact .done h

/-- Every body that completes on a sound line leaves it sound. -/
theorem bodyOf_sound {r : Option Response} (h : l.Sound b) (hb : bodyOf b i l = .done (l', r)) : l'.Sound b := by
  obtain ⟨l1, a, h1, hl1⟩ | ⟨n, h1⟩ := bodyOf_completes i h
  · rw [hb] at h1
    cases h1
    exact hl1
  · rw [hb] at h1
    cases h1

/-! ### The invariant of the block -/

/-- A body keeps the invariant of its line: what it relies on, and the two enables (R31, R33). -/
theorem bodyOf_ok {r : Option Response} (h : l.Ok b) (hb : bodyOf b i l = .done (l', r)) : l'.Ok b :=
  have hs := bodyOf_sound h.sound hb
  have hk := bodyOf_kept hb
  ⟨hs.rx, hs.tx, hs.txState, hs.rxHw_le, hk.rxIe.trans h.rxIe, hk.lineEn.trans h.lineEn⟩

/-- CONFIGURE leaves a line as it must be between steps (R172). -/
theorem Channel.afterConfigure_ok {c : Channel} (h : c.caps.Admitted) (x y : Byte) : (c.afterConfigure x y).Ok b where
  caps := h
  untouched := fun hr => nomatch hr
  live := by
    intro r hr
    cases hr
    exact ⟨RingBuffer.fresh_ok h.1.1, RingBuffer.fresh_ok h.2.1, rfl, Nat.zero_le _, rfl, rfl⟩

/-- A record's step keeps the record as it must be between steps. -/
theorem RecordStep.ok {c c' : Channel} (h : c.Ok b) (hstep : RecordStep b i c c') : c'.Ok b := by
  cases hstep with
  | @body l l' r chan_eq regs_eq ran next_eq =>
    subst chan_eq next_eq
    have hl' : l'.Ok b := bodyOf_ok (h.live _ regs_eq) ran
    refine ⟨(bodyOf_kept ran).caps ▸ h.caps, (fun hr => nomatch hr), fun r hr => ?_⟩
    cases hr
    exact ⟨hl'.rx, hl'.tx, hl'.txState, hl'.rxHw_le, hl'.rxIe, hl'.lineEn⟩
  | configure _ _ next_eq => subst next_eq; exact Channel.afterConfigure_ok h.caps _ _

/-- No step changes the number of lines (R10). -/
theorem exec_numLines {s t : State} (h : exec i s = .next t) : t.numLines = s.numLines := by
  simpa [State.numLines] using congrArg List.length (parametersNeverChange i s t h).2

/-- Every instruction keeps the invariant of the block. -/
theorem exec_inv {s t : State} (hs : s.Inv) (h : exec i s = .next t) : t.Inv := by
  have hbuild := exec_build h
  refine ⟨exec_numLines h ▸ hs.lines, hbuild ▸ hs.depth, fun c' hc' => ?_⟩
  rw [hbuild]
  obtain ⟨k, hk⟩ := List.getElem?_of_mem hc'
  obtain hsame | ⟨-, c, d, hc, hd, hstep⟩ := exec_record h k
  · exact hs.channels c' (List.mem_of_getElem? (hsame ▸ hk))
  · obtain rfl : c' = d := by simpa [hk] using hd
    exact hstep.ok (hs.channels c (List.mem_of_getElem? hc))

/-- The invariant is of the build and the channels alone. -/
theorem State.Inv.congr {s t : State} (hs : s.Inv) (hbuild : t.build = s.build) (hch : t.ch = s.ch) : t.Inv :=
  ⟨by simpa only [State.numLines, hch] using hs.lines, hbuild ▸ hs.depth, by rw [hbuild, hch]; exact hs.channels⟩

/-- A step that answers a next state takes the first arrival off the trace, and raises ILLEGAL_COMMAND or runs an
instruction. -/
theorem step_next {s t : State} (h : step s = .next t) :
    ∃ rest, (∃ line n, t = State.raiseFault { s with pending := rest } .illegalCommand line n) ∨
      ∃ i, exec i { s with pending := rest } = .next t := by
  unfold step fetch at h
  split at h
  · next i u hfetch =>
    split at hfetch
    · cases hfetch
    · split at hfetch
      · cases hfetch
      · next a rest _ =>
        unfold fetchArrival at hfetch
        split at hfetch <;> cases hfetch
        exact ⟨rest, .inr ⟨i, h⟩⟩
  · next o hfetch =>
    subst h
    split at hfetch
    · cases hfetch
    · split at hfetch
      · cases hfetch
      · next a rest _ =>
        unfold fetchArrival at hfetch
        split at hfetch <;> cases hfetch
        exact ⟨rest, .inl ⟨_, _, rfl⟩⟩

/-- Settles O12: a step is an instruction from the state without its arrival, or a fault record in it. -/
theorem everyStepKeepsInv : Obligations.EveryStepKeepsInv := by
  unfold Obligations.EveryStepKeepsInv
  intro s t hs h
  obtain ⟨rest, ⟨line, n, rfl⟩ | ⟨i, hi⟩⟩ := step_next h
  · exact hs.congr rfl rfl
  · have hrest : State.Inv { s with pending := rest } := hs.congr rfl rfl
    exact exec_inv hrest hi

/-! ### Progress -/

/-- CONFIGURE of a line the build does not have (R173). -/
theorem execConfigure_out_of_range {s : State} {line : Line} (hf : s.fault = none) (hch : s.ch[line.toNat]? = none)
    (x y : Byte) : execConfigure line x y s = .next (s.raiseFault .configError line 0) := by
  simp [execConfigure, hf, hch]

/-- CONFIGURE of a configured line (R174). -/
theorem execConfigure_again {s : State} {line : Line} {c : Channel} (hf : s.fault = none)
    (hch : s.ch[line.toNat]? = some c) (hc : c.configured = true) (x y : Byte) :
    execConfigure line x y s = .next (s.raiseFault .reconfigure line 0) := by
  simp [execConfigure, hf, hch, hc]

/-- CONFIGURE of a line that is not configured (R172). -/
theorem execConfigure_sets_up {s : State} {line : Line} {c : Channel} (hf : s.fault = none)
    (hch : s.ch[line.toNat]? = some c) (hc : c.configured = false) (x y : Byte) :
    execConfigure line x y s = .next ((s.setChannel line (c.afterConfigure x y)).respond
      (some (mkResponse .configure line line.toNat []))) := by
  simp [execConfigure, hf, hch, hc]

/-- A running block's CONFIGURE answers a next state, with no fault but its two (R173, R174). -/
theorem execConfigure_total {s : State} (hf : s.fault = none) (line : Line) (x y : Byte) :
    ∃ t, execConfigure line x y s = .next t ∧
      ∀ r, t.fault = some r → r.kind = .configError ∨ r.kind = .reconfigure := by
  cases hch : s.ch[line.toNat]? with
  | none => exact ⟨_, execConfigure_out_of_range hf hch x y, by rintro r ⟨⟩; exact .inl rfl⟩
  | some c =>
    cases hc : c.configured with
    | true => exact ⟨_, execConfigure_again hf hch hc x y, by rintro r ⟨⟩; exact .inr rfl⟩
    | false => exact ⟨_, execConfigure_sets_up hf hch hc x y, by simp [hf]⟩

/-- Settles O19: CONFIGURE is total; any other step runs a body that completes or raises ROLE_VIOLATION, or has no line. -/
theorem noStepStopsUnderInv : Obligations.NoStepStopsUnderInv := by
  unfold Obligations.NoStepStopsUnderInv
  intro i s hs hf
  by_cases hc : i.op = .configure
  · obtain ⟨line, x, y, rfl, he⟩ := exec_of_configure hc
    obtain ⟨t, ht, hfault⟩ := execConfigure_total hf line x y
    exact ⟨t, (he s).trans ht, fun r hr => (hfault r hr).imp_right .inl⟩
  · cases hl : s.live i.line with
    | none =>
      refine ⟨absentOf i s, by rw [exec_eq_onLine hc, onLine_absent hf hl], fun r hr => ?_⟩
      unfold absentOf at hr
      split at hr
      · rw [hf] at hr; cases hr
      · cases hr; exact .inr (.inr (.inl rfl))
    | some l =>
      rw [exec_of_live hc hf hl]
      obtain ⟨l', r, hb, -⟩ | ⟨n, hb⟩ := bodyOf_completes i (hs.live_ok hl).sound
      · exact ⟨_, by rw [hb, commit], by simp [hf]⟩
      · exact ⟨_, by rw [hb, commit], by rintro r ⟨⟩; exact .inr (.inr (.inr rfl))⟩

end Sys2Proof.Machine
end

section
/-! PROOFS. The outcome of a step as its own line decides it: what a fault leaves, what stays as it was on every line, and
that a step reads and writes its own line alone (R22, R23, R250). -/

namespace Sys2Proof.Machine

open Sys2Proof

variable {i : Instr} {s s' t : State} {line : Line} {l l' : Live}

/-! ### The outcome of a step on a configured line -/

/-- A step whose body completes writes its line's record and gives its response. -/
theorem exec_of_done {r : Option Response} (hc : i.op ≠ .configure) (hf : s.fault = none)
    (hl : s.live i.line = some l) (hb : bodyOf s.build i l = .done (l', r)) :
    exec i s = .next ((s.setChannel i.line l'.toChannel).respond r) := by
  rw [exec_of_live hc hf hl, hb, commit]

/-- A step whose body raises a fault leaves the state before it with the record (R250). -/
theorem exec_of_raised {k : FaultKind} {n : BitVec 16} (hc : i.op ≠ .configure) (hf : s.fault = none)
    (hl : s.live i.line = some l) (hb : bodyOf s.build i l = .raised k n) :
    exec i s = .next (s.raiseFault k i.line n) := by
  rw [exec_of_live hc hf hl, hb, commit]

/-- An event without its line leaves the state, any other step records NOT_CONFIGURED in it. -/
theorem absentOf_eq_withFault (i : Instr) :
    ∃ f, ∀ s : State, s.fault = none → absentOf i s = { s with fault := f } := by
  by_cases hi : i.op.port = .event
  · refine ⟨none, fun s hf => ?_⟩
    rw [absentOf, if_pos hi, ← hf]
  · exact ⟨_, fun s _ => by rw [absentOf, if_neg hi]; rfl⟩

/-! ### Faults -/

/-- A step that leaves a fault record raised it, on its own line, in the state before it (R250). -/
theorem exec_raises {r : FaultRecord} (h : exec i s = .next t) (hr : t.fault = some r) :
    t = s.raiseFault r.kind i.line r.info ∧ r.line = i.line := by
  have hs : s.fault = none := exec_next_fault h
  obtain rfl | ⟨k, n, rfl⟩ | ⟨_, _, _, -, -, -, rfl⟩ | ⟨_, _, _, _, -, -, -, rfl⟩ := exec_next h
  · rw [hs] at hr; cases hr
  · cases hr; exact ⟨rfl, rfl⟩
  · exact absurd (hs.symm.trans hr) nofun
  · exact absurd (hs.symm.trans hr) nofun

/-- A faulted block fetches nothing (R22). -/
theorem step_of_fault {r : FaultRecord} (h : s.fault = some r) : step s = .fault (.halted r) := by
  simp only [step, fetch, h]

/-- Settles O13: a fault record is raised in the state before the step, and `whenRunning` guards every instruction. -/
theorem faultDiscardsStepAndSticks : Obligations.FaultDiscardsStepAndSticks := by
  unfold Obligations.FaultDiscardsStepAndSticks
  refine ⟨fun i s t r h hr => ?_, fun s r hr => ⟨exec_of_fault hr, step_of_fault hr⟩⟩
  obtain ⟨ht, hline⟩ := exec_raises h hr
  refine ⟨ht.trans ?_, hline⟩
  rw [State.raiseFault, ← hline]

/-! ### What stays on every line -/

/-- A step other than CONFIGURE keeps a record's interrupt enable (R62). -/
theorem RecordStep.lineEn_eq {b : Config.Build} {c c' : Channel} (h : RecordStep b i c c') (hc : i.op ≠ .configure) :
    c'.lineEn = c.lineEn := by
  cases h with
  | body chan_eq _ ran next_eq => rw [next_eq, ← chan_eq]; exact (bodyOf_kept ran).lineEn
  | configure instr_eq => exact absurd (instr_eq ▸ rfl) hc

/-- A record that is configured stays so, with its receive interrupt as it was: CONFIGURE has no step on it (R31, R291). -/
theorem RecordStep.configured_kept {b : Config.Build} {c c' : Channel} (h : RecordStep b i c c')
    (hc : c.configured = true) : c'.configured = true ∧ c'.rxIe = c.rxIe := by
  cases h with
  | body chan_eq _ ran next_eq => rw [next_eq, ← chan_eq]; exact ⟨rfl, (bodyOf_kept ran).rxIe⟩
  | configure _ unconfigured => rw [hc] at unconfigured; cases unconfigured

/-- A handler entry with nothing requested changes nothing (R210). -/
theorem exec_evIrq_unrequested (hf : s.fault = none) (hreq : s.irqReq line = false) :
    exec (.evIrq line) s = .next s := by
  have hc : (Instr.evIrq line).op ≠ .configure := by simp
  cases hl : s.live line with
  | none => exact (exec_eq_onLine hc s).trans (onLine_absent hf hl _ _)
  | some l =>
    have hreq' : l.irqReq = false := by simpa [State.irqReq, hl] using hreq
    have hb : bodyOf s.build (.evIrq line) l = .done (l, none) := by simp [bodyOf, hreq']
    rw [exec_of_done hc hf hl hb, State.respond_none]
    exact congrArg _ (State.setChannel_live_self hl)

/-- Settles O42. -/
theorem unrequestedHandlerIsANoOp : Obligations.UnrequestedHandlerIsANoOp := by
  unfold Obligations.UnrequestedHandlerIsANoOp
  exact fun s line hf hreq => exec_evIrq_unrequested hf hreq

/-- Settles O41: the request of a configured line is the conjunction of R36, read flag by flag. -/
theorem interruptRequestRule : Obligations.InterruptRequestRule := by
  unfold Obligations.InterruptRequestRule
  intro s line
  simp only [State.irqReq, Option.any_eq_true]
  refine exists_congr fun l => and_congr_right fun _ => ?_
  simp [Live.irqReq, Live.rxCond, Live.txCond, Regs.dataReady]

/-- Settles O46: another line's record is unchanged, the own one's enable is restored; a disabled line has no request. -/
theorem lineEnablesAreRestored : Obligations.LineEnablesAreRestored := by
  unfold Obligations.LineEnablesAreRestored
  refine ⟨fun i s t k h hor => ?_, fun s line l hf hl hoff => ?_⟩
  · obtain hk | ⟨hk, c, c', hc, hc', hstep⟩ := exec_record h k
    · rw [hk]
    · rw [hc, hc', Option.map_some, Option.map_some, hstep.lineEn_eq (hor.resolve_right (absurd hk))]
  · exact exec_evIrq_unrequested hf (by simp [State.irqReq, hl, Live.irqReq, hoff])

/-- Settles O53: the record is unchanged, or its body ran, which leaves the receive enable. -/
theorem configuredForTheRestOfTheRun : Obligations.ConfiguredForTheRestOfTheRun := by
  unfold Obligations.ConfiguredForTheRestOfTheRun
  intro i s t k c h hc hconf
  obtain hk | ⟨-, d, c', hd, hc', hstep⟩ := exec_record h k
  · exact ⟨c, hk ▸ hc, hconf, rfl⟩
  · obtain rfl : c = d := by simpa [hc] using hd
    exact ⟨c', hc', hstep.configured_kept hconf⟩

/-! ### Isolation of lines -/

/-- No instruction reads or moves the trace. -/
theorem exec_pending (h : exec i s = .next t) : t.pending = s.pending := by
  obtain rfl | ⟨_, _, rfl⟩ | ⟨_, _, _, -, -, -, rfl⟩ | ⟨_, _, _, _, -, -, -, rfl⟩ := exec_next h <;> rfl

/-- Two blocks of one build that agree on a line, and on whether they run. -/
structure State.AgreesOn (line : Line) (s s' : State) : Prop where
  build : s'.build = s.build
  fault : s'.fault = s.fault
  own : s'.ch[line.toNat]? = s.ch[line.toNat]?

/-- What a step does to its own line, the same in every block that agrees with `s` there: it leaves a fault field, or it
writes a record and gives a response. -/
theorem exec_of_agrees (h : exec i s = .next t) :
    (∃ f, ∀ s', s.AgreesOn i.line s' → exec i s' = .next { s' with fault := f }) ∨
      ∃ c r, ∀ s', s.AgreesOn i.line s' → exec i s' = .next ((s'.setChannel i.line c).respond r) := by
  by_cases hc : i.op = .configure
  · obtain ⟨line, x, y, rfl, he⟩ := exec_of_configure hc
    rw [he] at h
    obtain ⟨hf, ⟨hnone, -⟩ | ⟨c, hch, ⟨hcc, -⟩ | ⟨hcc, -⟩⟩⟩ := execConfigure_next h
    · exact .inl ⟨_, fun s' hs' => execConfigure_out_of_range (hs'.fault.trans hf) (hs'.own.trans hnone) x y⟩
    · exact .inl ⟨_, fun s' hs' => execConfigure_again (hs'.fault.trans hf) (hs'.own.trans hch) hcc x y⟩
    · exact .inr ⟨_, _, fun s' hs' => execConfigure_sets_up (hs'.fault.trans hf) (hs'.own.trans hch) hcc x y⟩
  · rw [exec_eq_onLine hc] at h
    obtain ⟨hf, ⟨hl, -⟩ | ⟨l, hl, ⟨l', r, hb, -⟩ | ⟨k, n, hb, -⟩⟩⟩ := onLine_next h
    · obtain ⟨f, habsent⟩ := absentOf_eq_withFault i
      refine .inl ⟨f, fun s' hs' => ?_⟩
      have hf' : s'.fault = none := hs'.fault.trans hf
      rw [exec_eq_onLine hc, onLine_absent hf' ((State.live_congr hs'.own).trans hl), habsent s' hf']
    · exact .inr ⟨_, r, fun s' hs' => exec_of_done hc (hs'.fault.trans hf) ((State.live_congr hs'.own).trans hl)
        (hs'.build ▸ hb)⟩
    · exact .inl ⟨some ⟨k, i.line, n⟩, fun s' hs' => exec_of_raised hc (hs'.fault.trans hf)
        ((State.live_congr hs'.own).trans hl) (hs'.build ▸ hb)⟩

/-- Settles O47: a step's frame is its own record's; what it does there depends on what agrees. -/
theorem channelsAreIsolated : Obligations.ChannelsAreIsolated := by
  unfold Obligations.ChannelsAreIsolated
  refine ⟨fun i s t h => ⟨exec_numLines h, exec_pending h, fun k hk => ?_⟩, fun i s t s' hbuild hfault hown h => ?_⟩
  · exact (exec_record h k).resolve_right fun hrec => hk hrec.1
  · have hs' : s.AgreesOn i.line s' := ⟨hbuild, hfault, hown⟩
    obtain ⟨f, hexec⟩ | ⟨c, r, hexec⟩ := exec_of_agrees h
    · have ht := h.symm.trans (hexec s ⟨rfl, rfl, rfl⟩)
      cases ht
      exact ⟨_, [], hexec s' hs', hown, rfl, by simp, by simp⟩
    · have ht := h.symm.trans (hexec s ⟨rfl, rfl, rfl⟩)
      cases ht
      refine ⟨_, r.toList, hexec s' hs', ?_, hfault, rfl, rfl⟩
      simp [List.getElem?_set_self', hown]

end Sys2Proof.Machine
end

section
/-! PROOFS. The transmit state machine of R230: the transmit state after each body, and after each instruction. -/

namespace Sys2Proof.Machine

open Sys2Proof
open Sys2Proof.Config (Build)

/-! ### The table of R230, instruction by instruction -/

section Table

variable (auto : Bool) (line : Line) (queued accepted : Nat) (st : TxState)

@[simp] theorem txNext_drain : txNext auto line queued accepted st (.drain line) =
    if st = .idle ∧ 0 < queued then .armedBusy else st := by
  cases st <;> simp [txNext]

@[simp] theorem txNext_write (data : List Byte) : txNext auto line queued accepted st (.write line data) =
    if auto = true ∧ st = .idle ∧ 0 < queued + accepted then .armedBusy else st := by
  cases st <;> simp [txNext]

@[simp] theorem txNext_evTxDone : txNext auto line queued accepted st (.evTxDone line) =
    if st = .armedBusy then .armedReady else st := by
  cases st <;> simp [txNext]

@[simp] theorem txNext_evIrq : txNext auto line queued accepted st (.evIrq line) =
    if st = .armedReady then (if 0 < queued then .armedBusy else .idle) else st := by
  cases st <;> simp [txNext]

/-- The table has no row for the other instructions. -/
theorem txNext_of_op {i : Instr} (hd : i.op ≠ .drain) (hw : i.op ≠ .write) (ht : i.op ≠ .evTxDone)
    (hi : i.op ≠ .evIrq) : txNext auto line queued accepted st i = st := by
  cases i with
  | drain => exact absurd rfl hd
  | write => exact absurd rfl hw
  | evTxDone => exact absurd rfl ht
  | evIrq => exact absurd rfl hi
  | _ => cases st <;> rfl

/-- No step moves another line's transmit state. -/
theorem txNext_of_line_ne {i : Instr} (h : i.line ≠ line) : txNext auto line queued accepted st i = st := by
  cases i with
  | drain ln | write ln | evTxDone ln | evIrq ln =>
    have hne : ln ≠ line := h
    cases st <;> simp [txNext, hne]
  | _ => cases st <;> rfl

end Table

/-! ### The transmit state after a body -/

variable {b : Build} {i : Instr} {s t : State} {l l' : Live} {st : TxState} {r : Option Response}

/-- The transmit condition is that of ARMED-READY (R36, R38). -/
theorem Live.txCond_iff_ready (hst : l.txState = some st) : l.txCond = true ↔ st = .armedReady := by
  obtain ⟨harmed, -, hpend⟩ : l.chan.txArmed = st.flags.1 ∧ l.regs.txBusy = st.flags.2.1 ∧
      l.regs.txDonePend = st.flags.2.2 := by simpa [Prod.ext_iff] using Live.txState_eq_some.mp hst
  rw [Live.txCond, harmed, hpend]
  cases st <;> simp [TxState.flags]

theorem TxStep.txState_of_op (h : TxStep b i l l') (hd : i.op ≠ .drain) (hw : i.op ≠ .write) (ht : i.op ≠ .evTxDone)
    (hi : i.op ≠ .evIrq) : l'.txState = l.txState := by
  cases h with
  | kept armed busy pend => exact Live.txState_congr armed busy pend
  | started op => exact absurd op (by simp [hd, hw])
  | sent op => exact absurd op hi
  | disarmed op => exact absurd op hi
  | finished op => exact absurd op ht

/-- Replacing a ring buffer does not move the transmit state. -/
@[simp] theorem Live.txState_setRing (l : Live) (buf : Buf) (rb : RingBuffer) :
    (l.setRing buf rb).txState = l.txState := by
  cases buf <;> rfl

/-- Restoring the line enable does not move the transmit state. -/
@[simp] theorem Live.txState_restore (l : Live) (saved : Bool) : (restore saved l).txState = l.txState := rfl

/-- The drain body takes an IDLE line with bytes queued to ARMED-BUSY (R186). -/
theorem drainBody_txState (hst : l.txState = some st) (h : drainBody l = .done l') :
    l'.txState = some (if st = .idle ∧ 0 < l.regs.tx.count then .armedBusy else st) := by
  have hflags := Live.txState_eq_some.mp hst
  obtain ⟨rfl, hor⟩ | ⟨harmed, -, hpos, v, -, rfl⟩ := drainBody_inv h
  · have hno : ¬ (st = .idle ∧ 0 < l'.regs.tx.count) := by
      rintro ⟨rfl, hpos⟩
      simp [TxState.flags] at hflags
      simp [hflags] at hor
      omega
    rw [if_neg hno, hst]
  · cases st <;> simp [TxState.flags, harmed] at hflags
    simp [Live.txState_eq_some, TxState.flags, hflags, hpos]

/-- The transmit branch of an ARMED-READY line sends the next byte, or goes to IDLE (R214). -/
theorem txBranch_txState (hst : l.txState = some .armedReady) (h : txBranch l = .done l') :
    l'.txState = some (if 0 < l.regs.tx.count then .armedBusy else .idle) := by
  have hflags := Live.txState_eq_some.mp hst
  simp [TxState.flags] at hflags
  obtain ⟨h0, rfl⟩ | ⟨-, hpos, v, -, rfl⟩ := txBranch_inv h
  · simp [Live.txState_eq_some, TxState.flags, hflags, h0]
  · simp [Live.txState_eq_some, TxState.flags, hflags, hpos]

/-- The handler's receive branch, where it runs, leaves the transmit state and the bytes queued. -/
theorem rxPart_tx (l : Live) :
    (if l.rxCond then rxBranch l else l).txState = l.txState ∧
      (if l.rxCond then rxBranch l else l).regs.tx = l.regs.tx := by
  obtain ⟨-, htx, hbusy, hpend, harmed, -⟩ := rxBranch_kept l
  split
  · exact ⟨Live.txState_congr harmed hbusy hpend, htx⟩
  · exact ⟨rfl, rfl⟩

/-- The handler moves an ARMED-READY line alone (R210, R214). -/
theorem handler_txState (hst : l.txState = some st) (h : handler l = .done l') :
    l'.txState = some (if st = .armedReady then (if 0 < l.regs.tx.count then .armedBusy else .idle) else st) := by
  obtain ⟨hkeep, htx⟩ := rxPart_tx l
  obtain ⟨hcond, rfl⟩ | ⟨hcond, hbranch⟩ := handler_inv h
  · have hno : ¬ st = .armedReady := by simp [← Live.txCond_iff_ready hst, hcond]
    rw [if_neg hno, hkeep, hst]
  · obtain rfl := (Live.txCond_iff_ready hst).mp hcond
    rw [if_pos rfl, ← htx]
    exact txBranch_txState (hkeep.trans hst) hbranch

/-- EV_TX_DONE takes an ARMED-BUSY line to ARMED-READY (R222). -/
theorem evTxDone_txState {line : Line} (hst : l.txState = some st) (h : bodyOf b (.evTxDone line) l = .done (l', r)) :
    l'.txState = some (if st = .armedBusy then .armedReady else st) := by
  have hflags := Live.txState_eq_some.mp hst
  obtain ⟨-, ⟨hbusy, rfl⟩ | ⟨hbusy, rfl⟩⟩ := evTxDone_inv h
  · have hno : ¬ st = .armedBusy := by rintro rfl; simp [TxState.flags, hbusy] at hflags
    rw [if_neg hno, hst]
  · cases st <;> simp [TxState.flags, hbusy] at hflags
    simp [Live.txState_eq_some, TxState.flags, hflags]

/-- WRITE moves the transmit state with AUTO_DRAIN alone, as the drain body does after the push (R183). -/
theorem writeBody_txState {auto : Bool} {line : Line} {data : List Byte} (hst : l.txState = some st)
    (h : writeBody auto line data l = .done (l', r)) :
    l'.txState = some (if auto = true ∧ st = .idle ∧
      0 < l.regs.tx.count + min data.length (l.chan.caps.tx - l.regs.tx.count) then .armedBusy else st) := by
  obtain ⟨l1, hpush, hrest⟩ := writeBody_inv h
  obtain ⟨rfl, -⟩ := pushBody_inv hpush
  obtain ⟨rfl, rfl⟩ | ⟨rfl, hdrain⟩ := hrest
  · simpa using hst
  · simpa using drainBody_txState ((Live.txState_setRing _ _ _).trans hst) hdrain

/-- Every body moves its line's transmit state as the table of R230 says. -/
theorem bodyOf_txState (hl : s.live i.line = some l) (hok : l.Ok s.build) (hst : l.txState = some st)
    (hb : bodyOf s.build i l = .done (l', r)) :
    l'.txState =
      some (txNext s.build.autoDrain i.line l.regs.tx.count (txAccepted i.line i s).length st i) := by
  cases i with
  | drain line =>
    obtain ⟨l1, h1, rfl⟩ := suspended_eq_done.mp hb
    rw [Instr.line, txNext_drain, Live.txState_restore]
    exact drainBody_txState (l := (suspend l).2) hst (drainStep_inv h1).1
  | write line data =>
    obtain ⟨l1, h1, rfl⟩ := suspended_eq_done.mp hb
    have hacc : (txAccepted line (.write line data) s).length =
        min data.length (l.chan.caps.tx - l.regs.tx.count) := by
      have hl : s.live line = some l := hl
      simp [txAccepted, hl, RingBuffer.free, Nat.min_comm]
    rw [Instr.line, txNext_write, hacc, Live.txState_restore]
    exact writeBody_txState (l := (suspend l).2) hst h1
  | evIrq line =>
    rw [Instr.line, txNext_evIrq]
    obtain ⟨-, ⟨hreq, rfl⟩ | ⟨-, hh⟩⟩ := evIrq_inv hb
    · have hcond : l'.txCond = false := by simp [Live.irqReq, hok.lineEn] at hreq; exact hreq.2
      have hno : ¬ st = .armedReady := by simp [← Live.txCond_iff_ready hst, hcond]
      rw [if_neg hno, hst]
    · exact handler_txState hst hh
  | evTxDone line =>
    rw [Instr.line, txNext_evTxDone]
    exact evTxDone_txState hst hb
  | _ =>
    rw [txNext_of_op _ _ _ _ _ (by simp) (by simp) (by simp) (by simp), ← hst]
    exact (bodyOf_tx hb).txState_of_op (by simp) (by simp) (by simp) (by simp)

/-! ### The transmit state after an instruction -/

/-- A step on a configured line that leaves no fault record ran its body to completion. -/
theorem exec_ran (h : exec i s = .next t) (hf : t.fault = none) (hl : s.live i.line = some l) :
    ∃ l' r, bodyOf s.build i l = .done (l', r) ∧ t = (s.setChannel i.line l'.toChannel).respond r := by
  have hs : s.fault = none := exec_next_fault h
  by_cases hc : i.op = .configure
  · obtain ⟨line, x, y, rfl, he⟩ := exec_of_configure hc
    obtain ⟨hch, hregs⟩ := State.live_eq_some.mp hl
    have hconf : l.chan.configured = true := by simp [Channel.configured, hregs]
    cases ((he s).trans (execConfigure_again hs hch hconf x y)).symm.trans h
    cases hf
  · rw [exec_of_live hc hs hl] at h
    unfold commit at h
    split at h <;> cases h
    · next l' r hb => exact ⟨l', r, hb, rfl⟩
    · cases hf

/-- Settles O45: another line's record is unchanged and the table has no row for it; on the own line the body moves the
state. -/
theorem transmitStateMachine : Obligations.TransmitStateMachine := by
  unfold Obligations.TransmitStateMachine
  refine ⟨fun i s t line l st hs h hf hl hst => ?_, fun s t line x y h hf => ?_⟩
  · by_cases hline : i.line = line
    · subst hline
      obtain ⟨l', r, hb, rfl⟩ := exec_ran h hf hl
      rw [State.txState, State.live_after hl, if_pos rfl]
      have hmoved := bodyOf_txState hl (hs.live_ok hl) hst hb
      exact hmoved
    · have hk : t.ch[line.toNat]? = s.ch[line.toNat]? :=
        (exec_record h line.toNat).resolve_right fun hrec => hline (BitVec.eq_of_toNat_eq hrec.1).symm
      rw [txNext_of_line_ne _ _ _ _ _ hline, State.txState, State.live_congr hk, hl]
      exact hst
  · obtain ⟨-, ⟨-, rfl⟩ | ⟨c, hch, ⟨-, rfl⟩ | ⟨-, rfl⟩⟩⟩ := execConfigure_next h
    · cases hf
    · cases hf
    · have hlt : line.toNat < s.ch.length := (List.getElem?_eq_some_iff.mp hch).1
      rw [State.txState, State.txContents, State.respond_live, State.live_setChannel_self _ hlt]
      exact ⟨rfl, rfl⟩

end Sys2Proof.Machine
end

section
/-! PROOFS. The bytes a step moves between a line's buffers and its UART: DRAIN's kick, the overrun of a busy transmitter,
the handler's receive (R43, R186, R212). -/

namespace Sys2Proof.Machine

open Sys2Proof

variable {N : Nat} {rb : RingBuffer} {l l' : Live}

/-! ### Transmit -/

/-- Settles O32: the drain body sends the oldest byte, inside a suspension that restores the line enable. -/
theorem drainKicksOneByte : Obligations.DrainKicksOneByte := by
  unfold Obligations.DrainKicksOneByte
  intro s line l v vs hf hl harmed hbusy hc
  obtain ⟨hcount, -⟩ := RingBuffer.contents_cons hc
  have hone : 1 ≤ l.regs.tx.count := by omega
  have hvs : l.regs.tx.count - 1 = vs.length := by omega
  have hdrain := drainBody_sends (l := (suspend l).2) harmed hbusy hc
  have hb : bodyOf s.build (.drain line) l = .done (_, some (mkResponse .drain line 0 [])) :=
    suspended_eq_done.mpr ⟨_, by rw [drainStep, hdrain, Res.bind_done], rfl⟩
  refine ⟨_, exec_of_done (i := .drain line) (by simp) hf hl hb, ?_, RingBuffer.contents_pop hc hone⟩
  rw [← hvs]
  rfl

/-- Settles O18: the byte at the tail of the buffer meets a busy transmitter, which raises it. -/
theorem busyTransmitterOverruns : Obligations.BusyTransmitterOverruns := by
  unfold Obligations.BusyTransmitterOverruns
  intro s line l cs vs v hf hl hbusy hc
  refine ⟨fun harmed hcs => ?_, fun harmed hauto hok data hcs => ?_, fun hreq hcond hcs => ?_⟩
  · obtain ⟨hcount, hread⟩ := RingBuffer.contents_cons (hcs ▸ hc)
    have hb : bodyOf s.build (.drain line) l = .raised .txOverrun (v.setWidth 16) :=
      suspended_eq_raised.mpr <| Res.bind_eq_raised.mpr <| .inl <| drainBody_eq_raised.mpr
        ⟨harmed, hbusy, by simp [hcount], v, hread, rfl, rfl⟩
    exact exec_of_raised (i := .drain line) (by simp) hf hl hb
  · obtain ⟨hcount, hread⟩ := RingBuffer.contents_cons (hcs ▸ rbPush_contents hok hc data)
    have hb : bodyOf s.build (.write line data) l = .raised .txOverrun (v.setWidth 16) :=
      suspended_eq_raised.mpr <| writeBody_eq_raised.mpr ⟨hauto, drainBody_eq_raised.mpr
        ⟨harmed, hbusy, Nat.lt_of_lt_of_eq (Nat.succ_pos _) hcount.symm, v, hread, rfl, rfl⟩⟩
    exact exec_of_raised (i := .write line data) (by simp) hf hl hb
  · obtain ⟨hcount, hread⟩ := RingBuffer.contents_cons (hcs ▸ hc)
    have hh : handler l = .raised .txOverrun (v.setWidth 16) :=
      handler_eq_raised.mpr ⟨hcond, hbusy, by omega, v, hread, rfl, rfl⟩
    have hb : bodyOf s.build (.evIrq line) l = .raised .txOverrun (v.setWidth 16) := by simp [bodyOf, hreq, hh]
    exact exec_of_raised (i := .evIrq line) (by simp) hf hl hb

/-! ### Receive -/

/-- A push of one byte to a buffer with room writes the slot at head and moves head and count (R134). -/
theorem rbPush_one (h : rb.Ok N) (hroom : rb.count < N) (d : Byte) :
    (rbPush N rb [d]).2 = { rb with
      store := rb.store.write rb.head d, head := (rb.head + 1) % N, count := rb.count + 1 } := by
  have hmin : min 1 (N - rb.count) = 1 := by omega
  simp [rbPush, hmin, writeSlots, Nat.mod_eq_of_lt h.head_lt]

/-- A push to a full buffer leaves it as it is (R134, R212). -/
theorem rbPush_full (h : rb.Ok N) (hfull : rb.count = N) (data : List Byte) : (rbPush N rb data).2 = rb := by
  have hno : min data.length (N - rb.count) = 0 := by omega
  simp [rbPush, hno, Nat.mod_eq_of_lt h.head_lt]

/-- The transmit branch leaves the receive side. -/
theorem txBranch_rx (h : txBranch l = .done l') : l'.regs.rx = l.regs.rx ∧ l'.regs.rxHw = l.regs.rxHw := by
  obtain ⟨-, rfl⟩ | ⟨-, -, v, -, rfl⟩ := txBranch_inv h <;> exact ⟨rfl, rfl⟩

/-- A handler that completes at its receive condition took the oldest received byte, and stored or discarded it as the
receive branch does; without a transmit condition it did nothing else (R210, R212, R213). -/
theorem handler_receives {e : RxEntry} {es : List RxEntry} (h : handler l = .done l') (hcond : l.rxCond = true)
    (hhw : l.regs.rxHw = e :: es) :
    l'.regs.rxHw = es ∧
      l'.regs.rx = (if e.err then l.regs.rx else (rbPush l.chan.caps.rx l.regs.rx [e.data]).2) ∧
      (l.txCond = false → l' = rxBranch l) := by
  obtain ⟨hnil, -⟩ | ⟨e', es', hhw', hbranch⟩ := rxBranch_cases l
  · rw [hhw] at hnil; cases hnil
  · obtain ⟨rfl, rfl⟩ : e = e' ∧ es = es' := by simpa [hhw] using hhw'
    have hrun := handler_inv h
    simp only [hcond, if_true] at hrun
    obtain ⟨-, rfl⟩ | ⟨htx, hbranch'⟩ := hrun
    · exact ⟨by rw [hbranch], by rw [hbranch], fun _ => rfl⟩
    · obtain ⟨hrx, hrxHw⟩ := txBranch_rx hbranch'
      exact ⟨by rw [hrxHw, hbranch], by rw [hrx, hbranch], fun hno => by simp [hno] at htx⟩

/-- Settles O38: the receive branch takes the byte; it is malformed, or the buffer is full, or its slot is the one at
head. -/
theorem handlerReceivesOneByte : Obligations.HandlerReceivesOneByte := by
  unfold Obligations.HandlerReceivesOneByte
  intro s line l e es cs hf hl hok hreq hhw hcs
  obtain ⟨l', hh, -⟩ := handler_completes hok.sound
  have hb : bodyOf s.build (.evIrq line) l = .done (l', none) := by simp [bodyOf, hreq, hh]
  have hcond : l.rxCond = true := by simp [Live.rxCond, hok.rxIe, Regs.dataReady, hhw]
  obtain ⟨hhw', hrx, hrest⟩ := handler_receives hh hcond hhw
  have hlen := RingBuffer.contents_length hcs
  have hk := handler_kept hh
  have hexec : exec (.evIrq line) s = .next (s.setChannel line l'.toChannel) := by
    rw [exec_of_done (i := .evIrq line) (by simp) hf hl hb, State.respond_none]; rfl
  have htx : l.txCond = false → l'.regs.tx = l.regs.tx ∧ l'.regs.txBusy = l.regs.txBusy ∧
      l'.regs.txDonePend = l.regs.txDonePend ∧ l'.chan.txArmed = l.chan.txArmed ∧
      l'.chan.lineOut = l.chan.lineOut := fun hno => hrest hno ▸ (rxBranch_kept l).2
  by_cases hstore : e.err = false ∧ cs.length < l.chan.caps.rx
  · obtain ⟨hgood, hroom⟩ := hstore
    have hpush := rbPush_contents hok.rx hcs [e.data]
    rw [List.take_of_length_le (by simp; omega)] at hpush
    have hone := rbPush_one hok.rx (hlen ▸ hroom) e.data
    rw [hgood, if_neg Bool.false_ne_true] at hrx
    refine ⟨l', hexec, hhw', ?_, ?_, ?_, ?_, ?_, hk.txPin, hk.rxPin, hk.caps, hk.rxIe, hk.lineEn, htx⟩
    · simp [hrx, hpush, hgood, hroom]
    · rw [hrx, rbPush_tail]
    · rintro (hbad | hfull)
      · simp [hgood] at hbad
      · omega
    · rw [hrx, hone]
      exact fun _ _ => ⟨rfl, rfl, Memory.read_write_self _ _ _⟩
    · rw [hrx, hone]
      exact fun a ha => Memory.read_write_of_ne _ _ ha
  · have hlost : e.err = true ∨ cs.length = l.chan.caps.rx := by
      have hle := hok.rx.count_le
      cases he : e.err with
      | true => exact .inl rfl
      | false => simp [he] at hstore; omega
    have hsame : l'.regs.rx = l.regs.rx := by
      rw [hrx]
      obtain hbad | hfull := hlost
      · rw [if_pos hbad]
      · rw [rbPush_full hok.rx (hlen ▸ hfull), ite_self]
    refine ⟨l', hexec, hhw', ?_, ?_, fun _ => hsame, ?_, ?_, hk.txPin, hk.rxPin, hk.caps, hk.rxIe, hk.lineEn, htx⟩
    · obtain hbad | hfull := hlost
      · simp [hsame, hbad, hcs]
      · simp [hsame, hfull, hcs]
    · rw [hsame]
    · exact fun hgood hroom => absurd ⟨hgood, hroom⟩ hstore
    · exact fun a _ => by rw [hsame]

end Sys2Proof.Machine
end

section
/-! PROOFS. What a trace entry that is no whole step answers, and that a table word's entry is one whole step (log 6, 7, 13). -/

namespace Sys2Proof.Machine

open Sys2Proof

/-! ### Entries that are no whole step -/

/-- Fewer than four bytes are no word (R90). -/
theorem decode_of_short {port : Port} {bytes : List Byte} (h : bytes.length < 4) :
    decode port bytes = .truncatedWord := by
  match bytes, h with
  | [], _ => rfl
  | [_], _ => rfl
  | [_, _], _ => rfl
  | [_, _, _], _ => rfl
  | _ :: _ :: _ :: _ :: _, h => simp only [List.length_cons] at h; omega

/-- A running block with an arrival steps as the arrival's bytes say, where they are no instruction to run. -/
theorem step_of_known {s : State} {a : Arrival} {rest : List Arrival} {o : Outcome} (hf : s.fault = none)
    (hp : s.pending = a :: rest) (h : fetchArrival a { s with pending := rest } = .known o) : step s = o := by
  rw [step, fetch_cons hf hp, h]

/-- Settles O9: the fetch refuses each of these by name. -/
theorem stepWithoutAWholeWordIsRefused : Obligations.StepWithoutAWholeWordIsRefused := by
  unfold Obligations.StepWithoutAWholeWordIsRefused
  intro s hf
  refine ⟨fun hp => by simp [step, fetch, hf, hp], fun a rest hp => ⟨fun hshort => ?_, fun hmissing => ?_, ?_⟩⟩
  · exact step_of_known hf hp (by simp [fetchArrival, decode_of_short hshort])
  · exact step_of_known hf hp (by simp [fetchArrival, hmissing])
  · intro i b bs htrailing
    exact step_of_known hf hp (by simp [fetchArrival, htrailing])

/-! ### A table word's entry -/

/-- The "requires" lines leave what follows the step. -/
theorem requiring_eq_ok {zero : Bool} {w : Word} {d : Decoded} {i : Instr} {rest : List Byte}
    (h : requiring zero w d = .ok i rest) : d = .ok i rest := by
  cases zero with
  | true => exact h
  | false => cases h

/-- A step with LEN data bytes leaves the bytes after them. -/
theorem withData_eq_ok {w : Word} {data rest : List Byte} {mk : List Byte → Instr} {i : Instr}
    (h : withData w data mk = .ok i rest) : rest = data.drop (lenField w).toNat := by
  unfold withData at h
  split at h
  · cases h
  · cases h; rfl

/-- A decoded word leaves the bytes after the data that belong to it (R98). -/
theorem decodeWord_rest {port : Port} {w : Word} {data rest : List Byte} {i : Instr}
    (h : decodeWord port w data = .ok i rest) : rest = data.drop (dataCount w) := by
  unfold decodeWord at h
  split at h
  · cases h
  · next o ho =>
    split at h
    · split at h
      · unfold decodeOperands at h
        cases o with
        | rbPushP | rbPushU => simpa only [dataCount, ho] using withData_eq_ok h
        | write => simpa only [dataCount, ho] using withData_eq_ok (requiring_eq_ok h)
        | rbPopP | rbPopU => cases h; simp [dataCount, ho]
        | _ => cases requiring_eq_ok h; simp [dataCount, ho]
      · cases h
    · cases h

/-- The entry of a table word that decodes is one whole step: it carries just the data bytes of its LEN (log 13). -/
theorem decode_tableArrival {nbits w : Nat} {i : Instr} (h : decodeTableWord nbits w = some i) :
    decode (tableArrival nbits w).port (tableArrival nbits w).bytes = .ok i [] := by
  unfold decodeTableWord at h
  split at h <;> cases h
  next i rest hd =>
    have hrest : rest = [] := by
      rw [tableBytes, decode_bytesOfWord] at hd
      simpa using decodeWord_rest hd
    exact hrest ▸ hd

/-- Settles O8: the placed entry is one whole step, which the next step runs. -/
theorem placedTableWordRunsNext : Obligations.PlacedTableWordRunsNext := by
  unfold Obligations.PlacedTableWordRunsNext
  intro s nbits w i hf h
  exact stepRunsTheDecodedInstruction (s.withFetchWord nbits w) _ s.pending.tail i hf rfl (decode_tableArrival h)

end Sys2Proof.Machine
end

section
/-! PROOFS. Ordering (20_memory): steps of different lines commute (R64), and over a run a line sends its bytes in the
order it accepted them (R66, R67). -/

namespace Sys2Proof.Machine

open Sys2Proof
open Sys2Proof.Config (Build)

variable {b : Build} {i : Instr} {s t : State} {line : Line} {l l' : Live} {r : Option Response} {xs : List Byte}

/-! ### Different lines -/

/-- Settles O48: each step does in the other order what it did in this one, for a step reads and writes its own line alone;
a line's record is then that of its own step, and the responses are the same two in the other order. -/
theorem stepsOfDifferentLinesCommute : Obligations.StepsOfDifferentLinesCommute := by
  unfold Obligations.StepsOfDifferentLinesCommute
  intro i j s t u hne hi hft hj hfu
  obtain ⟨hframe, hlocal⟩ := channelsAreIsolated
  have hlines : i.line.toNat ≠ j.line.toNat := fun e => hne (BitVec.eq_of_toNat_eq e)
  obtain ⟨-, -, hit⟩ := hframe i s t hi
  obtain ⟨-, -, hju⟩ := hframe j t u hj
  have hfs : s.fault = none := exec_next_fault hi
  obtain ⟨t', rj, hj', hown, hft', hru, hrt'⟩ :=
    hlocal j t u s (exec_build hi).symm (hfs.trans hft.symm) (hit _ hlines.symm).symm hj
  obtain ⟨-, -, hjt'⟩ := hframe j s t' hj'
  obtain ⟨u', ri, hi', hown', hfu', hrt, hru'⟩ :=
    hlocal i s t t' (exec_build hj') (hft'.trans (hfu.trans hfs.symm)) (hjt' _ hlines) hi
  obtain ⟨-, -, hiu'⟩ := hframe i t' u' hi'
  refine ⟨t', u', hj', hft'.trans hfu, hi', hfu'.trans hft, List.ext_getElem? fun k => ?_, ?_, ?_⟩
  · by_cases hki : k = i.line.toNat
    · rw [hki, hown', hju _ hlines]
    · rw [hiu' k hki]
      by_cases hkj : k = j.line.toNat
      · rw [hkj, hown]
      · rw [hjt' k hkj, hju k hkj, hit k hki]
  · rw [exec_build hi', exec_build hj', exec_build hj, exec_build hi]
  · rw [hru', hrt', hru, hrt, List.append_assoc, List.append_assoc]
    exact List.perm_append_comm.append_left _

/-! ### A configured line across a step -/

/-- A step that leaves no fault record leaves a configured line as it was, or ran its body on it. -/
theorem exec_live (h : exec i s = .next t) (hf : t.fault = none) (hl : s.live line = some l) :
    (i.line ≠ line ∧ t.live line = some l) ∨
      (i.line = line ∧ ∃ l' r, bodyOf s.build i l = .done (l', r) ∧ t.live line = some ⟨l'.toChannel, l'.regs⟩) := by
  by_cases hline : i.line = line
  · subst hline
    obtain ⟨l', r, hb, rfl⟩ := exec_ran h hf hl
    exact .inr ⟨rfl, l', r, hb, by rw [State.live_after hl, if_pos rfl]⟩
  · obtain hk := (exec_record h line.toNat).resolve_right fun hrec => hline (BitVec.eq_of_toNat_eq hrec.1).symm
    exact .inl ⟨hline, (State.live_congr hk).trans hl⟩

/-! ### Leaf micro-operations that complete -/

/-- A protected pop that completes puts the popped buffer back (R142, R176). -/
theorem suspended_popBody_inv {o : Op} {buf : Buf} {max : Nat}
    (h : suspended l (popBody o line buf max) = .done (l', r)) :
    ∃ p, rbPop (l.chan.capacity buf) (l.regs.ring buf) max = .done p ∧ l' = l.setRing buf p.rb := by
  obtain ⟨l1, h1, rfl⟩ := suspended_eq_done.mp h
  obtain ⟨p, hp, hdone⟩ := Res.bind_eq_done.mp h1
  cases hdone
  exact ⟨p, hp, rfl⟩

/-- An RB_POP_P that completes popped the receive buffer (R131, R142). -/
theorem rbPopP_inv {buf : Buf} {max : BitVec 16} (h : bodyOf b (.rbPopP line buf max) l = .done (l', r)) :
    buf = .rx ∧ ∃ p, rbPop l.chan.caps.rx l.regs.rx max.toNat = .done p ∧ l' = l.setRing .rx p.rb := by
  cases buf with
  | tx => cases h
  | rx => exact ⟨rfl, suspended_popBody_inv h⟩

/-- An RB_POP_U that completes changed the transmit buffer alone (R131, R143). -/
theorem rbPopU_inv {buf : Buf} {max : BitVec 16} (h : bodyOf b (.rbPopU line buf max) l = .done (l', r)) :
    buf = .tx ∧ ∃ rb, l' = l.setRing .tx rb := by
  cases buf with
  | rx => cases h
  | tx => obtain ⟨_, -, rfl, -⟩ := popBody_inv h; exact ⟨rfl, _, rfl⟩

/-- An RB_PUSH_P that completes pushed to the transmit buffer (R131, R136). -/
theorem rbPushP_inv {buf : Buf} {data : List Byte} (h : bodyOf b (.rbPushP line buf data) l = .done (l', r)) :
    buf = .tx ∧ l' = l.setRing .tx (rbPush l.chan.caps.tx l.regs.tx data).2 := by
  cases buf with
  | rx => cases h
  | tx =>
    have hran : suspended l (pushBody .rbPushP line .tx data) = .done (l', r) := h
    obtain ⟨l1, h1, rfl⟩ := suspended_eq_done.mp hran
    obtain ⟨rfl, -⟩ := pushBody_inv h1
    exact ⟨rfl, rfl⟩

/-- An RB_PUSH_U that completes pushed to the receive buffer (R131, R137). -/
theorem rbPushU_inv {buf : Buf} {data : List Byte} (h : bodyOf b (.rbPushU line buf data) l = .done (l', r)) :
    buf = .rx ∧ l' = l.setRing .rx (rbPush l.chan.caps.rx l.regs.rx data).2 := by
  cases buf with
  | tx => cases h
  | rx => exact ⟨rfl, (pushBody_inv h).1⟩

/-! ### The transmit stream of a line -/

/-- The transmit stream of a channel: the bytes it has sent and then those it has queued. -/
def Live.txStream (l : Live) : Option (List Byte) :=
  (l.regs.tx.contents l.chan.caps.tx).map (l.chan.lineOut ++ ·)

/-- The transmit stream of a line, where the line is configured. -/
def State.txStream (s : State) (line : Line) : Option (List Byte) :=
  (s.txContents line).map (s.lineOut line ++ ·)

theorem State.txStream_of_live (hl : s.live line = some l) : s.txStream line = l.txStream := by
  simp [State.txStream, State.txContents, Live.txStream, hl, State.lineOut_of_live hl]

@[simp] theorem Live.txStream_toChannel (l : Live) : Live.txStream ⟨l.toChannel, l.regs⟩ = l.txStream := rfl
@[simp] theorem Live.txStream_restore (l : Live) (saved : Bool) : (restore saved l).txStream = l.txStream := rfl

/-- The oldest queued byte going out leaves the stream as it is (R186, R214). -/
theorem Live.txStream_send {v : Byte} (hx : l.txStream = some xs) (hpos : 0 < l.regs.tx.count)
    (hv : l.regs.tx.store.read (l.regs.tx.tail % l.chan.caps.tx) = some v) (hcaps : l'.chan.caps = l.chan.caps)
    (hout : l'.chan.lineOut = l.chan.lineOut ++ [v])
    (htx : l'.regs.tx = { l.regs.tx with
      tail := (l.regs.tx.tail + 1) % l.chan.caps.tx, count := l.regs.tx.count - 1 }) :
    l'.txStream = some xs := by
  obtain ⟨cs, hc, rfl⟩ := Option.map_eq_some_iff.mp hx
  cases cs with
  | nil => have := RingBuffer.contents_length hc; simp at this; omega
  | cons w vs =>
    obtain ⟨-, hw⟩ := RingBuffer.contents_cons hc
    obtain rfl : w = v := Option.some.inj (hw.symm.trans hv)
    rw [Live.txStream, htx, hcaps, hout, RingBuffer.contents_pop hc hpos]
    simp

/-- A push appends the bytes it accepts to the stream (R134). -/
theorem Live.txStream_push (hok : l.regs.tx.Ok l.chan.caps.tx) (hx : l.txStream = some xs) (data : List Byte) :
    (l.setRing .tx (rbPush l.chan.caps.tx l.regs.tx data).2).txStream =
      some (xs ++ data.take (l.regs.tx.free l.chan.caps.tx)) := by
  obtain ⟨cs, hc, rfl⟩ := Option.map_eq_some_iff.mp hx
  have hpush := rbPush_contents hok hc data
  simp [Live.txStream, hpush, RingBuffer.contents_length hc, RingBuffer.free]

theorem drainBody_txStream (h : drainBody l = .done l') (hx : l.txStream = some xs) : l'.txStream = some xs := by
  obtain ⟨rfl, -⟩ | ⟨-, -, hpos, v, hv, rfl⟩ := drainBody_inv h
  · exact hx
  · exact Live.txStream_send hx hpos hv rfl rfl rfl

theorem writeBody_txStream {auto : Bool} {data : List Byte} (h : writeBody auto line data l = .done (l', r))
    (hok : l.regs.tx.Ok l.chan.caps.tx) (hx : l.txStream = some xs) :
    l'.txStream = some (xs ++ data.take (l.regs.tx.free l.chan.caps.tx)) := by
  obtain ⟨l1, hpush, hrest⟩ := writeBody_inv h
  obtain ⟨rfl, -⟩ := pushBody_inv hpush
  have hpushed := Live.txStream_push hok hx data
  obtain ⟨-, rfl⟩ | ⟨-, hdrain⟩ := hrest
  · exact hpushed
  · exact drainBody_txStream hdrain hpushed

theorem txBranch_txStream (h : txBranch l = .done l') (hx : l.txStream = some xs) : l'.txStream = some xs := by
  obtain ⟨h0, rfl⟩ | ⟨-, hpos, v, hv, rfl⟩ := txBranch_inv h
  · obtain ⟨cs, hc, rfl⟩ := Option.map_eq_some_iff.mp hx
    have hpop := RingBuffer.contents_pop hc (Nat.zero_le _)
    simp [h0] at hpop
    simp [Live.txStream, hpop]
  · exact Live.txStream_send hx hpos hv rfl rfl rfl

theorem handler_txStream (h : handler l = .done l') (hx : l.txStream = some xs) : l'.txStream = some xs := by
  have hrx : (if l.rxCond then rxBranch l else l).txStream = some xs := by
    obtain ⟨hk, htx, -, -, -, hout⟩ := rxBranch_kept l
    rw [← hx]
    split
    · simp only [Live.txStream, htx, hk.caps, hout]
    · rfl
  obtain ⟨-, rfl⟩ | ⟨-, hbranch⟩ := handler_inv h
  · exact hrx
  · exact txBranch_txStream hbranch hrx

/-- Every body but a leaf pop, a WRITE and a leaf push to it leaves the transmit stream as it is. -/
theorem bodyOf_txStream_of_op (hw : i.op ≠ .write) (hp : i.op ≠ .rbPushP) (hpop : isTxLeafPop i.line i = false)
    (hb : bodyOf b i l = .done (l', r)) (hx : l.txStream = some xs) : l'.txStream = some xs := by
  cases i with
  | write => exact absurd rfl hw
  | rbPushP => exact absurd rfl hp
  | rbPopU => simp [isTxLeafPop] at hpop
  | drain =>
    obtain ⟨l1, h1, rfl⟩ := suspended_eq_done.mp hb
    rw [Live.txStream_restore]
    exact drainBody_txStream (drainStep_inv h1).1 hx
  | evIrq =>
    obtain ⟨-, ⟨-, rfl⟩ | ⟨-, hh⟩⟩ := evIrq_inv hb
    · exact hx
    · exact handler_txStream hh hx
  | configure | rbIsEmpty | rbIsFull => cases hb; exact hx
  | readAvailable => obtain ⟨_, -, rfl⟩ := suspended_popBody_inv hb; exact hx
  | rbPopP => obtain ⟨rfl, _, -, rfl⟩ := rbPopP_inv hb; exact hx
  | rbPushU => obtain ⟨rfl, rfl⟩ := rbPushU_inv hb; exact hx
  | evRx => obtain ⟨-, ⟨-, rfl⟩ | ⟨-, rfl⟩⟩ := evRx_inv hb <;> exact hx
  | evTxDone => obtain ⟨-, ⟨-, rfl⟩ | ⟨-, rfl⟩⟩ := evTxDone_inv hb <;> exact hx

/-- A WRITE adds the first bytes that fit (R180). -/
theorem txAccepted_write (hl : s.live line = some l) (data : List Byte) :
    txAccepted line (.write line data) s = data.take (l.regs.tx.free l.chan.caps.tx) := by
  simp [txAccepted, hl]

/-- A leaf push adds the first bytes that fit (R136). -/
theorem txAccepted_rbPushP (hl : s.live line = some l) (data : List Byte) :
    txAccepted line (.rbPushP line .tx data) s = data.take (l.regs.tx.free l.chan.caps.tx) := by
  simp [txAccepted, hl]

/-- A step that pushes nothing to a transmit buffer adds nothing to one. -/
theorem txAccepted_of_op (hw : i.op ≠ .write) (hp : i.op ≠ .rbPushP) : txAccepted line i s = [] := by
  cases hl : s.live line with
  | none => simp only [txAccepted, hl]
  | some l =>
    simp only [txAccepted, hl]
    cases i with
    | write => exact absurd rfl hw
    | rbPushP => exact absurd rfl hp
    | _ => rfl

/-- A step of another line adds nothing to this line's transmit buffer. -/
theorem txAccepted_of_line_ne (h : i.line ≠ line) : txAccepted line i s = [] := by
  cases hl : s.live line with
  | none => simp only [txAccepted, hl]
  | some l =>
    simp only [txAccepted, hl]
    cases i with
    | write => exact if_neg h
    | rbPushP ln buf =>
      cases buf with
      | rx => rfl
      | tx => exact if_neg h
    | _ => rfl

/-- Every body but a leaf pop appends what the step accepts to the transmit stream. -/
theorem bodyOf_txStream (hl : s.live i.line = some l) (hok : l.regs.tx.Ok l.chan.caps.tx)
    (hb : bodyOf s.build i l = .done (l', r)) (hpop : isTxLeafPop i.line i = false) (hx : l.txStream = some xs) :
    l'.txStream = some (xs ++ txAccepted i.line i s) := by
  cases i with
  | write line data =>
    obtain ⟨l1, h1, rfl⟩ := suspended_eq_done.mp hb
    rw [Instr.line] at hl ⊢
    rw [txAccepted_write hl, Live.txStream_restore]
    exact writeBody_txStream (l := (suspend l).2) h1 hok hx
  | rbPushP line buf data =>
    obtain ⟨rfl, rfl⟩ := rbPushP_inv hb
    rw [Instr.line] at hl ⊢
    rw [txAccepted_rbPushP hl]
    exact Live.txStream_push hok hx data
  | _ =>
    rw [txAccepted_of_op (by simp) (by simp), List.append_nil]
    exact bodyOf_txStream_of_op (by simp) (by simp) hpop hb hx

theorem exec_txStream (hs : s.Inv) (h : exec i s = .next t) (hf : t.fault = none)
    (hpop : isTxLeafPop line i = false) (hx : s.txStream line = some xs) :
    t.txStream line = some (xs ++ txAccepted line i s) := by
  obtain ⟨cs, hc, -⟩ := Option.map_eq_some_iff.mp hx
  obtain ⟨l, hl, -⟩ := Option.bind_eq_some_iff.mp hc
  rw [State.txStream_of_live hl] at hx
  obtain ⟨hne, hl'⟩ | ⟨rfl, l', r, hb, hl'⟩ := exec_live h hf hl
  · rw [State.txStream_of_live hl', hx, txAccepted_of_line_ne hne, List.append_nil]
  · rw [State.txStream_of_live hl', Live.txStream_toChannel]
    exact bodyOf_txStream hl (hs.live_ok hl).tx hb hpop hx

/-- A run that leaves no fault record is a first step that leaves none and a run from there. -/
theorem execAll_cons {is : List Instr} (h : execAll (i :: is) s = .next t) (hf : t.fault = none) :
    ∃ u, exec i s = .next u ∧ u.fault = none ∧ execAll is u = .next t := by
  rw [execAll] at h
  split at h
  · next u hu =>
    refine ⟨u, hu, ?_, h⟩
    cases is with
    | nil => cases h; exact hf
    | cons j js =>
      rw [execAll] at h
      split at h
      · next hv => exact exec_next_fault hv
      · cases h
      · cases h
  · cases h
  · cases h

theorem execAll_txStream {is : List Instr} (hs : s.Inv) (his : ∀ i ∈ is, isTxLeafPop line i = false)
    (h : execAll is s = .next t) (hf : t.fault = none) (hx : s.txStream line = some xs) :
    t.txStream line = some (xs ++ txAcceptedAll line is s) := by
  induction is generalizing s xs with
  | nil => cases h; simpa [txAcceptedAll] using hx
  | cons i is ih =>
    obtain ⟨hi, his⟩ := List.forall_mem_cons.mp his
    obtain ⟨u, hu, hfu, hrest⟩ := execAll_cons h hf
    have hrun := ih (exec_inv hs hu) his hrest (exec_txStream hs hu hfu hi hx)
    simpa [txAcceptedAll, hu] using hrun

/-- Settles O54: each step of the run appends what it accepts to the line's transmit stream. -/
theorem transmitOrderIsExact : Obligations.TransmitOrderIsExact := by
  unfold Obligations.TransmitOrderIsExact
  intro is s t line cs hs hc his h hf
  have hx : s.txStream line = some (s.lineOut line ++ cs) := by rw [State.txStream, hc, Option.map_some]
  exact Option.map_eq_some_iff.mp (execAll_txStream hs his h hf hx)

end Sys2Proof.Machine
end

section
/-! PROOFS. Receive order over a run (R66, R68): bytes are dropped, never duplicated, changed or reordered. -/

namespace Sys2Proof.Machine

open Sys2Proof
open Sys2Proof.Config (Build)

variable {b : Build} {i : Instr} {s t : State} {line : Line} {l l' : Live} {r : Option Response} {xs : List Byte}

/-! ### The receive stream of a line -/

/-- The receive stream of a channel: the bytes its receive buffer holds and then those its UART holds. -/
def Live.rxStream (l : Live) : Option (List Byte) :=
  (l.regs.rx.contents l.chan.caps.rx).map (· ++ l.regs.rxHw.map RxEntry.data)

/-- The receive stream of a line, where the line is configured. -/
def State.rxStream (s : State) (line : Line) : Option (List Byte) :=
  (s.rxContents line).map (· ++ s.rxHwData line)

theorem State.rxStream_of_live (hl : s.live line = some l) : s.rxStream line = l.rxStream := by
  simp [State.rxStream, State.rxContents, State.rxHwData, Live.rxStream, hl]

@[simp] theorem Live.rxStream_toChannel (l : Live) : Live.rxStream ⟨l.toChannel, l.regs⟩ = l.rxStream := rfl

theorem Live.rxStream_congr (hk : Kept l l') (hrx : l'.regs.rx = l.regs.rx) (hhw : l'.regs.rxHw = l.regs.rxHw) :
    l'.rxStream = l.rxStream := by
  simp only [Live.rxStream, hrx, hhw, hk.caps]

/-- A pop of the receive buffer takes the first bytes of the stream, those it returns (R140). -/
theorem Live.rxStream_pop {p : Popped} {cs : List Byte} (hc : l.regs.rx.contents l.chan.caps.rx = some cs)
    {max : Nat} (hp : rbPop l.chan.caps.rx l.regs.rx max = .done p) :
    ∃ xs', (l.setRing .rx p.rb).rxStream = some xs' ∧
      cs.take max ++ xs' = cs ++ l.regs.rxHw.map RxEntry.data := by
  rw [rbPop_of_contents hc] at hp
  cases hp
  have hdrop : cs.drop (min max l.regs.rx.count) = cs.drop max := by
    rw [← RingBuffer.contents_length hc]
    rcases Nat.le_total max cs.length with hle | hle
    · rw [Nat.min_eq_left hle]
    · rw [Nat.min_eq_right hle, List.drop_length, List.drop_eq_nil_of_le hle]
  have hpop := RingBuffer.contents_pop hc (Nat.min_le_right max l.regs.rx.count)
  refine ⟨cs.drop max ++ l.regs.rxHw.map RxEntry.data, by simp [Live.rxStream, hpop, hdrop], ?_⟩
  rw [← List.append_assoc, List.take_append_drop]

/-! ### The bodies -/

theorem drainBody_rx (h : drainBody l = .done l') : l'.regs.rx = l.regs.rx ∧ l'.regs.rxHw = l.regs.rxHw := by
  obtain ⟨rfl, -⟩ | ⟨-, -, -, v, -, rfl⟩ := drainBody_inv h <;> exact ⟨rfl, rfl⟩

theorem writeBody_rx {auto : Bool} {data : List Byte} (h : writeBody auto line data l = .done (l', r)) :
    l'.regs.rx = l.regs.rx ∧ l'.regs.rxHw = l.regs.rxHw := by
  obtain ⟨l1, hpush, hrest⟩ := writeBody_inv h
  obtain ⟨rfl, -⟩ := pushBody_inv hpush
  obtain ⟨-, rfl⟩ | ⟨-, hdrain⟩ := hrest
  · exact ⟨rfl, rfl⟩
  · have hkept := drainBody_rx hdrain
    exact hkept

/-- The bodies that leave the receive side alone: those of all but five steps. -/
theorem bodyOf_rx_of_op (hb : bodyOf b i l = .done (l', r))
    (hop : i.op ∉ [.readAvailable, .rbPopP, .rbPushU, .evIrq, .evRx]) :
    l'.regs.rx = l.regs.rx ∧ l'.regs.rxHw = l.regs.rxHw := by
  cases i with
  | readAvailable | rbPopP | rbPushU | evIrq | evRx => simp at hop
  | configure | rbIsEmpty | rbIsFull => cases hb; exact ⟨rfl, rfl⟩
  | write =>
    obtain ⟨l1, h1, rfl⟩ := suspended_eq_done.mp hb
    have hkept := writeBody_rx h1
    exact hkept
  | drain =>
    obtain ⟨l1, h1, rfl⟩ := suspended_eq_done.mp hb
    have hkept := drainBody_rx (drainStep_inv h1).1
    exact hkept
  | rbPushP => obtain ⟨rfl, rfl⟩ := rbPushP_inv hb; exact ⟨rfl, rfl⟩
  | rbPopU => obtain ⟨rfl, _, rfl⟩ := rbPopU_inv hb; exact ⟨rfl, rfl⟩
  | evTxDone => obtain ⟨-, ⟨-, rfl⟩ | ⟨-, rfl⟩⟩ := evTxDone_inv hb <;> exact ⟨rfl, rfl⟩

/-- The receive branch moves the UART's oldest byte to the end of the buffer, or drops it (R212, R213). -/
theorem rxBranch_rxStream (hok : l.regs.rx.Ok l.chan.caps.rx) (hx : l.rxStream = some xs) :
    ∃ xs', (rxBranch l).rxStream = some xs' ∧ xs'.Sublist xs := by
  obtain ⟨-, he⟩ | ⟨e, es, hhw, he⟩ := rxBranch_cases l
  · exact ⟨xs, by rw [he, hx], List.Sublist.refl _⟩
  · obtain ⟨cs, hc, rfl⟩ := Option.map_eq_some_iff.mp hx
    rw [he, hhw, List.map_cons]
    cases e.err with
    | true =>
      refine ⟨cs ++ es.map RxEntry.data, by simp [Live.rxStream, hc], ?_⟩
      exact (List.sublist_cons_self _ _).append_left _
    | false =>
      refine ⟨cs ++ [e.data].take (l.chan.caps.rx - cs.length) ++ es.map RxEntry.data,
        by simp [Live.rxStream, rbPush_contents hok hc], ?_⟩
      rw [List.append_assoc]
      exact ((List.take_sublist _ [e.data]).append_right _).append_left _

/-- The transmit branch leaves the receive stream. -/
theorem txBranch_rxStream (h : txBranch l = .done l') : l'.rxStream = l.rxStream := by
  obtain ⟨-, rfl⟩ | ⟨-, -, v, -, rfl⟩ := txBranch_inv h <;> rfl

theorem handler_rxStream (h : handler l = .done l') (hok : l.regs.rx.Ok l.chan.caps.rx) (hx : l.rxStream = some xs) :
    ∃ xs', l'.rxStream = some xs' ∧ xs'.Sublist xs := by
  have hrx : ∃ xs', (if l.rxCond then rxBranch l else l).rxStream = some xs' ∧ xs'.Sublist xs := by
    split
    · exact rxBranch_rxStream hok hx
    · exact ⟨xs, hx, List.Sublist.refl _⟩
  obtain ⟨-, rfl⟩ | ⟨-, hbranch⟩ := handler_inv h
  · exact hrx
  · rwa [txBranch_rxStream hbranch]

/-! ### What a step returns and receives -/

/-- A step that pops nothing from a receive buffer returns nothing of it. -/
theorem rxReturned_of_op (ha : i.op ≠ .readAvailable) (hp : i.op ≠ .rbPopP) : rxReturned line i s = [] := by
  cases hc : s.rxContents line with
  | none => simp only [rxReturned, hc]
  | some cs =>
    simp only [rxReturned, hc]
    cases i with
    | readAvailable => exact absurd rfl ha
    | rbPopP => exact absurd rfl hp
    | _ => rfl

/-- A step of another line returns nothing of this line's receive buffer. -/
theorem rxReturned_of_line_ne (h : i.line ≠ line) : rxReturned line i s = [] := by
  cases hc : s.rxContents line with
  | none => simp only [rxReturned, hc]
  | some cs =>
    simp only [rxReturned, hc]
    cases i with
    | readAvailable => exact if_neg h
    | rbPopP ln buf =>
      cases buf with
      | tx => rfl
      | rx => exact if_neg h
    | _ => rfl

/-- Only EV_RX brings data. -/
theorem evRxData_of_op (h : i.op ≠ .evRx) : evRxData line [i] = [] := by
  cases i with
  | evRx => exact absurd rfl h
  | _ => rfl

/-- A run's EV_RX data are those of its first step and then those of the rest. -/
theorem evRxData_cons (line : Line) (i : Instr) (is : List Instr) :
    evRxData line (i :: is) = evRxData line [i] ++ evRxData line is := by
  cases i with
  | evRx ln err d => by_cases h : ln = line <;> simp [evRxData, h]
  | _ => rfl

/-- Every body that returns nothing, but a leaf push, appends at most what the UART is given to the receive stream and may
drop bytes of it. -/
theorem bodyOf_rxStream_of_op (ha : i.op ≠ .readAvailable) (hp : i.op ≠ .rbPopP)
    (hpush : isRxLeafPush i.line i = false) (hok : l.regs.rx.Ok l.chan.caps.rx)
    (hb : bodyOf b i l = .done (l', r)) (hx : l.rxStream = some xs) :
    ∃ xs', l'.rxStream = some xs' ∧ xs'.Sublist (xs ++ evRxData i.line [i]) := by
  cases i with
  | readAvailable => exact absurd rfl ha
  | rbPopP => exact absurd rfl hp
  | rbPushU => simp [isRxLeafPush] at hpush
  | evIrq =>
    rw [evRxData_of_op (by simp), List.append_nil]
    obtain ⟨-, ⟨-, rfl⟩ | ⟨-, hh⟩⟩ := evIrq_inv hb
    · exact ⟨xs, hx, List.Sublist.refl _⟩
    · exact handler_rxStream hh hok hx
  | evRx line err d =>
    obtain ⟨-, ⟨-, rfl⟩ | ⟨-, rfl⟩⟩ := evRx_inv hb
    · exact ⟨xs, hx, List.sublist_append_left _ _⟩
    · obtain ⟨cs, hc, rfl⟩ := Option.map_eq_some_iff.mp hx
      exact ⟨_, by rw [Live.rxStream, hc, Option.map_some], by simp [evRxData]⟩
  | _ =>
    obtain ⟨hrx, hhw⟩ := bodyOf_rx_of_op hb (by simp)
    exact ⟨xs, (Live.rxStream_congr (bodyOf_kept hb) hrx hhw).trans hx, List.sublist_append_left _ _⟩

/-- Every body but a leaf push takes what the step returns off the front of the receive stream, appends at most what the
UART is given, and may drop bytes; it does nothing else to it. -/
theorem bodyOf_rxStream (hl : s.live i.line = some l) (hok : l.regs.rx.Ok l.chan.caps.rx)
    (hb : bodyOf s.build i l = .done (l', r)) (hpush : isRxLeafPush i.line i = false) (hx : l.rxStream = some xs) :
    ∃ xs', l'.rxStream = some xs' ∧ (rxReturned i.line i s ++ xs').Sublist (xs ++ evRxData i.line [i]) := by
  obtain ⟨cs, hc, rfl⟩ := Option.map_eq_some_iff.mp hx
  have hcs : s.rxContents i.line = some cs := by rw [State.rxContents, hl]; exact hc
  cases i with
  | readAvailable line max =>
    obtain ⟨p, hp, rfl⟩ := suspended_popBody_inv hb
    simp only [Instr.line] at hcs
    obtain ⟨xs', hx', htaken⟩ := Live.rxStream_pop hc hp
    exact ⟨xs', hx', by simp [rxReturned, hcs, htaken, evRxData]⟩
  | rbPopP line buf max =>
    obtain ⟨rfl, p, hp, rfl⟩ := rbPopP_inv hb
    simp only [Instr.line] at hcs
    obtain ⟨xs', hx', htaken⟩ := Live.rxStream_pop hc hp
    exact ⟨xs', hx', by simp [rxReturned, hcs, htaken, evRxData]⟩
  | _ =>
    rw [rxReturned_of_op (by simp) (by simp)]
    exact bodyOf_rxStream_of_op (by simp) (by simp) hpush hok hb hx

theorem exec_rxStream (hs : s.Inv) (h : exec i s = .next t) (hf : t.fault = none)
    (hpush : isRxLeafPush line i = false) (hx : s.rxStream line = some xs) :
    ∃ xs', t.rxStream line = some xs' ∧ (rxReturned line i s ++ xs').Sublist (xs ++ evRxData line [i]) := by
  obtain ⟨cs, hc, -⟩ := Option.map_eq_some_iff.mp hx
  obtain ⟨l, hl, -⟩ := Option.bind_eq_some_iff.mp hc
  rw [State.rxStream_of_live hl] at hx
  obtain ⟨hne, hl'⟩ | ⟨rfl, l', r, hb, hl'⟩ := exec_live h hf hl
  · rw [State.rxStream_of_live hl', rxReturned_of_line_ne hne]
    exact ⟨xs, hx, List.sublist_append_left _ _⟩
  · rw [State.rxStream_of_live hl', Live.rxStream_toChannel]
    exact bodyOf_rxStream hl (hs.live_ok hl).rx hb hpush hx

theorem execAll_rxStream {is : List Instr} (hs : s.Inv) (his : ∀ i ∈ is, isRxLeafPush line i = false)
    (h : execAll is s = .next t) (hf : t.fault = none) (hx : s.rxStream line = some xs) :
    ∃ xs', t.rxStream line = some xs' ∧ (rxReturnedAll line is s ++ xs').Sublist (xs ++ evRxData line is) := by
  induction is generalizing s xs with
  | nil => cases h; exact ⟨xs, hx, by simp [rxReturnedAll, evRxData]⟩
  | cons i is ih =>
    obtain ⟨hi, his⟩ := List.forall_mem_cons.mp his
    obtain ⟨u, hu, hfu, hrest⟩ := execAll_cons h hf
    obtain ⟨ys, hy, hfirst⟩ := exec_rxStream hs hu hfu hi hx
    obtain ⟨xs', hx', hrun⟩ := ih (exec_inv hs hu) his hrest hy
    refine ⟨xs', hx', ?_⟩
    have hstep : rxReturnedAll line (i :: is) s = rxReturned line i s ++ rxReturnedAll line is u := by
      rw [rxReturnedAll, hu]
    calc rxReturnedAll line (i :: is) s ++ xs'
        = rxReturned line i s ++ (rxReturnedAll line is u ++ xs') := by rw [hstep, List.append_assoc]
      List.Sublist _ (rxReturned line i s ++ (ys ++ evRxData line is)) := hrun.append_left _
      _ = rxReturned line i s ++ ys ++ evRxData line is := (List.append_assoc _ _ _).symm
      List.Sublist _ (xs ++ evRxData line [i] ++ evRxData line is) := hfirst.append_right _
      _ = xs ++ evRxData line (i :: is) := by rw [evRxData_cons line i is, List.append_assoc]

/-- Settles O55: each step of the run takes what it returns off the front of the line's receive stream, and appends
at most its EV_RX data. -/
theorem receiveOrderIsExact : Obligations.ReceiveOrderIsExact := by
  unfold Obligations.ReceiveOrderIsExact
  intro is s t line cs hs hc his h hf
  have hx : s.rxStream line = some (cs ++ s.rxHwData line) := by rw [State.rxStream, hc, Option.map_some]
  obtain ⟨xs', hx', hsub⟩ := execAll_rxStream hs his h hf hx
  obtain ⟨cs', hc', rfl⟩ := Option.map_eq_some_iff.mp hx'
  exact ⟨cs', hc', by rwa [List.append_assoc]⟩

end Sys2Proof.Machine
end

section
/-! PROOFS. Liveness (R224): under fairness an armed line sends everything it has queued. -/

namespace Sys2Proof.Machine

open Sys2Proof
open Sys2Proof.Config (Build)

variable {b : Build} {i : Instr} {s t : State} {line : Line} {l l' : Live} {st : TxState} {out : List Byte} {k : Nat}

/-! ### Leads-to on an endless run -/

/-- Every state of an endless run is without a fault record, for a step runs from it. -/
theorem Run.fault_none (run : Run) (m : Nat) : (run.states m).fault = none := exec_next_fault (run.next m)

/-- A fair run leaves `P` for `Q`: each step from `P` stays in `P` or reaches `Q`, a run that stays in `P` takes a helpful
step, and a helpful step from `P` reaches `Q`. -/
theorem Run.leadsTo {run : Run} {P Q : State → Prop} {helpful : Instr} {n : Nat} (hP : P (run.states n))
    (hstep : ∀ m, P (run.states m) → run.steps m ≠ helpful → P (run.states (m + 1)))
    (hhelp : ∀ m, P (run.states m) → run.steps m = helpful → Q (run.states (m + 1)))
    (hfair : (∀ m, n ≤ m → P (run.states m)) → ∃ m, n ≤ m ∧ run.steps m = helpful) :
    ∃ m, n ≤ m ∧ Q (run.states m) := by
  by_contra hnever
  push Not at hnever
  have hstay : ∀ m, n ≤ m → P (run.states m) := fun m hm => by
    induction m, hm using Nat.le_induction with
    | base => exact hP
    | succ m hm ih => exact hstep m ih fun he => hnever (m + 1) (by omega) (hhelp m ih he)
  obtain ⟨m, hm, he⟩ := hfair hstay
  exact hnever (m + 1) (by omega) (hhelp m (hstay m hm) he)

/-! ### The table of R230 on an armed line -/

/-- An ARMED-BUSY line waits for its transmitter alone. -/
theorem txNext_armedBusy (auto : Bool) (line : Line) (queued accepted : Nat) (i : Instr) :
    txNext auto line queued accepted .armedBusy i = if i = .evTxDone line then .armedReady else .armedBusy := by
  cases i <;> simp [txNext]

/-- An ARMED-READY line waits for its handler alone. -/
theorem txNext_armedReady (auto : Bool) (line : Line) (queued accepted : Nat) (i : Instr) :
    txNext auto line queued accepted .armedReady i =
      if i = .evIrq line then (if 0 < queued then .armedBusy else .idle) else .armedReady := by
  cases i <;> simp [txNext]

/-- A body that takes a line from ARMED-READY to ARMED-BUSY puts a byte on the wire (R214). -/
theorem TxStep.sends_of_ready_to_busy (h : TxStep b i l l') (hready : l.txState = some .armedReady)
    (hbusy : l'.txState = some .armedBusy) : ∃ v, l'.chan.lineOut = l.chan.lineOut ++ [v] := by
  cases h with
  | kept armed busy pend => rw [Live.txState_congr armed busy pend, hready] at hbusy; cases hbusy
  | started _ out => exact out
  | sent _ _ _ out => exact out
  | disarmed _ _ armed => simp [Live.txState_eq_some, TxState.flags, armed] at hbusy
  | finished _ busy => simp [Live.txState_eq_some, TxState.flags, busy] at hready

/-! ### A line that owes bytes -/

/-- A line in the transmit state `st` that has sent at least `k` bytes and whose transmit stream begins with `out`. -/
structure State.Owes (line : Line) (out : List Byte) (k : Nat) (st : TxState) (s : State) : Prop where
  inv : s.Inv
  state : s.txState line = some st
  sent : k ≤ (s.lineOut line).length
  stream : ∃ xs, s.txStream line = some xs ∧ out <+: xs

theorem State.live_of_txState (h : s.txState line = some st) : ∃ l, s.live line = some l ∧ l.txState = some st :=
  Option.bind_eq_some_iff.mp h

/-- What a line has sent, no step takes back (R72). -/
theorem lineOut_prefix (h : exec i s = .next t) : s.lineOut line <+: t.lineOut line := by
  obtain hsame | ⟨⟨v, hmore⟩, -⟩ := atMostOneByteSentPerStep i s t line h
  · rw [hsame]
  · rw [hmore]; exact List.prefix_append _ _

/-- A step leaves a line that owes bytes owing them, in the transmit state the table gives. -/
theorem State.Owes.step (hs : s.Owes line out k st) (h : exec i s = .next t) (hf : t.fault = none)
    (hpop : isTxLeafPop line i = false) (hl : s.live line = some l) :
    t.Owes line out k
      (txNext s.build.autoDrain line l.regs.tx.count (txAccepted line i s).length st i) := by
  obtain ⟨hinv, hstate, hsent, xs, hx, hpre⟩ := hs
  obtain ⟨l0, hl0, hst⟩ := State.live_of_txState hstate
  obtain rfl : l0 = l := Option.some.inj (hl0.symm.trans hl)
  exact ⟨exec_inv hinv h, transmitStateMachine.1 i s t line l0 st hinv h hf hl hst,
    hsent.trans (lineOut_prefix h).length_le, _, exec_txStream hinv h hf hpop hx, hpre.trans (List.prefix_append _ _)⟩

/-- A line with nothing queued has sent what it owed. -/
theorem State.Owes.paid_of_empty (hs : s.Owes line out k st) (hl : s.live line = some l)
    (hempty : l.regs.tx.count = 0) : out <+: s.lineOut line := by
  obtain ⟨-, -, -, xs, hx, hpre⟩ := hs
  rw [State.txStream_of_live hl] at hx
  obtain ⟨cs, hc, rfl⟩ := Option.map_eq_some_iff.mp hx
  have hnil : cs = [] := List.eq_nil_of_length_eq_zero ((RingBuffer.contents_length hc).trans hempty)
  rwa [hnil, List.append_nil, ← State.lineOut_of_live hl] at hpre

/-- A line that has sent as many bytes as it owed has sent those. -/
theorem State.Owes.paid_of_length (hs : s.Owes line out k st) (hk : out.length ≤ k) : out <+: s.lineOut line := by
  obtain ⟨-, -, hsent, xs, hx, hpre⟩ := hs
  obtain ⟨cs, -, rfl⟩ := Option.map_eq_some_iff.mp hx
  exact List.prefix_of_prefix_length_le hpre (List.prefix_append _ _) (hk.trans hsent)

/-- The handler's entry on an ARMED-READY line sends one more byte, or finds everything sent (R214). -/
theorem State.Owes.handled (hs : s.Owes line out k .armedReady) (h : exec (.evIrq line) s = .next t)
    (hf : t.fault = none) : out <+: t.lineOut line ∨ t.Owes line out (k + 1) .armedBusy := by
  obtain ⟨l, hl, hready⟩ := State.live_of_txState hs.state
  have hnext := hs.step h hf rfl hl
  rw [txNext_armedReady, if_pos rfl] at hnext
  split at hnext
  · refine .inr { hnext with sent := ?_ }
    obtain ⟨l', r, hb, rfl⟩ := exec_ran h hf hl
    have hbusy := hnext.state
    have hsent := hs.sent
    rw [Instr.line, State.txState, State.live_after hl, if_pos rfl] at hbusy
    obtain ⟨v, hout⟩ := (bodyOf_tx hb).sends_of_ready_to_busy hready hbusy
    rw [State.lineOut_of_live hl] at hsent
    rw [Instr.line, State.lineOut_after hl, if_pos rfl, hout, List.length_append]
    exact Nat.add_le_add_right hsent 1
  · next hempty => exact .inl ((hs.paid_of_empty hl (by omega)).trans (lineOut_prefix h))

/-- An ARMED-READY line requests its interrupt: its line is enabled between steps (R33, R36). -/
theorem State.irqReq_of_ready (hs : s.Inv) (hready : s.txState line = some .armedReady) : s.irqReq line = true := by
  obtain ⟨l, hl, hst⟩ := State.live_of_txState hready
  have hcond : l.txCond = true := (Live.txCond_iff_ready hst).mpr rfl
  simp [State.irqReq, hl, Live.irqReq, (hs.live_ok hl).lineEn, hcond]

/-- An ARMED-BUSY line's transmitter is busy (R38). -/
theorem State.txBusy_of_busy (hbusy : s.txState line = some .armedBusy) :
    ((s.live line).any fun l => l.regs.txBusy) = true := by
  obtain ⟨l, hl, hst⟩ := State.live_of_txState hbusy
  simp [Live.txState_eq_some, TxState.flags] at hst
  simp [hl, hst]

/-! ### A fair run -/

section Fair

variable {run : Run} {n : Nat} (hfair : run.Fair line) (hpop : ∀ m, isTxLeafPop line (run.steps m) = false)

include hfair hpop

/-- The byte in flight gets out (R224 (b)). -/
theorem Run.Fair.busy_leads_to_ready (hn : (run.states n).Owes line out k .armedBusy) :
    ∃ m, n ≤ m ∧ (run.states m).Owes line out k .armedReady := by
  have hnext : ∀ m, (run.states m).Owes line out k .armedBusy → (run.states (m + 1)).Owes line out k
      (if run.steps m = .evTxDone line then .armedReady else .armedBusy) := fun m hm => by
    obtain ⟨l, hl, -⟩ := State.live_of_txState hm.state
    have hstep := hm.step (run.next m) (run.fault_none _) (hpop m) hl
    rwa [txNext_armedBusy] at hstep
  refine Run.leadsTo (helpful := .evTxDone line) hn (fun m hm hne => ?_) (fun m hm he => ?_) fun hstay =>
    hfair.txDone n fun m hm => State.txBusy_of_busy (hstay m hm).state
  · have := hnext m hm
    rwa [if_neg hne] at this
  · have := hnext m hm
    rwa [if_pos he] at this

/-- The handler takes the request, and sends one more byte or finds everything sent (R224 (a)). -/
theorem Run.Fair.ready_leads_to_send (hn : (run.states n).Owes line out k .armedReady) :
    ∃ m, n ≤ m ∧ (out <+: (run.states m).lineOut line ∨ (run.states m).Owes line out (k + 1) .armedBusy) := by
  refine Run.leadsTo (helpful := .evIrq line)
    (Q := fun s => out <+: s.lineOut line ∨ s.Owes line out (k + 1) .armedBusy) hn (fun m hm hne => ?_)
    (fun m hm he => hm.handled (he ▸ run.next m) (run.fault_none _)) fun hstay =>
      hfair.irq n fun m hm => State.irqReq_of_ready (hstay m hm).inv (hstay m hm).state
  obtain ⟨l, hl, -⟩ := State.live_of_txState hm.state
  have hstep := hm.step (run.next m) (run.fault_none _) (hpop m) hl
  rwa [txNext_armedReady, if_neg hne] at hstep

/-- By induction on the bytes still to send: each round of completion and handler entry sends one more. -/
theorem Run.Fair.busy_leads_to_paid (missing : Nat) (hn : (run.states n).Owes line out k .armedBusy)
    (hk : out.length ≤ k + missing) : ∃ m, n ≤ m ∧ out <+: (run.states m).lineOut line := by
  induction missing generalizing n k with
  | zero => exact ⟨n, le_rfl, hn.paid_of_length hk⟩
  | succ missing ih =>
    obtain ⟨m1, hm1, hready⟩ := hfair.busy_leads_to_ready hpop hn
    obtain ⟨m2, hm2, hpaid | hbusy⟩ := hfair.ready_leads_to_send hpop hready
    · exact ⟨m2, hm1.trans hm2, hpaid⟩
    · obtain ⟨m, hm, hpaid⟩ := ih hbusy (by omega)
      exact ⟨m, (hm1.trans hm2).trans hm, hpaid⟩

end Fair

/-- An armed line in a transmit state is ARMED-BUSY or ARMED-READY (R38). -/
theorem Live.txState_of_armed (h : l.txState.isSome = true) (harmed : l.chan.txArmed = true) :
    l.txState = some .armedBusy ∨ l.txState = some .armedReady := by
  obtain ⟨st, hst⟩ := Option.isSome_iff_exists.mp h
  cases st with
  | idle => simp [Live.txState_eq_some, TxState.flags, harmed] at hst
  | armedBusy => exact .inl hst
  | armedReady => exact .inr hst

/-- Settles O58: what is queued stays at the front of the transmit stream, and while the line has not sent it all, the
byte in flight gets out and the handler sends the next. -/
theorem fairArmedLineSendsItsQueue : Obligations.FairArmedLineSendsItsQueue := by
  unfold Obligations.FairArmedLineSendsItsQueue
  intro run line n l cs hfair hinv hpop hl harmed hc
  have howes : ∀ st, l.txState = some st → (run.states n).Owes line (l.chan.lineOut ++ cs) 0 st := fun st hst =>
    { inv := hinv
      state := by rw [State.txState, hl]; exact hst
      sent := Nat.zero_le _
      stream := ⟨_, by rw [State.txStream_of_live hl, Live.txStream, hc, Option.map_some], List.prefix_rfl⟩ }
  obtain hbusy | hready := Live.txState_of_armed (hinv.live_ok hl).txState harmed
  · exact hfair.busy_leads_to_paid hpop _ (howes _ hbusy) (Nat.le_add_left _ _)
  · obtain ⟨m1, hm1, hpaid | hbusy⟩ := hfair.ready_leads_to_send hpop (howes _ hready)
    · exact ⟨m1, hm1, hpaid⟩
    · obtain ⟨m, hm, hpaid⟩ := hfair.busy_leads_to_paid hpop _ hbusy (Nat.le_add_left _ _)
      exact ⟨m, hm1.trans hm, hpaid⟩

end Sys2Proof.Machine
end

section
/-! PROOFS. The encoding (30_encoding): decode and encode agree in both directions, the match and mask values, and the
illegal words of R101. All rest on one law: what the decoder reads from a word whose OP names an opcode. -/

namespace Sys2Proof

open Sys2Proof.Machine (reservedMask IllegalWord)

variable {o : Op} {port : Port} {w : Word} {data rest : List Byte} {i : Instr}

/-! ### Reserved bits -/

/-- The bits of a format in [16:0] that must be zero are (R94 to R97, R102). -/
def formatZero (o : Op) (w : Word) : Bool :=
  match o with
  | .configure | .readAvailable | .write => bufField w == 0
  | .drain | .evIrq | .evTxDone => bufField w == 0 && lenField w == 0
  | .rbIsEmpty | .rbIsFull => lenField w == 0
  | .rbPushP | .rbPopP | .rbPushU | .rbPopU => true
  | .evRx => frReservedField w == 0

/-- The `len` bits of a word from bit `start` on. -/
def fieldMask (start len : Nat) : Word := (BitVec.allOnes len).setWidth 32 <<< start

/-- A word is zero under the mask of a field when the field is zero. -/
theorem and_fieldMask_eq_zero (w : Word) {start len : Nat} (h : start + len ≤ 32) :
    w &&& fieldMask start len = 0#32 ↔ w.extractLsb' start len = 0#len := by
  simp only [BitVec.eq_of_getLsbD_eq_iff, fieldMask, BitVec.getLsbD_and, BitVec.getLsbD_shiftLeft,
    BitVec.getLsbD_setWidth, BitVec.getLsbD_allOnes, BitVec.getLsbD_extractLsb']
  constructor
  · intro hw k hk
    have := hw (start + k) (by omega)
    grind
  · intro hw k hk
    have := hw (k - start)
    grind

/-- A word is zero under two masks when it is zero under each. -/
theorem and_or_eq_zero (w m m' : Word) : w &&& (m ||| m') = 0#32 ↔ w &&& m = 0#32 ∧ w &&& m' = 0#32 := by
  rw [BitVec.and_or_distrib_left]
  exact BitVec.or_eq_zero_iff

/-- The reserved bits of an opcode are the bits [23:17] and those of its format. -/
theorem and_reservedMask_eq_zero (o : Op) (w : Word) :
    w &&& reservedMask o = 0 ↔ reservedField w = 0 ∧ formatZero o w = true := by
  have hbits (start len : Nat) (h : start + len ≤ 32) := and_fieldMask_eq_zero w h
  cases o with
  | configure | readAvailable | write =>
    rw [show reservedMask _ = fieldMask 17 7 ||| fieldMask 16 1 by decide]
    simp [and_or_eq_zero, hbits, formatZero, reservedField, bufField]
  | drain | evIrq | evTxDone =>
    rw [show reservedMask _ = fieldMask 17 7 ||| (fieldMask 16 1 ||| fieldMask 0 16) by decide]
    simp [and_or_eq_zero, hbits, formatZero, reservedField, bufField, lenField]
  | rbIsEmpty | rbIsFull =>
    rw [show reservedMask _ = fieldMask 17 7 ||| fieldMask 0 16 by decide]
    simp [and_or_eq_zero, hbits, formatZero, reservedField, lenField]
  | rbPushP | rbPopP | rbPushU | rbPopU =>
    rw [show reservedMask _ = fieldMask 17 7 by decide]
    simp [hbits, formatZero, reservedField]
  | evRx =>
    rw [show reservedMask _ = fieldMask 17 7 ||| fieldMask 9 8 by decide]
    simp [and_or_eq_zero, hbits, formatZero, reservedField, frReservedField]

/-! ### What the decoder reads -/

/-- The step a word of an opcode spells, with its data bytes (R91 to R98). -/
def stepOf (o : Op) (w : Word) (data : List Byte) : Instr :=
  match o with
  | .configure => .configure (lineField w) (txPinField w) (rxPinField w)
  | .readAvailable => .readAvailable (lineField w) (lenField w)
  | .write => .write (lineField w) data
  | .drain => .drain (lineField w)
  | .rbIsEmpty => .rbIsEmpty (lineField w) (Buf.ofBit (bufField w))
  | .rbIsFull => .rbIsFull (lineField w) (Buf.ofBit (bufField w))
  | .rbPushP => .rbPushP (lineField w) (Buf.ofBit (bufField w)) data
  | .rbPopP => .rbPopP (lineField w) (Buf.ofBit (bufField w)) (lenField w)
  | .rbPushU => .rbPushU (lineField w) (Buf.ofBit (bufField w)) data
  | .rbPopU => .rbPopU (lineField w) (Buf.ofBit (bufField w)) (lenField w)
  | .evIrq => .evIrq (lineField w)
  | .evRx => .evRx (lineField w) (errField w == 1) (dataField w)
  | .evTxDone => .evTxDone (lineField w)

@[simp] theorem stepOf_op (o : Op) (w : Word) (data : List Byte) : (stepOf o w data).op = o := by
  cases o <;> rfl

@[simp] theorem stepOf_line (o : Op) (w : Word) (data : List Byte) : (stepOf o w data).line = lineField w := by
  cases o <;> rfl

/-- What a legal word is read as: its step with the data bytes that belong to it, where they are there (R98). -/
def wholeStep (o : Op) (w : Word) (data : List Byte) : Decoded :=
  if data.length < dataCount w then .missingData
  else .ok (stepOf o w (data.take (dataCount w))) (data.drop (dataCount w))

/-- Reading the operands checks the format's bits and takes the step. -/
theorem decodeOperands_eq (ho : o.code = opField w) (data : List Byte) :
    decodeOperands o w data = requiring (formatZero o w) w (wholeStep o w data) := by
  have hcount := Op.ofCode_eq_some.mpr ho
  cases o with
  | write | rbPushP | rbPushU => simp only [wholeStep, dataCount, hcount]; rfl
  | _ => simp [wholeStep, dataCount, hcount, decodeOperands, formatZero, stepOf, requiring]

/-- A word whose OP names an opcode: legal on the opcode's port with its reserved bits zero (R101, R102). -/
theorem decodeWord_of_op (ho : o.code = opField w) (port : Port) (data : List Byte) :
    decodeWord port w data =
      if o.port = port then
        if w &&& reservedMask o = 0 then wholeStep o w data else .illegal .reservedBits w
      else .illegal .wrongPort w := by
  simp only [decodeWord, Op.ofCode_eq_some.mpr ho, decodeOperands_eq ho, and_reservedMask_eq_zero]
  by_cases hres : reservedField w = 0#7 <;> simp [hres, requiring]

/-- A word with a reserved OP (R101). -/
theorem decodeWord_reservedOp (h : Op.ofCode (opField w) = none) (port : Port) (data : List Byte) :
    decodeWord port w data = .illegal .reservedOp w := by
  simp only [decodeWord, h]

/-- A word read as a step is legal, has its data bytes, and is the word of that step. -/
theorem decodeWord_eq_ok : decodeWord port w data = .ok i rest ↔
    ∃ o : Op, o.code = opField w ∧ o.port = port ∧ w &&& reservedMask o = 0 ∧ dataCount w ≤ data.length ∧
      i = stepOf o w (data.take (dataCount w)) ∧ rest = data.drop (dataCount w) := by
  constructor
  · intro h
    cases hop : Op.ofCode (opField w) with
    | none => rw [decodeWord_reservedOp hop] at h; cases h
    | some o =>
      have ho := Op.ofCode_eq_some.mp hop
      rw [decodeWord_of_op ho] at h
      split_ifs at h with hport hres
      unfold wholeStep at h
      split at h
      · cases h
      · next hlen => cases h; exact ⟨o, ho, hport, hres, Nat.not_lt.mp hlen, rfl, rfl⟩
  · rintro ⟨o, ho, hport, hres, hlen, rfl, rfl⟩
    rw [decodeWord_of_op ho, if_pos hport, if_pos hres, wholeStep, if_neg (Nat.not_lt.mpr hlen)]

/-! ### The fields of a step's word -/

@[simp] theorem Instr.opField_word (i : Instr) : opField i.word = i.op.code := opField_headed _ _ _
@[simp] theorem Instr.lineField_word (i : Instr) : lineField i.word = i.line := lineField_headed _ _ _
@[simp] theorem Instr.reservedField_word (i : Instr) : reservedField i.word = i.lowBits.extractLsb' 17 7 :=
  extract_headed _ _ _ (by omega)
@[simp] theorem Instr.bufField_word (i : Instr) : bufField i.word = i.lowBits.extractLsb' 16 1 :=
  extract_headed _ _ _ (by omega)
@[simp] theorem Instr.lenField_word (i : Instr) : lenField i.word = i.lowBits.extractLsb' 0 16 :=
  extract_headed _ _ _ (by omega)
@[simp] theorem Instr.txPinField_word (i : Instr) : txPinField i.word = i.lowBits.extractLsb' 8 8 :=
  extract_headed _ _ _ (by omega)
@[simp] theorem Instr.rxPinField_word (i : Instr) : rxPinField i.word = i.lowBits.extractLsb' 0 8 :=
  extract_headed _ _ _ (by omega)
@[simp] theorem Instr.errField_word (i : Instr) : errField i.word = i.lowBits.extractLsb' 8 1 :=
  extract_headed _ _ _ (by omega)
@[simp] theorem Instr.frReservedField_word (i : Instr) : frReservedField i.word = i.lowBits.extractLsb' 9 8 :=
  extract_headed _ _ _ (by omega)
@[simp] theorem Instr.dataField_word (i : Instr) : dataField i.word = i.lowBits.extractLsb' 0 8 :=
  extract_headed _ _ _ (by omega)

/-- The word of a step has its reserved bits zero (R90). -/
theorem Instr.word_reserved (i : Instr) : i.word &&& reservedMask i.op = 0 := by
  rw [and_reservedMask_eq_zero]
  cases i <;> simp [formatZero, Instr.lowBits]

/-- The word of a well-formed step counts its data bytes (R95). -/
theorem Instr.dataCount_word (hi : i.wellFormed = true) : dataCount i.word = i.dataBytes.length := by
  cases i with
  | write | rbPushP | rbPushU => simpa [dataCount, Instr.lowBits, Instr.dataBytes] using lenOf_toNat hi
  | _ => simp [dataCount, Instr.dataBytes]

theorem ofBool_beq_one (e : Bool) : (BitVec.ofBool e == 1#1) = e := by cases e <;> rfl

/-- The word of a step and its data bytes spell the step. -/
theorem stepOf_word (i : Instr) : stepOf i.op i.word i.dataBytes = i := by
  cases i <;> simp [stepOf, Instr.lowBits, Instr.dataBytes, ofBool_beq_one]

/-- Settles O2: the word is legal on the step's port and carries its operands. -/
theorem decodeOfEncode : Obligations.DecodeOfEncode := by
  unfold Obligations.DecodeOfEncode
  intro i hi rest
  have hcount := Instr.dataCount_word hi
  rw [encode, List.append_assoc, decode_bytesOfWord, decodeWord_eq_ok]
  refine ⟨i.op, (Instr.opField_word i).symm, rfl, i.word_reserved, by simp [hcount], ?_, ?_⟩
  · rw [hcount, List.take_left, stepOf_word]
  · rw [hcount, List.drop_left]

/-! ### The word of a decoded step -/

/-- The 24 low bits of a word, as formats FL, FB and FQ cut them. -/
theorem extract_low_eq_append (w : Word) :
    w.extractLsb' 0 24 = reservedField w ++ bufField w ++ lenField w := by
  apply BitVec.eq_of_getLsbD_eq
  intro k hk
  simp only [reservedField, bufField, lenField, BitVec.getLsbD_append, BitVec.getLsbD_extractLsb']
  grind

/-- The 24 low bits of a word, as format FR cuts them. -/
theorem extract_low_eq_append_fr (w : Word) :
    w.extractLsb' 0 24 = reservedField w ++ frReservedField w ++ errField w ++ dataField w := by
  apply BitVec.eq_of_getLsbD_eq
  intro k hk
  simp only [reservedField, frReservedField, errField, dataField, BitVec.getLsbD_append, BitVec.getLsbD_extractLsb']
  grind

/-- The 24 low bits of a word, as format FC cuts them. -/
theorem extract_low_eq_append_fc (w : Word) :
    w.extractLsb' 0 24 = reservedField w ++ bufField w ++ txPinField w ++ rxPinField w := by
  apply BitVec.eq_of_getLsbD_eq
  intro k hk
  simp only [reservedField, bufField, txPinField, rxPinField, BitVec.getLsbD_append, BitVec.getLsbD_extractLsb']
  grind

theorem ofBool_beq_one_self (x : BitVec 1) : BitVec.ofBool (x == 1) = x := by revert x; decide

/-- The data bytes of a decoded step are those the word counts. -/
theorem stepOf_dataBytes (ho : o.code = opField w) (hlen : data.length = dataCount w) :
    (stepOf o w data).dataBytes = data := by
  rw [dataCount, Op.ofCode_eq_some.mpr ho] at hlen
  cases o with
  | write | rbPushP | rbPushU => rfl
  | _ => exact (List.length_eq_zero_iff.mp hlen).symm

/-- A list that a length field counts has that field as its length. -/
theorem lenOf_of_length (h : data.length = (lenField w).toNat) : lenOf data = lenField w := by
  rw [lenOf, h, BitVec.ofNat_toNat, BitVec.setWidth_eq]

/-- The low bits of a decoded step are those of its word. -/
theorem stepOf_lowBits (ho : o.code = opField w) (hres : w &&& reservedMask o = 0) (hlen : data.length = dataCount w) :
    (stepOf o w data).lowBits = w.extractLsb' 0 24 := by
  obtain ⟨hr, hz⟩ := (and_reservedMask_eq_zero o w).mp hres
  rw [dataCount, Op.ofCode_eq_some.mpr ho] at hlen
  cases o with
  | evRx =>
    have hf : frReservedField w = 0 := by simpa [formatZero] using hz
    rw [extract_low_eq_append_fr, hr, hf]
    simp only [stepOf, Instr.lowBits, lowFR, ofBool_beq_one_self]
    rfl
  | configure =>
    have hb : bufField w = 0 := by simpa [formatZero] using hz
    rw [extract_low_eq_append_fc, hr, hb]
    rfl
  | readAvailable =>
    have hb : bufField w = 0 := by simpa [formatZero] using hz
    rw [extract_low_eq_append, hr, hb]
    rfl
  | write =>
    have hb : bufField w = 0 := by simpa [formatZero] using hz
    rw [extract_low_eq_append, hr, hb, ← lenOf_of_length hlen]
    rfl
  | drain | evIrq | evTxDone =>
    obtain ⟨hb, hn⟩ : bufField w = 0 ∧ lenField w = 0 := by simpa [formatZero] using hz
    rw [extract_low_eq_append, hr, hb, hn]
    rfl
  | rbIsEmpty | rbIsFull =>
    have hn : lenField w = 0 := by simpa [formatZero] using hz
    rw [extract_low_eq_append, hr, hn]
    simp only [stepOf, Instr.lowBits, lowFQ, Buf.bit_ofBit]
    rfl
  | rbPushP | rbPushU =>
    rw [extract_low_eq_append, hr, ← lenOf_of_length hlen]
    simp only [stepOf, Instr.lowBits, lowFB, Buf.bit_ofBit]
    rfl
  | rbPopP | rbPopU =>
    rw [extract_low_eq_append, hr]
    simp only [stepOf, Instr.lowBits, lowFB, Buf.bit_ofBit]
    rfl

/-- A word counts no more data bytes than its length field says. -/
theorem dataCount_le (w : Word) : dataCount w ≤ (lenField w).toNat := by
  unfold dataCount
  split <;> omega

/-- A decoded step has an encoding: its data bytes fit its length field. -/
theorem stepOf_wellFormed (o : Op) (h : data.length < 65536) : (stepOf o w data).wellFormed = true := by
  cases o with
  | write | rbPushP | rbPushU => exact decide_eq_true h
  | _ => rfl

/-- The bytes of a decoded step are its word and the data bytes the word counts. -/
theorem encode_stepOf (ho : o.code = opField w) (hres : w &&& reservedMask o = 0) (hlen : data.length = dataCount w) :
    encode (stepOf o w data) = bytesOfWord w ++ data := by
  rw [encode, stepOf_dataBytes ho hlen, Instr.word, stepOf_op, stepOf_line, stepOf_lowBits ho hres hlen,
    ← word_eq_headed ho]

/-- Bytes that decode to a step are a word and what the decoder reads from it. -/
theorem decode_eq_ok {bytes : List Byte} (h : decode port bytes = .ok i rest) :
    ∃ w data, bytes = bytesOfWord w ++ data ∧ decodeWord port w data = .ok i rest := by
  unfold decode at h
  split at h
  · next b0 b1 b2 b3 data => exact ⟨_, data, by rw [bytesOfWord_wordOfBytes]; rfl, h⟩
  · cases h

/-- Settles O3: the decoded step is the one its word spells, and the word and its data bytes are its encoding. -/
theorem encodeOfDecode : Obligations.EncodeOfDecode := by
  unfold Obligations.EncodeOfDecode
  intro port bytes i rest h
  obtain ⟨w, data, rfl, hw⟩ := decode_eq_ok h
  obtain ⟨o, ho, hport, hres, hlen, rfl, rfl⟩ := decodeWord_eq_ok.mp hw
  have htake : (data.take (dataCount w)).length = dataCount w := List.length_take_of_le hlen
  refine ⟨?_, stepOf_wellFormed o (by have := dataCount_le w; omega), by rw [stepOf_op, hport]⟩
  rw [encode_stepOf ho hres htake, List.append_assoc, List.take_append_drop]

/-! ### Match and mask -/

/-- A mask is OP and the reserved bits (R103). -/
theorem mask_eq (o : Op) : o.mask = fieldMask 28 4 ||| reservedMask o := by cases o <;> decide

theorem opField_mask (o : Op) : opField o.mask = BitVec.allOnes 4 := by cases o <;> decide

theorem mask_and_reservedMask (o : Op) : o.mask &&& reservedMask o = reservedMask o := by cases o <;> decide

/-- A match value is the opcode's OP and zeros (R103). -/
theorem matchWord_eq (o : Op) : o.matchWord = headed o 0 0 := by cases o <;> decide

theorem matchWord_and_reservedMask (o : Op) : o.matchWord &&& reservedMask o = 0 := by cases o <;> decide

/-- Under the mask of OP a word keeps its OP alone. -/
theorem headed_and_opMask (o : Op) (l : Line) (low : BitVec 24) : headed o l low &&& fieldMask 28 4 = headed o 0 0 := by
  rw [show fieldMask 28 4 = BitVec.allOnes 4 ++ 0#4 ++ 0#24 by decide, headed, BitVec.and_append, BitVec.and_append,
    BitVec.and_allOnes, BitVec.and_zero, BitVec.and_zero]
  rfl

/-- A word is an opcode's under its mask when OP is the opcode's code and the reserved bits are zero (R103). -/
theorem and_mask_eq_matchWord (o : Op) (w : Word) :
    w &&& o.mask = o.matchWord ↔ o.code = opField w ∧ w &&& reservedMask o = 0 := by
  constructor
  · intro h
    constructor
    · have hop : opField (w &&& o.mask) = opField w &&& opField o.mask := BitVec.extractLsb'_and
      rw [h, matchWord_eq, opField_headed, opField_mask, BitVec.and_allOnes] at hop
      exact hop
    · rw [← mask_and_reservedMask, ← BitVec.and_assoc, h, matchWord_and_reservedMask]
  · rintro ⟨ho, hres⟩
    rw [mask_eq, BitVec.and_or_distrib_left, hres, word_eq_headed ho, headed_and_opMask, matchWord_eq]
    exact BitVec.or_zero

/-- Settles O4: the mask tests what the decoder tests, and an OP value names one opcode. -/
theorem matchMaskRecognisesOpcode : Obligations.MatchMaskRecognisesOpcode := by
  unfold Obligations.MatchMaskRecognisesOpcode
  refine ⟨fun o w data hlen => ?_, fun o o' w h h' => ?_⟩
  · rw [and_mask_eq_matchWord]
    simp only [decode_bytesOfWord]
    constructor
    · rintro ⟨i, rest, h, rfl⟩
      obtain ⟨o, ho, -, hres, -, rfl, -⟩ := decodeWord_eq_ok.mp h
      rw [stepOf_op]
      exact ⟨ho, hres⟩
    · rintro ⟨ho, hres⟩
      have hcount := (dataCount_le w).trans hlen
      exact ⟨_, _, decodeWord_eq_ok.mpr ⟨o, ho, rfl, hres, hcount, rfl, rfl⟩, stepOf_op _ _ _⟩
  · obtain ⟨ho, -⟩ := (and_mask_eq_matchWord o w).mp h
    obtain ⟨ho', -⟩ := (and_mask_eq_matchWord o' w).mp h'
    exact Op.code_injective (ho.trans ho'.symm)

/-! ### Illegal words -/

/-- A word whose OP names an opcode is illegal on another port or with a reserved bit set (R101). -/
theorem illegalWord_of_op (ho : o.code = opField w) (port : Port) :
    IllegalWord port w ↔ o.port ≠ port ∨ w &&& reservedMask o ≠ 0 := by
  have hreserved : ¬ (opField w = 0x0 ∨ opField w = 0x5 ∨ opField w = 0xF) := by
    rw [← Op.ofCode_eq_none, ← ho, Op.ofCode_code]
    nofun
  have honly (P : Op → Prop) : (∃ o' : Op, o'.code = opField w ∧ P o') ↔ P o :=
    ⟨fun ⟨_, ho', h⟩ => Op.code_injective (ho'.trans ho.symm) ▸ h, fun h => ⟨o, ho, h⟩⟩
  rw [IllegalWord, honly, honly, or_iff_right hreserved]

/-- A legal word is never called illegal. -/
theorem wholeStep_ne_illegal (why : Illegal) : wholeStep o w data ≠ .illegal why w := by
  unfold wholeStep
  split <;> nofun

/-- The decoder calls a word illegal exactly under the conditions of R101. -/
theorem decodeWord_illegal_iff : (∃ why, decodeWord port w data = .illegal why w) ↔ IllegalWord port w := by
  cases hop : Op.ofCode (opField w) with
  | none => exact iff_of_true ⟨_, decodeWord_reservedOp hop port data⟩ (.inl (Op.ofCode_eq_none.mp hop))
  | some o =>
    have ho := Op.ofCode_eq_some.mp hop
    rw [illegalWord_of_op ho, decodeWord_of_op ho]
    by_cases hport : o.port = port <;> by_cases hres : w &&& reservedMask o = 0#32 <;>
      simp [hport, hres, wholeStep_ne_illegal]

/-- Settles O5: a word's bytes decode as the word does, whatever follows them. -/
theorem illegalWordsAreThoseOfR101 : Obligations.IllegalWordsAreThoseOfR101 := by
  unfold Obligations.IllegalWordsAreThoseOfR101
  intro port w data
  rw [decode_bytesOfWord]
  exact decodeWord_illegal_iff

/-- Settles O1: five closed words, each encoded and decoded by computation. -/
theorem specExampleWords : Obligations.SpecExampleWords := by
  unfold Obligations.SpecExampleWords
  decide

end Sys2Proof
end

section
/-! PROOFS. An illegal word's step (R101), an event without its line (R210, R220, R222), and WRITE with AUTO_DRAIN as
WRITE then DRAIN (R183, R106). -/

namespace Sys2Proof.Machine

open Sys2Proof

/-- Settles O6: the fetch answers the fault of a word that the decoder calls illegal. -/
theorem illegalWordFaults : Obligations.IllegalWordFaults := by
  unfold Obligations.IllegalWordFaults
  intro s a rest w data hf hp hbytes hillegal
  obtain ⟨why, hd⟩ := decodeWord_illegal_iff (data := data).mpr hillegal
  refine step_of_known hf hp ?_
  rw [fetchArrival, hbytes, decode_bytesOfWord, hd]
  rfl

/-- Settles O16: an event's outcome without its line is the state it started from. -/
theorem eventOnUnconfiguredLineHasNoEffect : Obligations.EventOnUnconfiguredLineHasNoEffect := by
  unfold Obligations.EventOnUnconfiguredLineHasNoEffect
  intro i s hi hf hl
  have hc : i.op ≠ .configure := by rintro h; rw [h] at hi; cases hi
  rw [exec_eq_onLine hc, onLine_absent hf hl, absentOf, if_pos hi]

/-! ### WRITE with AUTO_DRAIN -/

/-- A line that leaves its suspension and enters the next one. -/
def resuspended (saved : Bool) (l : Live) : Live := (suspend ⟨(restore saved l).toChannel, l.regs⟩).2

/-- The drain body of a sound line leaves the same record in the next suspension as in this one. -/
theorem drainBody_resuspended {b : Config.Build} {l l' : Live} (hs : l.Sound b) (h : drainBody l = .done l')
    (saved : Bool) :
    ∃ m, drainBody (resuspended saved l) = .done m ∧ (restore saved m).toChannel = (restore saved l').toChannel := by
  obtain ⟨rfl, hidle⟩ | ⟨harmed, hbusy, hcount, -⟩ := drainBody_inv h
  · exact ⟨_, drainBody_idle hidle, rfl⟩
  · obtain ⟨cs, hc⟩ := Option.isSome_iff_exists.mp hs.tx.written
    cases cs with
    | nil => exact absurd (RingBuffer.contents_length hc) hcount.ne
    | cons v vs =>
      rw [drainBody_sends harmed hbusy hc] at h
      cases h
      exact ⟨_, drainBody_sends (l := resuspended saved l) harmed hbusy hc, rfl⟩

/-- The build with AUTO_DRAIN = false. -/
def State.withoutAutoDrain (s : State) : State := { s with build := { s.build with autoDrain := false } }

/-- DRAIN of a line whose record a WRITE put back puts the record that the drain body would have left in the WRITE. -/
theorem exec_drain_restored {b : Config.Build} {t : State} {line : Line} {l1 l2 : Live} {saved : Bool}
    (hf : t.fault = none) (hl : t.live line = some ⟨(restore saved l1).toChannel, l1.regs⟩) (hs : l1.Sound b)
    (hd : drainBody l1 = .done l2) :
    exec (.drain line) t =
      .next ((t.setChannel line (restore saved l2).toChannel).respond (some (mkResponse .drain line 0 []))) := by
  obtain ⟨m, hm, hrec⟩ := drainBody_resuspended hs hd saved
  have hb : bodyOf t.build (.drain line) ⟨(restore saved l1).toChannel, l1.regs⟩ =
      .done (restore saved m, some (mkResponse .drain line 0 [])) :=
    suspended_eq_done.mpr ⟨m, by rw [drainStep, ← resuspended, hm, Res.bind_done], rfl⟩
  rw [← hrec]
  exact exec_of_done (i := .drain line) (by simp) hf hl hb

/-- SEND is its WRITE and then its DRAIN (R106). -/
theorem execAll_pseudoSend {s u v : State} {line : Line} {data : List Byte} (hu : exec (.write line data) s = .next u)
    (hv : exec (.drain line) u = .next v) : execAll (pseudoSend line data) s = .next v := by
  simp only [pseudoSend, execAll, hu, hv]

/-- Settles O31: the body with AUTO_DRAIN is the push, then the drain body; DRAIN runs the same drain body after it. -/
theorem autoDrainWriteIsWriteThenDrain : Obligations.AutoDrainWriteIsWriteThenDrain := by
  unfold Obligations.AutoDrainWriteIsWriteThenDrain
  intro s line l data hf hauto hl hok
  obtain ⟨l1, r, hpush, h1⟩ := pushBody_completes .write line .tx data hok.sound.suspend
  obtain ⟨l2, hd, -⟩ := drainBody_completes h1
  have hwrite : bodyOf s.build (.write line data) l = .done (restore l.chan.lineEn l2, r) :=
    suspended_eq_done.mpr ⟨l2, by simp [writeBody, hpush, hauto, hd], rfl⟩
  have hplain : bodyOf s.withoutAutoDrain.build (.write line data) l = .done (restore l.chan.lineEn l1, r) :=
    suspended_eq_done.mpr ⟨l1, by simp [writeBody, hpush, State.withoutAutoDrain], rfl⟩
  have ht := exec_of_done (i := .write line data) (by simp) hf hl hwrite
  have hu := exec_of_done (s := s.withoutAutoDrain) (i := .write line data) (by simp) hf hl hplain
  have hv := exec_drain_restored
    (t := (s.withoutAutoDrain.setChannel line (restore l.chan.lineEn l1).toChannel).respond r)
    hf (State.live_setChannel_toChannel _ (State.live_lt hl)) h1 hd
  refine ⟨_, _, _, ht, hf, hu, execAll_pseudoSend hu hv, ?_, hf, rfl, rfl, rfl⟩
  simp [State.withoutAutoDrain]

end Sys2Proof.Machine
end

section
/-! PROOFS. The ring buffer laws (R134, R138, R140, R153 to R155): what a push appends and which slots it writes, what a
pop takes, and FIFO order over every sequence of both. -/

namespace Sys2Proof.Machine

open Sys2Proof

variable {N : Nat} {rb : RingBuffer} {cs : List Byte}

/-! ### Push -/

/-- A push appends as many of the bytes as it accepts (R134). -/
theorem rbPush_appends (h : rb.Ok N) (hc : rb.contents N = some cs) (data : List Byte) :
    (rbPush N rb data).2.contents N = some (cs ++ data.take (min data.length (N - rb.count))) := by
  rw [rbPush_contents h hc, RingBuffer.contents_length hc, List.take_eq_take_min, Nat.min_comm]

/-- The slots from head on hold the accepted bytes after a push (R134). -/
theorem rbPush_read_head_add (N : Nat) (rb : RingBuffer) (data : List Byte) {i : Nat} (hi : i < (rbPush N rb data).1) :
    (rbPush N rb data).2.store.read ((rb.head + i) % N) = data[i]? := by
  rw [rbPush_k] at hi
  rw [rbPush_store, read_writeSlots (by simp) (by simp; omega), List.getElem?_take_of_lt hi]

/-- A push leaves every slot but those it fills (R138). -/
theorem rbPush_read_of_ne (N : Nat) (rb : RingBuffer) (data : List Byte) {a : Nat}
    (ha : ∀ i < (rbPush N rb data).1, a ≠ (rb.head + i) % N) :
    (rbPush N rb data).2.store.read a = rb.store.read a := by
  rw [rbPush_store]
  refine read_writeSlots_of_ne fun i hi => (ha i ?_).symm
  rw [List.length_take] at hi
  rw [rbPush_k]
  omega

/-- Settles O21. -/
theorem pushAppendsWhatFits : Obligations.PushAppendsWhatFits := by
  unfold Obligations.PushAppendsWhatFits
  intro N rb cs data h hc
  exact ⟨rfl, rbPush_appends h hc data, rfl, rfl, rfl, fun _ => rbPush_read_head_add N rb data, h.push data⟩

/-- Settles O22: the accepted bytes fit in the free slots, which are those after the contents. -/
theorem pushNeverOverwritesUnread : Obligations.PushNeverOverwritesUnread := by
  unfold Obligations.PushNeverOverwritesUnread
  intro N rb data h
  refine ⟨fun i hi j hj => h.free_slot_ne ?_ hj, fun _ => rbPush_read_head_add N rb data,
    fun _ => rbPush_read_of_ne N rb data⟩
  rw [rbPush_k] at hi
  omega

/-! ### Pop -/

/-- Settles O23: a pop of more than the buffer holds takes what it holds. -/
theorem popTakesTheOldest : Obligations.PopTakesTheOldest := by
  unfold Obligations.PopTakesTheOldest
  intro N rb cs max hc
  have hdrop : cs.drop (min max rb.count) = cs.drop max := by
    rw [← RingBuffer.contents_length hc, ← List.drop_eq_drop_min]
  exact ⟨_, rbPop_of_contents hc max, rfl, hdrop ▸ RingBuffer.contents_pop hc (Nat.min_le_right _ _),
    fun h => h.pop (Nat.min_le_right _ _)⟩

/-! ### An empty buffer -/

/-- An empty buffer's contents. -/
theorem RingBuffer.contents_of_empty (N : Nat) (h0 : rb.count = 0) : rb.contents N = some [] := by
  rw [RingBuffer.contents, h0, readSlots_zero]

/-- Settles O25: the pushed bytes are all of the contents, which the pop takes whole. -/
theorem pushThenPopRoundTrip : Obligations.PushThenPopRoundTrip := by
  unfold Obligations.PushThenPopRoundTrip
  intro N rb b max h h0 hfit hmax
  have hk : min b.length (N - rb.count) = b.length := by omega
  have hcount : (rbPush N rb b).2.count = b.length := by rw [rbPush_count, hk, h0, Nat.zero_add]
  have hc : (rbPush N rb b).2.contents N = some b := by
    rw [rbPush_appends h (RingBuffer.contents_of_empty N h0), hk, List.take_length, List.nil_append]
  have hall : min max b.length = b.length := by omega
  have hpop := rbPop_of_contents hc max
  rw [hcount, hall, List.take_of_length_le (by omega), Nat.sub_self] at hpop
  exact ⟨_, hpop, rfl, hk⟩

/-- Settles O26: an empty buffer has N slots free, and a pop of it moves nothing. -/
theorem overflowTruncatesAndEmptyPopsAreIdle : Obligations.OverflowTruncatesAndEmptyPopsAreIdle := by
  unfold Obligations.OverflowTruncatesAndEmptyPopsAreIdle
  refine ⟨fun N rb data h h0 hover => ?_, fun N rb max h h0 => ?_⟩
  · have hk : min data.length (N - rb.count) = N := by omega
    refine ⟨hk, ?_, ?_⟩
    · rw [RingBuffer.isFull, rbPush_count, hk, h0, Nat.zero_add, beq_self_eq_true]
    · rw [rbPush_appends h (RingBuffer.contents_of_empty N h0), hk, List.nil_append]
  · have hsame : { rb with count := 0 } = rb := by rw [← h0]
    have hpop := rbPop_of_contents (RingBuffer.contents_of_empty N h0) max
    rw [h0, Nat.min_zero, Nat.add_zero, Nat.mod_eq_of_lt h.tail_lt, List.take_nil] at hpop
    rw [hpop, Nat.sub_zero, hsame]

/-! ### FIFO order -/

/-- A run of ring operations from a buffer that held `cs` is in order so far: the bytes popped and those still held are
`cs` and the bytes accepted (R153). -/
def RingRun.InOrder (N : Nat) (cs : List Byte) (x : RingRun) : Prop :=
  x.rb.Ok N ∧ ∃ held, x.rb.contents N = some held ∧ x.popped ++ held = cs ++ x.accepted

/-- A push appends to the bytes held what it appends to those accepted. -/
theorem RingRun.InOrder.push {x : RingRun} (h : x.InOrder N cs) (data : List Byte) :
    RingRun.InOrder N cs
      { x with accepted := x.accepted ++ data.take (rbPush N x.rb data).1, rb := (rbPush N x.rb data).2 } := by
  obtain ⟨hok, held, hc, horder⟩ := h
  refine ⟨hok.push data, _, rbPush_appends hok hc data, ?_⟩
  simp only [rbPush_k, ← List.append_assoc, horder]

/-- A pop completes, and moves bytes from the front of those held to the end of those popped. -/
theorem RingRun.InOrder.pop {x : RingRun} (h : x.InOrder N cs) (max : Nat) :
    ∃ p, rbPop N x.rb max = .done p ∧
      RingRun.InOrder N cs { x with popped := x.popped ++ p.out, rb := p.rb } := by
  obtain ⟨hok, held, hc, horder⟩ := h
  obtain ⟨rb', hpop, -, hc', hok'⟩ := popTakesTheOldest N x.rb held max hc
  refine ⟨_, hpop, hok' hok, _, hc', ?_⟩
  rw [List.append_assoc, List.take_append_drop, horder]

/-- Every sequence of ring operations completes, and keeps the order (R153). -/
theorem ringRun_inOrder (ops : List RingOp) {x : RingRun} (h : x.InOrder N cs) :
    ∃ y, ringRun N ops x = .done y ∧ y.InOrder N cs := by
  induction ops generalizing x with
  | nil => exact ⟨x, rfl, h⟩
  | cons op ops ih =>
    cases op with
    | push data => exact ih (h.push data)
    | pop max =>
      obtain ⟨p, hpop, hp⟩ := h.pop max
      rw [ringRun, hpop, Res.bind_done]
      exact ih hp

/-- Settles O27: before the first operation nothing is popped or accepted, and each operation keeps the order. -/
theorem ringBufferIsFifo : Obligations.RingBufferIsFifo := by
  unfold Obligations.RingBufferIsFifo
  intro N rb cs ops hok hc
  have hstart : RingRun.InOrder N cs ⟨[], [], rb⟩ := ⟨hok, cs, hc, (List.append_nil cs).symm⟩
  obtain ⟨x, hrun, hok', cs', hc', horder⟩ := ringRun_inOrder ops hstart
  exact ⟨x, cs', hrun, hok', hc', horder⟩

end Sys2Proof.Machine
end

section
/-! PROOFS. The leaf micro-operations and WRITE without AUTO_DRAIN: their result on the line (R134, R140, R150, R152,
R180), the wrong role (R131), and the rows of R251 that each fault of a step is one of. -/

namespace Sys2Proof.Machine

open Sys2Proof
open Sys2Proof.Config (Build)

variable {b : Build} {i : Instr} {s t : State} {line : Line} {l : Live} {buf : Buf} {cs : List Byte}

/-! ### Pushes -/

/-- The push of a body appends the bytes that fit, fills the slots from head on and no others, and answers their count
(R134). -/
theorem pushBody_appends (hok : (l.regs.ring buf).Ok (l.chan.capacity buf))
    (hc : (l.regs.ring buf).contents (l.chan.capacity buf) = some cs) (o : Op) (line : Line) (data : List Byte) :
    ∃ rb k, k = min data.length (l.chan.capacity buf - cs.length) ∧
      pushBody o line buf data l = .done (l.setRing buf rb, some (mkResponse o line k [])) ∧
      rb.contents (l.chan.capacity buf) = some (cs ++ data.take k) ∧ rb.tail = (l.regs.ring buf).tail ∧
      rb.head = ((l.regs.ring buf).head + k) % l.chan.capacity buf ∧ rb.count = (l.regs.ring buf).count + k ∧
      ∀ a : Nat, (∀ i < k, a ≠ ((l.regs.ring buf).head + i) % l.chan.capacity buf) →
        rb.store.read a = (l.regs.ring buf).store.read a := by
  rw [RingBuffer.contents_length hc]
  exact ⟨_, _, rfl, rfl, rbPush_appends hok hc data, rfl, rfl, rfl, fun _ => rbPush_read_of_ne _ _ data⟩

/-- Without AUTO_DRAIN the body of WRITE is its push (R180). -/
theorem writeBody_false (line : Line) (data : List Byte) (l : Live) :
    writeBody false line data l = pushBody .write line .tx data l := rfl

/-- Settles O30: the suspended push on the transmit buffer. -/
theorem writeQueuesWhatFits : Obligations.WriteQueuesWhatFits := by
  unfold Obligations.WriteQueuesWhatFits
  intro s line l cs data hf hauto hl hok hc
  obtain ⟨tx', k, hk, hpush, hrest⟩ := pushBody_appends (l := (suspend l).2) (buf := .tx) hok hc .write line data
  have hb : bodyOf s.build (.write line data) l = .done (l.setRing .tx tx', some (mkResponse .write line k [])) :=
    suspended_eq_done.mpr ⟨_, by rw [hauto, writeBody_false, hpush], rfl⟩
  exact ⟨tx', k, hk, exec_of_done (i := .write line data) (by simp) hf hl hb, hrest⟩

/-- Settles O34: the push on the one buffer each may fill, suspended for RB_PUSH_P. -/
theorem leafPushAppendsWhatFits : Obligations.LeafPushAppendsWhatFits := by
  unfold Obligations.LeafPushAppendsWhatFits
  intro s line l cs data hf hl
  refine ⟨fun hok hc => ?_, fun hok hc => ?_⟩
  · obtain ⟨tx', k, hk, hpush, hrest⟩ :=
      pushBody_appends (l := (suspend l).2) (buf := .tx) hok hc .rbPushP line data
    have hb : bodyOf s.build (.rbPushP line .tx data) l =
        .done (l.setRing .tx tx', some (mkResponse .rbPushP line k [])) := suspended_eq_done.mpr ⟨_, hpush, rfl⟩
    exact ⟨tx', k, hk, exec_of_done (i := .rbPushP line .tx data) (by simp) hf hl hb, hrest⟩
  · obtain ⟨rx', k, hk, hpush, hrest⟩ := pushBody_appends (l := l) (buf := .rx) hok hc .rbPushU line data
    exact ⟨rx', k, hk, exec_of_done (i := .rbPushU line .rx data) (by simp) hf hl hpush, hrest⟩

/-! ### Pops -/

/-- The pop of a body takes the oldest bytes out and answers them (R140). -/
theorem popBody_takes (hc : (l.regs.ring buf).contents (l.chan.capacity buf) = some cs) (o : Op) (line : Line)
    (max : Nat) :
    ∃ rb, popBody o line buf max l =
        .done (l.setRing buf rb, some (mkResponse o line (min max cs.length) (cs.take max))) ∧
      rb = { l.regs.ring buf with
        tail := ((l.regs.ring buf).tail + min max cs.length) % l.chan.capacity buf
        count := cs.length - min max cs.length } ∧
      rb.contents (l.chan.capacity buf) = some (cs.drop max) := by
  obtain ⟨rb, hpop, hrb, hc', -⟩ := popTakesTheOldest _ _ cs max hc
  rw [RingBuffer.contents_length hc]
  exact ⟨rb, by rw [popBody, hpop, Res.bind_done], hrb, hc'⟩

/-- Settles O35: the pop on the one buffer each may empty, suspended for RB_POP_P. -/
theorem leafPopTakesTheOldest : Obligations.LeafPopTakesTheOldest := by
  unfold Obligations.LeafPopTakesTheOldest
  intro s line l cs max hf hl
  refine ⟨fun hc => ?_, fun hc => ?_⟩
  · obtain ⟨rx', hpop, hrest⟩ := popBody_takes (l := (suspend l).2) (buf := .rx) hc .rbPopP line max.toNat
    have hb : bodyOf s.build (.rbPopP line .rx max) l = .done (l.setRing .rx rx', _) :=
      suspended_eq_done.mpr ⟨_, hpop, rfl⟩
    exact ⟨rx', exec_of_done (i := .rbPopP line .rx max) (by simp) hf hl hb, hrest⟩
  · obtain ⟨tx', hpop, hrest⟩ := popBody_takes (l := l) (buf := .tx) hc .rbPopU line max.toNat
    exact ⟨tx', exec_of_done (i := .rbPopU line .tx max) (by simp) hf hl hpop, hrest⟩

/-! ### The wrong role and the queries -/

/-- Settles O17: each of the four bodies raises the violation before it does anything. -/
theorem wrongRoleFaults : Obligations.WrongRoleFaults := by
  unfold Obligations.WrongRoleFaults
  intro s line l hf hl
  refine ⟨fun data => ?_, fun max => ?_, fun data => ?_, fun max => ?_⟩
  · exact exec_of_raised (i := .rbPushP line .rx data) (by simp) hf hl rfl
  · exact exec_of_raised (i := .rbPopP line .tx max) (by simp) hf hl rfl
  · exact exec_of_raised (i := .rbPushU line .tx data) (by simp) hf hl rfl
  · exact exec_of_raised (i := .rbPopU line .rx max) (by simp) hf hl rfl

/-- A step without its line leaves what `absentOf` says. -/
theorem exec_of_absent (hc : i.op ≠ .configure) (hf : s.fault = none) (hl : s.live i.line = none) :
    exec i s = .next (absentOf i s) := by
  rw [exec_eq_onLine hc, onLine_absent hf hl]

/-- A step whose body only answers changes nothing but the responses. -/
theorem exec_of_answer {r : Option Response} (hc : i.op ≠ .configure) (hf : s.fault = none)
    (hl : s.live i.line = some l) (hb : bodyOf s.build i l = .done (l, r)) : exec i s = .next (s.respond r) := by
  rw [exec_of_done hc hf hl hb, State.setChannel_live_self hl]

/-- The answer of RB_IS_EMPTY (R28, R150). -/
theorem flagValue_isEmpty (rb : RingBuffer) : flagValue rb.isEmpty = if rb.count = 0 then 1 else 0 := by
  simp [flagValue, RingBuffer.isEmpty]

/-- The answer of RB_IS_FULL (R28, R152). -/
theorem flagValue_isFull (N : Nat) (rb : RingBuffer) : flagValue (rb.isFull N) = if rb.count = N then 1 else 0 := by
  simp [flagValue, RingBuffer.isFull]

/-- Settles O36: the two bodies only answer. -/
theorem queriesAnswerAndChangeNothing : Obligations.QueriesAnswerAndChangeNothing := by
  unfold Obligations.QueriesAnswerAndChangeNothing
  intro s line b hf
  refine ⟨fun l hl => ?_, fun hl => ⟨?_, ?_⟩⟩
  · rw [← flagValue_isEmpty, ← flagValue_isFull]
    exact ⟨exec_of_answer (i := .rbIsEmpty line b) (by simp) hf hl rfl,
      exec_of_answer (i := .rbIsFull line b) (by simp) hf hl rfl⟩
  · exact exec_of_absent (i := .rbIsEmpty line b) (by simp) hf hl
  · exact exec_of_absent (i := .rbIsFull line b) (by simp) hf hl

/-! ### The handler -/

/-- Settles O20: an entry that is not requested changes nothing, and a requested one finds a sound line. -/
theorem handlerNeverFails : Obligations.HandlerNeverFails := by
  unfold Obligations.HandlerNeverFails
  intro s line hs hf
  cases hreq : s.irqReq line with
  | false => exact ⟨s, exec_evIrq_unrequested hf hreq, hf⟩
  | true =>
    obtain ⟨l, hl, hreq⟩ := (Option.any_eq_true _ _).mp hreq
    obtain ⟨l', hh, -⟩ := handler_completes (hs.live_ok hl).sound
    have hb : bodyOf s.build (.evIrq line) l = .done (l', none) := by simp [bodyOf, hreq, hh]
    exact ⟨_, exec_of_done (i := .evIrq line) (by simp) hf hl hb, hf⟩

/-! ### The faults of a body -/

/-- The instruction is a leaf micro-operation on the buffer it may not use, with its violation's info (R131, R251). -/
def WrongRole (i : Instr) (n : BitVec 16) : Prop :=
  (∃ data, i = .rbPushP i.line .rx data ∧ n = 0x0080) ∨ (∃ max, i = .rbPopP i.line .tx max ∧ n = 0x0091) ∨
    (∃ data, i = .rbPushU i.line .tx data ∧ n = 0x00A1) ∨ (∃ max, i = .rbPopU i.line .rx max ∧ n = 0x00B0)

/-- The instruction writes the oldest byte of the transmit buffer, for a WRITE of the buffer after its push, to a busy
transmitter, with that byte as info (R43, R251). -/
def Overruns (b : Build) (i : Instr) (l : Live) (n : BitVec 16) : Prop :=
  ∃ (tx : RingBuffer) (v : Byte), l.regs.txBusy = true ∧ 0 < tx.count ∧
    tx.store.read (tx.tail % l.chan.caps.tx) = some v ∧ n = v.setWidth 16 ∧
    ((i = .drain i.line ∧ l.chan.txArmed = false ∧ tx = l.regs.tx) ∨
      (∃ data, i = .write i.line data ∧ b.autoDrain = true ∧ l.chan.txArmed = false ∧
        tx = (rbPush l.chan.caps.tx l.regs.tx data).2) ∨
      (i = .evIrq i.line ∧ l.irqReq = true ∧ l.txCond = true ∧ tx = l.regs.tx))

/-- The body of DRAIN overruns where its drain body does. -/
theorem drain_overruns {k : FaultKind} {n : BitVec 16} (h : bodyOf b (.drain line) l = .raised k n) :
    k = .txOverrun ∧ Overruns b (.drain line) l n := by
  obtain hd | ⟨_, -, hd⟩ := Res.bind_eq_raised.mp (suspended_eq_raised.mp h)
  · obtain ⟨harmed, hbusy, hcount, v, hv, hk, hn⟩ := drainBody_eq_raised.mp hd
    exact ⟨hk, _, v, hbusy, hcount, hv, hn, .inl ⟨rfl, harmed, rfl⟩⟩
  · cases hd

/-- The body of WRITE overruns where its drain body after the push does. -/
theorem write_overruns {data : List Byte} {k : FaultKind} {n : BitVec 16}
    (h : bodyOf b (.write line data) l = .raised k n) : k = .txOverrun ∧ Overruns b (.write line data) l n := by
  obtain ⟨hauto, hd⟩ := writeBody_eq_raised.mp (suspended_eq_raised.mp h)
  obtain ⟨harmed, hbusy, hcount, v, hv, hk, hn⟩ := drainBody_eq_raised.mp hd
  exact ⟨hk, _, v, hbusy, hcount, hv, hn, .inr (.inl ⟨data, rfl, hauto, harmed, rfl⟩)⟩

/-- A requested handler overruns in its transmit branch. -/
theorem evIrq_overruns {k : FaultKind} {n : BitVec 16} (h : bodyOf b (.evIrq line) l = .raised k n) :
    k = .txOverrun ∧ Overruns b (.evIrq line) l n := by
  obtain hrun | ⟨_, -, hrun⟩ := Res.bind_eq_raised.mp h
  · split at hrun
    · next hreq =>
      obtain ⟨hcond, hbusy, hcount, v, hv, hk, hn⟩ := handler_eq_raised.mp hrun
      exact ⟨hk, _, v, hbusy, hcount, hv, hn, .inr (.inr ⟨rfl, hreq, hcond, rfl⟩)⟩
    · cases hrun
  · cases hrun

/-- A body raises ROLE_VIOLATION for a wrong role, or TX_OVERRUN for a busy transmitter, and nothing else. -/
theorem bodyOf_raised {k : FaultKind} {n : BitVec 16} (h : bodyOf b i l = .raised k n) :
    (k = .roleViolation ∧ WrongRole i n) ∨ (k = .txOverrun ∧ Overruns b i l n) := by
  cases i with
  | configure => cases h
  | readAvailable => exact absurd (suspended_eq_raised.mp h) popBody_ne_raised
  | write => exact .inr (write_overruns h)
  | drain => exact .inr (drain_overruns h)
  | rbIsEmpty => cases h
  | rbIsFull => cases h
  | rbPushP line buf data =>
    cases buf with
    | rx => cases h; exact .inl ⟨rfl, .inl ⟨data, rfl, rfl⟩⟩
    | tx => cases h
  | rbPopP line buf max =>
    cases buf with
    | rx => exact absurd (suspended_eq_raised.mp h) popBody_ne_raised
    | tx => cases h; exact .inl ⟨rfl, .inr (.inl ⟨max, rfl, rfl⟩)⟩
  | rbPushU line buf data =>
    cases buf with
    | rx => cases h
    | tx => cases h; exact .inl ⟨rfl, .inr (.inr (.inl ⟨data, rfl, rfl⟩))⟩
  | rbPopU line buf max =>
    cases buf with
    | rx => cases h; exact .inl ⟨rfl, .inr (.inr (.inr ⟨max, rfl, rfl⟩))⟩
    | tx => exact absurd h popBody_ne_raised
  | evIrq => exact .inr (evIrq_overruns h)
  | evRx =>
    obtain hrun | ⟨_, -, hrun⟩ := Res.bind_eq_raised.mp h
    · split at hrun <;> cases hrun
    · cases hrun
  | evTxDone =>
    obtain hrun | ⟨_, -, hrun⟩ := Res.bind_eq_raised.mp h
    · split at hrun <;> cases hrun
    · cases hrun

/-! ### The faults of a step -/

/-- A line whose record is configured is live. -/
theorem State.live_isSome {c : Channel} (hch : s.ch[line.toNat]? = some c) (hc : c.configured = true) :
    (s.live line).isSome = true := by
  obtain ⟨r, hr⟩ := Option.isSome_iff_exists.mp hc
  exact Option.isSome_iff_exists.mpr ⟨⟨c, r⟩, State.live_eq_some.mpr ⟨hch, hr⟩⟩

/-- CONFIGURE faults on a line the build does not have, or on a configured one (R173, R174). -/
theorem execConfigure_faults {x y : Byte} {r : FaultRecord} (h : execConfigure line x y s = .next t)
    (hr : t.fault = some r) :
    (s.numLines ≤ line.toNat ∧ r = ⟨.configError, line, 0⟩) ∨
      ((s.live line).isSome = true ∧ r = ⟨.reconfigure, line, 0⟩) := by
  obtain ⟨hf, ⟨hch, rfl⟩ | ⟨c, hch, ⟨hc, rfl⟩ | ⟨-, rfl⟩⟩⟩ := execConfigure_next h
  · cases hr; exact .inl ⟨List.getElem?_eq_none_iff.mp hch, rfl⟩
  · cases hr; exact .inr ⟨State.live_isSome hch hc, rfl⟩
  · exact absurd (hf.symm.trans hr) nofun

/-- Any other step faults without its line, where it is no event, or as its body does (R130, R170, R250). -/
theorem exec_faults {r : FaultRecord} (hc : i.op ≠ .configure) (h : exec i s = .next t) (hr : t.fault = some r) :
    (s.live i.line = none ∧ i.op.port ≠ .event ∧ r = ⟨.notConfigured, i.line, i.op.code.setWidth 16⟩) ∨
      ∃ l k n, s.live i.line = some l ∧ bodyOf s.build i l = .raised k n ∧ r = ⟨k, i.line, n⟩ := by
  rw [exec_eq_onLine hc] at h
  obtain ⟨hf, ⟨hl, rfl⟩ | ⟨l, hl, ⟨_, _, -, rfl⟩ | ⟨k, n, hb, rfl⟩⟩⟩ := onLine_next h
  · unfold absentOf at hr
    split at hr
    · exact absurd (hf.symm.trans hr) nofun
    · next hport => cases hr; exact .inl ⟨hl, hport, rfl⟩
  · exact absurd (hf.symm.trans hr) nofun
  · cases hr; exact .inr ⟨l, k, n, hl, hb, rfl⟩

/-- Settles O14: the faults of CONFIGURE, of a step without its line, and of the bodies are the rows of R251. -/
theorem faultsAreThoseOfTheTable : Obligations.FaultsAreThoseOfTheTable := by
  unfold Obligations.FaultsAreThoseOfTheTable
  refine ⟨⟨rfl, rfl, rfl, rfl, rfl, rfl⟩, fun i s t r h hr => ?_⟩
  by_cases hc : i.op = .configure
  · obtain ⟨line, x, y, rfl, he⟩ := exec_of_configure hc
    obtain ⟨hrange, rfl⟩ | ⟨hlive, rfl⟩ := execConfigure_faults ((he s).symm.trans h) hr
    · exact ⟨rfl, .inl ⟨rfl, rfl, hrange, rfl⟩⟩
    · exact ⟨rfl, .inr (.inl ⟨rfl, rfl, hlive, rfl⟩)⟩
  · obtain ⟨hl, hport, rfl⟩ | ⟨l, k, n, hl, hb, rfl⟩ := exec_faults hc h hr
    · exact ⟨rfl, .inr (.inr (.inl ⟨rfl, hc, hport, hl, rfl⟩))⟩
    · refine ⟨rfl, .inr (.inr (.inr ?_))⟩
      obtain ⟨rfl, hrole⟩ | ⟨rfl, tx, v, hover⟩ := bodyOf_raised hb
      · exact .inl ⟨rfl, by rw [hl, Option.isSome_some], hrole⟩
      · exact .inr ⟨rfl, l, tx, v, hl, hover⟩

end Sys2Proof.Machine
end

section
/-! PROOFS. The channel commands (R170 to R187): CONFIGURE, READ_AVAILABLE, a DRAIN with nothing to start, commands without
their line, and the whole queue that DRAIN and its interrupts send. -/

namespace Sys2Proof.Machine

open Sys2Proof

variable {i : Instr} {s t : State} {line : Line} {l l' : Live} {out cs vs : List Byte} {v : Byte} {st : TxState}

/-! ### A line that sends its queue -/

/-- A line is in a transmit state when each of its three flags is that state's (R38). -/
theorem Live.txState_iff_flags : l.txState = some st ↔
    l.chan.txArmed = st.flags.1 ∧ l.regs.txBusy = st.flags.2.1 ∧ l.regs.txDonePend = st.flags.2.2 := by
  rw [Live.txState_eq_some, Prod.ext_iff, Prod.ext_iff]

/-- A line with its interrupt line enabled, in the transmit state `st`, that has sent `out` and has `cs` queued. -/
structure Live.Sends (out cs : List Byte) (st : TxState) (l : Live) : Prop where
  enabled : l.chan.lineEn = true
  state : l.txState = some st
  sent : l.chan.lineOut = out
  queued : l.regs.tx.contents l.chan.caps.tx = some cs

/-- A running block whose line is configured and is as `Live.Sends` says. -/
def State.Sends (line : Line) (out cs : List Byte) (st : TxState) (s : State) : Prop :=
  s.fault = none ∧ ∃ l, s.live line = some l ∧ l.Sends out cs st

/-- A step that wrote its line's record leaves the block as that record says. -/
theorem State.sends_after (hf : s.fault = none) (hl : s.live line = some l) (h : l'.Sends out cs st)
    (r : Option Response) : ((s.setChannel line l'.toChannel).respond r).Sends line out cs st := by
  obtain ⟨henabled, hstate, hsent, hqueued⟩ := h
  exact ⟨hf, ⟨l'.toChannel, l'.regs⟩, by rw [State.live_after hl, if_pos rfl], henabled, hstate, hsent, hqueued⟩

/-! ### The handler of such a line -/

/-- The transmit branch of an ARMED-READY line with nothing queued takes it to IDLE (R214). -/
theorem Live.Sends.txBranch_disarms (h : l.Sends out [] .armedReady) :
    ∃ l', txBranch l = .done l' ∧ l'.Sends out [] .idle := by
  obtain ⟨-, hbusy, -⟩ := Live.txState_iff_flags.mp h.state
  have hcount : l.regs.tx.count = 0 := (RingBuffer.contents_length h.queued).symm
  rw [txBranch, rbPop_of_contents h.queued]
  exact ⟨_, rfl, h.enabled, Live.txState_iff_flags.mpr ⟨rfl, hbusy, rfl⟩, h.sent,
    RingBuffer.contents_of_empty _ (by simp [hcount])⟩

/-- The transmit branch of an ARMED-READY line with bytes queued sends the oldest (R214). -/
theorem Live.Sends.txBranch_sends (h : l.Sends out (v :: vs) .armedReady) :
    ∃ l', txBranch l = .done l' ∧ l'.Sends (out ++ [v]) vs .armedBusy := by
  obtain ⟨harmed, hbusy, -⟩ := Live.txState_iff_flags.mp h.state
  obtain ⟨hcount, -⟩ := RingBuffer.contents_cons h.queued
  have hone : min 1 l.regs.tx.count = 1 := by omega
  rw [txBranch, rbPop_of_contents h.queued, hone]
  exact ⟨_, hwWrite_eq_done.mpr ⟨hbusy, rfl⟩, h.enabled, Live.txState_iff_flags.mpr ⟨harmed, rfl, rfl⟩,
    congrArg (· ++ [v]) h.sent, RingBuffer.contents_pop h.queued (hcount ▸ Nat.le_add_left 1 _)⟩

/-- The handler's receive branch, where it runs, leaves the line sending as it was. -/
theorem Live.Sends.rxPart (h : l.Sends out cs st) : (if l.rxCond then rxBranch l else l).Sends out cs st := by
  obtain ⟨hk, htx, hbusy, hpend, harmed, hout⟩ := rxBranch_kept l
  split
  · exact ⟨hk.lineEn.trans h.enabled, (Live.txState_congr harmed hbusy hpend).trans h.state, hout.trans h.sent,
      by rw [htx, hk.caps, h.queued]⟩
  · exact h

/-! ### The steps of such a line -/

/-- DRAIN of an IDLE line with bytes queued sends the oldest (R186). -/
theorem State.Sends.drain (h : s.Sends line out (v :: vs) .idle) :
    ∃ t, exec (.drain line) s = .next t ∧ t.Sends line (out ++ [v]) vs .armedBusy := by
  obtain ⟨hf, l, hl, henabled, hstate, hsent, hqueued⟩ := h
  obtain ⟨harmed, hbusy, hpend⟩ := Live.txState_iff_flags.mp hstate
  obtain ⟨tx', hexec, -, hc⟩ := drainKicksOneByte s line l v vs hf hl harmed hbusy hqueued
  have hsends : Live.Sends (out ++ [v]) vs .armedBusy
      ⟨{ l.chan with txArmed := true, lineOut := l.chan.lineOut ++ [v] }, { l.regs with tx := tx', txBusy := true }⟩ :=
    ⟨henabled, Live.txState_iff_flags.mpr ⟨rfl, rfl, hpend⟩, congrArg (· ++ [v]) hsent, hc⟩
  exact ⟨_, hexec, State.sends_after hf hl hsends _⟩

/-- EV_TX_DONE of an ARMED-BUSY line ends the byte in flight (R222). -/
theorem State.Sends.txDone (h : s.Sends line out cs .armedBusy) :
    ∃ t, exec (.evTxDone line) s = .next t ∧ t.Sends line out cs .armedReady := by
  obtain ⟨hf, l, hl, henabled, hstate, hsent, hqueued⟩ := h
  obtain ⟨harmed, hbusy, -⟩ := Live.txState_iff_flags.mp hstate
  have hsends : Live.Sends out cs .armedReady { l with regs := { l.regs with txBusy := false, txDonePend := true } } :=
    ⟨henabled, Live.txState_iff_flags.mpr ⟨harmed, rfl, rfl⟩, hsent, hqueued⟩
  have hb : bodyOf s.build (.evTxDone line) l =
      .done ({ l with regs := { l.regs with txBusy := false, txDonePend := true } }, none) := by
    rw [TxState.flags] at hbusy
    rw [bodyOf, if_pos hbusy, Res.bind_done]
  exact ⟨_, exec_of_done (i := .evTxDone line) (by simp) hf hl hb, State.sends_after hf hl hsends _⟩

/-- EV_IRQ of an ARMED-READY line does what its transmit branch does, for the transmit-ready condition requests it
(R36, R210, R211). -/
theorem State.Sends.irq {out' cs' : List Byte} {st' : TxState} (h : s.Sends line out cs .armedReady)
    (hbranch : ∀ l : Live, l.Sends out cs .armedReady → ∃ l', txBranch l = .done l' ∧ l'.Sends out' cs' st') :
    ∃ t, exec (.evIrq line) s = .next t ∧ t.Sends line out' cs' st' := by
  obtain ⟨hf, l, hl, hsends⟩ := h
  obtain ⟨l', hl', hsends'⟩ := hbranch _ hsends.rxPart
  have hcond : l.txCond = true := (Live.txCond_iff_ready hsends.state).mpr rfl
  have hreq : l.irqReq = true := by rw [Live.irqReq, hsends.enabled, hcond, Bool.or_true, Bool.and_true]
  have hb : bodyOf s.build (.evIrq line) l = .done (l', none) := by
    rw [bodyOf, if_pos hreq, handler, if_pos hcond, hl', Res.bind_done]
  exact ⟨_, exec_of_done (i := .evIrq line) (by simp) hf hl hb, State.sends_after hf hl hsends' _⟩

/-- A run begins with its first step. -/
theorem execAll_cons_of_next {is : List Instr} (h : exec i s = .next t) : execAll (i :: is) s = execAll is t := by
  rw [execAll, h]

/-- By induction on the bytes queued: one completion and handler entry for the byte in flight and for each queued one send
them all and take the line to IDLE (R214, R222). -/
theorem State.Sends.rounds (h : s.Sends line out cs .armedBusy) :
    ∃ t, execAll (List.replicate (cs.length + 1) [Instr.evTxDone line, .evIrq line]).flatten s = .next t ∧
      t.Sends line (out ++ cs) [] .idle := by
  induction cs generalizing s out with
  | nil =>
    obtain ⟨u, hu, hready⟩ := h.txDone
    obtain ⟨t, ht, hidle⟩ := hready.irq fun _ => Live.Sends.txBranch_disarms
    exact ⟨t, (execAll_cons_of_next hu).trans (execAll_cons_of_next ht), by rwa [List.append_nil]⟩
  | cons v vs ih =>
    obtain ⟨u, hu, hready⟩ := h.txDone
    obtain ⟨w, hw, hbusy⟩ := hready.irq fun _ => Live.Sends.txBranch_sends
    obtain ⟨t, ht, hidle⟩ := ih hbusy
    exact ⟨t, (execAll_cons_of_next hu).trans ((execAll_cons_of_next hw).trans ht), by rwa [List.append_cons]⟩

/-- Settles O56: DRAIN sends the oldest byte, and each round of completion and handler entry the next; the last disarms. -/
theorem drainThenInterruptsSendEverything : Obligations.DrainThenInterruptsSendEverything := by
  unfold Obligations.DrainThenInterruptsSendEverything
  intro s line cs hs hf hidle hc hne
  obtain ⟨l, hl, hst⟩ := State.live_of_txState hidle
  rw [State.txContents, hl] at hc
  obtain ⟨v, vs, rfl⟩ := List.exists_cons_of_ne_nil hne
  have hsends : s.Sends line (s.lineOut line) (v :: vs) .idle :=
    ⟨hf, l, hl, (hs.live_ok hl).lineEn, hst, (State.lineOut_of_live hl).symm, hc⟩
  obtain ⟨u, hu, hbusy⟩ := hsends.drain
  obtain ⟨t, ht, hft, l', hl', henabled, hstate, hsent, hqueued⟩ := hbusy.rounds
  refine ⟨t, (execAll_cons_of_next hu).trans ht, hft, ?_, ?_, ?_⟩
  · rw [State.txState, hl']; exact hstate
  · rw [State.txContents, hl']; exact hqueued
  · rw [State.lineOut_of_live hl', hsent, ← List.append_cons]

/-! ### The other commands -/

/-- Settles O29: the suspended pop of the receive buffer. -/
theorem readAvailableReturnsTheOldest : Obligations.ReadAvailableReturnsTheOldest := by
  unfold Obligations.ReadAvailableReturnsTheOldest
  intro s line max hf
  refine ⟨fun l cs hl hc => ?_, fun hl => exec_of_absent (i := .readAvailable line max) (by simp) hf hl⟩
  obtain ⟨rx', hpop, hrest⟩ := popBody_takes (l := (suspend l).2) (buf := .rx) hc .readAvailable line max.toNat
  have hb : bodyOf s.build (.readAvailable line max) l = .done (l.setRing .rx rx', _) :=
    suspended_eq_done.mpr ⟨_, hpop, rfl⟩
  exact ⟨rx', exec_of_done (i := .readAvailable line max) (by simp) hf hl hb, hrest⟩

/-- Settles O15: the check of the line comes first, and only an event passes it without one. -/
theorem unconfiguredLineFaults : Obligations.UnconfiguredLineFaults := by
  unfold Obligations.UnconfiguredLineFaults
  intro i s hc hi hf hl
  rw [exec_of_absent hc hf hl, absentOf, if_neg hi, State.raiseFault]

/-- Settles O28: the three outcomes of CONFIGURE, by whether the build has the line and whether it is configured. -/
theorem configureSetsUpALineOnce : Obligations.ConfigureSetsUpALineOnce := by
  unfold Obligations.ConfigureSetsUpALineOnce
  intro s line txPin rxPin hf
  refine ⟨fun c hch hregs => ?_, fun hrange => ?_, fun l hl => ?_⟩
  · exact execConfigure_sets_up hf hch (by rw [Channel.configured, hregs, Option.isSome_none]) txPin rxPin
  · exact execConfigure_out_of_range hf (List.getElem?_eq_none_iff.mpr hrange) txPin rxPin
  · obtain ⟨hch, hregs⟩ := State.live_eq_some.mp hl
    exact execConfigure_again hf hch (by rw [Channel.configured, hregs, Option.isSome_some]) txPin rxPin

/-- Settles O33: the drain body leaves the line, so the step only answers. -/
theorem drainOtherwiseDoesNothing : Obligations.DrainOtherwiseDoesNothing := by
  unfold Obligations.DrainOtherwiseDoesNothing
  intro s line l hf hl hidle
  have hdrain : drainBody (suspend l).2 = .done (suspend l).2 := drainBody_idle hidle
  have hb : bodyOf s.build (.drain line) l = .done (l, some (mkResponse .drain line 0 [])) :=
    suspended_eq_done.mpr ⟨(suspend l).2, by rw [drainStep, hdrain, Res.bind_done], rfl⟩
  exact exec_of_answer (i := .drain line) (by simp) hf hl hb

end Sys2Proof.Machine
end

section
/-! PROOFS. The events of 42_interrupt_events: a handler entry with the transmit event (R214) and with received bytes left
(R215), and the two UART events (R220, R222). -/

namespace Sys2Proof.Machine

open Sys2Proof

variable {i : Instr} {s : State} {line : Line} {l l' : Live} {cs : List Byte}

/-! ### The outcome of an event -/

/-- A step whose body completes without a response, as that of an event does (R100), writes its line's record alone. -/
theorem exec_of_silent (hc : i.op ≠ .configure) (hf : s.fault = none) (hl : s.live i.line = some l)
    (hb : bodyOf s.build i l = .done (l', none)) : exec i s = .next (s.setChannel i.line l'.toChannel) := by
  rw [exec_of_done hc hf hl hb, State.respond_none]

/-- A step whose body leaves its line and gives no response changes nothing. -/
theorem exec_of_unchanged (hc : i.op ≠ .configure) (hf : s.fault = none) (hl : s.live i.line = some l)
    (hb : bodyOf s.build i l = .done (l, none)) : exec i s = .next s := by
  rw [exec_of_answer hc hf hl hb, State.respond_none]

/-- An event without its line has no effect (R210, R220, R222). -/
theorem exec_event_of_absent (hi : i.op.port = .event) (hf : s.fault = none) (hl : s.live i.line = none) :
    exec i s = .next s := by
  have hc : i.op ≠ .configure := fun hop => by rw [hop] at hi; cases hi
  rw [exec_of_absent hc hf hl, absentOf, if_pos hi]

/-- A requested handler of a sound line completes, and its step writes the line it leaves (R210). -/
theorem exec_evIrq_requested (hf : s.fault = none) (hl : s.live line = some l) (hok : l.Ok s.build)
    (hreq : l.irqReq = true) :
    ∃ l', handler l = .done l' ∧ exec (.evIrq line) s = .next (s.setChannel line l'.toChannel) := by
  obtain ⟨l', hh, -⟩ := handler_completes hok.sound
  have hb : bodyOf s.build (.evIrq line) l = .done (l', none) := by rw [bodyOf, if_pos hreq, hh, Res.bind_done]
  exact ⟨l', hh, exec_of_silent (i := .evIrq line) (by simp) hf hl hb⟩

/-! ### The UART events -/

/-- Settles O43: the body of EV_RX asks whether the UART has room. -/
theorem receiveEventQueuesInTheUart : Obligations.ReceiveEventQueuesInTheUart := by
  unfold Obligations.ReceiveEventQueuesInTheUart
  intro s line err d hf
  refine ⟨fun l hl hroom => ?_, fun l hl hfull => ?_, fun hl => ?_⟩
  · exact exec_of_silent (i := .evRx line err d) (by simp) hf hl (by rw [bodyOf, if_pos hroom, Res.bind_done])
  · exact exec_of_unchanged (i := .evRx line err d) (by simp) hf hl
      (by rw [bodyOf, if_neg (Nat.not_lt.mpr hfull), Res.bind_done])
  · exact exec_event_of_absent (i := .evRx line err d) rfl hf hl

/-- Settles O44: the body of EV_TX_DONE asks whether a byte is in flight. -/
theorem transmitDoneLatchesTheEvent : Obligations.TransmitDoneLatchesTheEvent := by
  unfold Obligations.TransmitDoneLatchesTheEvent
  intro s line hf
  refine ⟨fun l hl hbusy => ?_, fun l hl hidle => ?_, fun hl => ?_⟩
  · exact exec_of_silent (i := .evTxDone line) (by simp) hf hl (by rw [bodyOf, if_pos hbusy, Res.bind_done])
  · exact exec_of_unchanged (i := .evTxDone line) (by simp) hf hl
      (by rw [bodyOf, if_neg (by simp [hidle]), Res.bind_done])
  · exact exec_event_of_absent (i := .evTxDone line) rfl hf hl

/-! ### The transmit event serviced -/

/-- `l'` is `l`, with the bytes `cs` queued, after its transmit event was serviced: the oldest byte is off the queue and on
the wire, and the line is busy and armed exactly where there was one (R214). -/
structure Live.Serviced (cs : List Byte) (l l' : Live) : Prop where
  pend : l'.regs.txDonePend = false
  tx : l'.regs.tx = { l.regs.tx with
    tail := (l.regs.tx.tail + min 1 cs.length) % l.chan.caps.tx
    count := l.regs.tx.count - min 1 cs.length }
  busy : l'.regs.txBusy = !cs.isEmpty
  armed : l'.chan.txArmed = !cs.isEmpty
  out : l'.chan.lineOut = l.chan.lineOut ++ cs.take 1

/-- What is left queued is all but the oldest byte. -/
theorem Live.Serviced.contents (h : l.Serviced cs l') (hc : l.regs.tx.contents l.chan.caps.tx = some cs) :
    l'.regs.tx.contents l.chan.caps.tx = some (cs.drop 1) := by
  have hle : min 1 cs.length ≤ l.regs.tx.count := RingBuffer.contents_length hc ▸ Nat.min_le_right _ _
  rw [h.tx, RingBuffer.contents_pop hc hle]
  cases cs <;> simp

/-- The transmit branch of an ARMED-READY line services its event. -/
theorem txBranch_services (harmed : l.chan.txArmed = true) (hbusy : l.regs.txBusy = false)
    (hc : l.regs.tx.contents l.chan.caps.tx = some cs) (h : txBranch l = .done l') : l.Serviced cs l' := by
  have hlen := RingBuffer.contents_length hc
  obtain ⟨hcount, rfl⟩ | ⟨-, hpos, v, hv, rfl⟩ := txBranch_inv h
  · obtain rfl : cs = [] := List.length_eq_zero_iff.mp (hlen.trans hcount)
    exact ⟨rfl, by simp [hcount], hbusy, rfl, (List.append_nil _).symm⟩
  · cases cs with
    | nil => exact absurd hpos (hlen ▸ Nat.lt_irrefl 0)
    | cons w ws =>
      obtain ⟨-, hw⟩ := RingBuffer.contents_cons hc
      obtain rfl : w = v := Option.some.inj (hw.symm.trans hv)
      exact ⟨rfl, by simp, rfl, harmed, by simp⟩

/-- The handler at its transmit condition services the event: the receive branch before it leaves the transmit side
(R211). -/
theorem handler_services (hst : l.txState.isSome = true) (hcond : l.txCond = true)
    (hc : l.regs.tx.contents l.chan.caps.tx = some cs) (h : handler l = .done l') : l.Serviced cs l' := by
  obtain ⟨harmed, hbusy⟩ := Live.ready_of_txCond hst hcond
  obtain ⟨hno, -⟩ | ⟨-, hbranch⟩ := handler_inv h
  · cases hno.symm.trans hcond
  · split at hbranch
    · obtain ⟨hk, htx', hbusy', -, harmed', hout'⟩ := rxBranch_kept l
      obtain ⟨hpend, htx, hb, ha, hout⟩ := txBranch_services (harmed'.trans harmed) (hbusy'.trans hbusy)
        (by rw [htx', hk.caps, hc]) hbranch
      exact ⟨hpend, by rw [htx, htx', hk.caps], hb, ha, by rw [hout, hout']⟩
    · exact txBranch_services harmed hbusy hc hbranch

/-- Without received bytes waiting the handler leaves the receive side (R210). -/
theorem handler_rx_of_nil (hhw : l.regs.rxHw = []) (h : handler l = .done l') :
    l'.regs.rx = l.regs.rx ∧ l'.regs.rxHw = [] := by
  have hrx : l.rxCond = false := by simp [Live.rxCond, Regs.dataReady, hhw]
  have hrun := handler_inv h
  simp only [hrx, if_neg Bool.false_ne_true] at hrun
  obtain ⟨-, rfl⟩ | ⟨-, hbranch⟩ := hrun
  · exact ⟨rfl, hhw⟩
  · exact hhw ▸ txBranch_rx hbranch

/-- Settles O39: the handler services the transmit event, and leaves the rest as `Kept` says. -/
theorem handlerTransmitsOneByteOrDisarms : Obligations.HandlerTransmitsOneByteOrDisarms := by
  unfold Obligations.HandlerTransmitsOneByteOrDisarms
  intro s line l cs hf hl hok hreq hcond hc
  obtain ⟨l', hh, hexec⟩ := exec_evIrq_requested hf hl hok hreq
  have hserv := handler_services hok.txState hcond hc hh
  have hk := handler_kept hh
  have hsent : ∀ v vs, cs = v :: vs → l'.regs.txBusy = true ∧ l'.chan.txArmed = true ∧
      l'.chan.lineOut = l.chan.lineOut ++ [v] := by
    rintro v vs rfl
    exact ⟨hserv.busy, hserv.armed, hserv.out⟩
  have hdisarmed : cs = [] → l'.regs.txBusy = false ∧ l'.chan.txArmed = false ∧
      l'.chan.lineOut = l.chan.lineOut := by
    rintro rfl
    exact ⟨hserv.busy, hserv.armed, hserv.out.trans (List.append_nil _)⟩
  exact ⟨l', hexec, hserv.pend, hserv.contents hc, by rw [hserv.tx], by rw [hserv.tx], by rw [hserv.tx],
    hsent, hdisarmed, hk.txPin, hk.rxPin, hk.caps, hk.rxIe, hk.lineEn, fun hhw => handler_rx_of_nil hhw hh⟩

/-! ### Received bytes left -/

/-- A line with its enables on and received bytes waiting is at its receive condition and requested (R36). -/
theorem Live.requested_of_rxHw (hie : l.chan.rxIe = true) (hen : l.chan.lineEn = true) (hhw : l.regs.rxHw ≠ []) :
    l.rxCond = true ∧ l.irqReq = true := by
  have hcond : l.rxCond = true := by simp [Live.rxCond, Regs.dataReady, hie, hhw]
  exact ⟨hcond, by rw [Live.irqReq, hen, hcond, Bool.true_or, Bool.and_true]⟩

/-- Settles O40: the handler takes the oldest byte and keeps both enables, so the byte after it requests again. -/
theorem bytesLeftKeepTheRequest : Obligations.BytesLeftKeepTheRequest := by
  unfold Obligations.BytesLeftKeepTheRequest
  intro s line l e e' es hs hf hl hhw
  have hok := hs.live_ok hl
  obtain ⟨hcond, hreq⟩ := Live.requested_of_rxHw hok.rxIe hok.lineEn (by simp [hhw])
  obtain ⟨l', hh, hexec⟩ := exec_evIrq_requested hf hl hok hreq
  obtain ⟨hhw', hrx, -⟩ := handler_receives hh hcond hhw
  have hk := handler_kept hh
  have hlive : (s.setChannel line l'.toChannel).live line = some ⟨l'.toChannel, l'.regs⟩ :=
    State.live_setChannel_toChannel _ (State.live_lt hl)
  obtain ⟨-, hreq'⟩ := Live.requested_of_rxHw (l := ⟨l'.toChannel, l'.regs⟩) (hk.rxIe.trans hok.rxIe)
    (hk.lineEn.trans hok.lineEn) (by simp [hhw'])
  refine ⟨_, _, hexec, hlive, hhw', ?_, by rw [State.irqReq, hlive, Option.any_some, hreq']⟩
  simp only [hrx]
  split
  · exact Nat.le_succ _
  · rw [rbPush_count]
    exact Nat.add_le_add_left (Nat.min_le_left _ _) _

end Sys2Proof.Machine
end

section
/-! PROOFS. Reset: the block at power-up. -/

namespace Sys2Proof.Machine

open Sys2Proof
open Sys2Proof.Config (Params)

/-- A block at power-up has one channel for each line of its build (R10). -/
@[simp] theorem State.powerUp_numLines (p : Params) : (State.powerUp p).numLines = p.numLines :=
  List.length_map Channel.powerUp

/-- The channels of a block at power-up are the power-up channels of the build's lines, and no other. -/
theorem State.mem_powerUp_ch {p : Params} {c : Channel} :
    c ∈ (State.powerUp p).ch ↔ ∃ k ∈ p.lines, Channel.powerUp k = c :=
  List.mem_map

/-- Settles O10: every channel of the block is the power-up channel of some line, whose fields R290 gives. -/
theorem powerUpState : Obligations.PowerUpState := by
  unfold Obligations.PowerUpState
  intro p
  refine ⟨State.powerUp_fault p, State.powerUp_numLines p, fun c hc => ?_⟩
  obtain ⟨k, -, rfl⟩ := State.mem_powerUp_ch.mp hc
  exact ⟨rfl, rfl, rfl, rfl, rfl, rfl⟩

end Sys2Proof.Machine
end
